-- ==== Sys2Proof/Word.lean ====
section
/-! DEFINITION. The plain word types of the block: 32-bit bus words and 4-bit register numbers. -/

namespace Sys2Proof

/-- A command word and a host access of the register window are 32 bits wide (30_encoding.md R90, 20_memory.md R63). -/
abbrev Word32 := BitVec 32

/-- A 4-bit register field of a command word, 0 to 15 (30_encoding.md R91). -/
abbrev RegNum := Fin 16

end Sys2Proof
end

