-- ==== Sys2Proof/Syntax.lean ====
section
/-! DEFINITION. The commands of the block: one constructor per row of the opcode map (30_encoding.md R95). -/

namespace Sys2Proof

/-- A decoded command. Register arguments stand in the order RD, RA, RB, RC, as in the assembler syntax of
30_encoding.md R99; a field that the command's row requires to be zero is no argument. -/
inductive Instr where
  /-- 45_key_management.md R191 -/
  | nop
  /-- 40_modexp_engine.md R121: base ra, exponent rb, modulus rc -/
  | modexp (rd ra rb rc : RegNum)
  /-- 40_modexp_engine.md R123: factors ra, rb, modulus rc -/
  | modmul (rd ra rb rc : RegNum)
  /-- 40_modexp_engine.md R125 -/
  | mul (rd ra rb : RegNum)
  /-- 41_inverse_unit.md R141: value ra, modulus rc -/
  | modinv (rd ra rc : RegNum)
  /-- 41_inverse_unit.md R143 -/
  | gcd (rd ra rb : RegNum)
  /-- 43_carmichael_lcm.md R171 -/
  | lcm (rd ra rb : RegNum)
  /-- 43_carmichael_lcm.md R173 with S = 0: p in ra, q in rb -/
  | carm (rd ra rb : RegNum)
  /-- 43_carmichael_lcm.md R173 with S = 1 -/
  | carmS (rd ra rb : RegNum)
  /-- 44_l_function.md R181: x in ra, n in rc -/
  | lfunc (rd ra rc : RegNum)
  /-- 42_prime_bitcount.md R151 -/
  | bitlen (rd ra : RegNum)
  /-- 42_prime_bitcount.md R154 -/
  | primetest (rd ra : RegNum)
  /-- 42_prime_bitcount.md R156: width in ra -/
  | genprime (rd ra : RegNum)
  /-- 42_prime_bitcount.md R158: bound in ra -/
  | randbelow (rd ra : RegNum)
  /-- 42_prime_bitcount.md R160: width in ra -/
  | randbits (rd ra : RegNum)
  /-- 45_key_management.md R193 with S = 0: bitLength in ra -/
  | keygen (ra : RegNum)
  /-- 45_key_management.md R193 with S = 1 -/
  | keygenS (ra : RegNum)
  /-- 45_key_management.md R199: n in ra, n2 in rb, g in rc -/
  | keyloadPk (ra rb rc : RegNum)
  /-- 45_key_management.md R201: lambda in rd (a source here), mu in ra, p in rb, q in rc -/
  | keyloadSk (rd ra rb rc : RegNum)
  /-- 45_key_management.md R203: the RA field is the key-bank index i -/
  | keyget (rd : RegNum) (i : Fin 16)
  /-- 45_key_management.md R205 -/
  | keyclr
  /-- 46_encryptor.md R221: plaintext in ra -/
  | encrypt (rd ra : RegNum)
  /-- 46_encryptor.md R223: plaintext in ra, randomness out to rb -/
  | encryptZkp (rd ra rb : RegNum)
  /-- 46_encryptor.md R225: plaintext in ra, randomness in rb -/
  | encryptR (rd ra rb : RegNum)
  /-- 47_decryptor.md R241: ciphertext in ra -/
  | decrypt (rd ra : RegNum)
  deriving DecidableEq, Repr

end Sys2Proof
end

