-- ==== Sys2Proof/WellFormed.lean ====
section
/-! DEFINITION. Which instruction terms some command word stands for. Register numbers are 0 to 15 by their type;
the one further condition is KEYGET's key-bank index (30_encoding.md R93, R94). -/

namespace Sys2Proof

/-- An instruction is well formed when a command word decodes to it: KEYGET's index is 0 to 6 (R94); every other
row admits every register number in every field (R91). ENCRYPT.ZKP with RD = RB is well formed: it decodes, and
its completion raises ERR_OPERAND (R103). -/
def Instr.wellFormed : Instr → Bool
  | .nop => true
  | .modexp _ _ _ _ => true
  | .modmul _ _ _ _ => true
  | .mul _ _ _ => true
  | .modinv _ _ _ => true
  | .gcd _ _ _ => true
  | .lcm _ _ _ => true
  | .carm _ _ _ => true
  | .carmS _ _ _ => true
  | .lfunc _ _ _ => true
  | .bitlen _ _ => true
  | .primetest _ _ => true
  | .genprime _ _ => true
  | .randbelow _ _ => true
  | .randbits _ _ => true
  | .keygen _ => true
  | .keygenS _ => true
  | .keyloadPk _ _ _ => true
  | .keyloadSk _ _ _ _ => true
  | .keyget _ i => decide (i.val ≤ 6)
  | .keyclr => true
  | .encrypt _ _ => true
  | .encryptZkp _ _ _ => true
  | .encryptR _ _ _ => true
  | .decrypt _ _ => true

end Sys2Proof
end

