-- ==== Sys2Proof/Decode.lean ====
section
/-! DEFINITION. The command word (30_encoding.md R90 to R98): its fields, the decoder, the encoder, and the mask and
match rows of R95. -/

namespace Sys2Proof

/-- The fields of the one format R4 (30_encoding.md R90), most significant first. -/
structure Fields where
  /-- bits 31:25, reserved -/
  rsv : BitVec 7
  /-- bit 24, the variant bit -/
  s   : BitVec 1
  /-- bits 23:20 -/
  rc  : BitVec 4
  /-- bits 19:16 -/
  rb  : BitVec 4
  /-- bits 15:12 -/
  ra  : BitVec 4
  /-- bits 11:8 -/
  rd  : BitVec 4
  /-- bits 7:0 -/
  op  : BitVec 8
  deriving DecidableEq, Repr

/-- The fields of a command word, by the bit positions of R90. -/
def Fields.ofWord (w : Word32) : Fields where
  rsv := w.extractLsb' 25 7
  s   := w.extractLsb' 24 1
  rc  := w.extractLsb' 20 4
  rb  := w.extractLsb' 16 4
  ra  := w.extractLsb' 12 4
  rd  := w.extractLsb' 8 4
  op  := w.extractLsb' 0 8

/-- word = (RSV << 25) | (S << 24) | (RC << 20) | (RB << 16) | (RA << 12) | (RD << 8) | OP (R90). -/
def Fields.toWord (f : Fields) : Word32 :=
  f.rsv ++ (f.s ++ (f.rc ++ (f.rb ++ (f.ra ++ (f.rd ++ f.op)))))

/-- An instruction, if the fields its row marks "0" are zero (R93). -/
def whenZero (zero : Bool) (i : Instr) : Option Instr :=
  if zero then some i else none

/-- The decoder on fields: the opcode map of R95, with RSV = 0 in every row, S = 0 outside CARM and KEYGEN, unused
fields zero (R93) and KEYGET's index at most 6 (R94). `none` is an illegal word (R93, R96). -/
def decodeFields (f : Fields) : Option Instr :=
  let d := f.rd.toFin
  let a := f.ra.toFin
  let b := f.rb.toFin
  let c := f.rc.toFin
  let zd := f.rd == 0
  let za := f.ra == 0
  let zb := f.rb == 0
  let zc := f.rc == 0
  let plain := f.rsv == 0 && f.s == 0
  let simple := f.rsv == 0 && f.s == 1
  match f.op.toNat with
  | 0x00 => whenZero (plain && zd && za && zb && zc) .nop
  | 0x01 => whenZero plain (.modexp d a b c)
  | 0x02 => whenZero plain (.modmul d a b c)
  | 0x03 => whenZero (plain && zc) (.mul d a b)
  | 0x04 => whenZero (plain && zb) (.modinv d a c)
  | 0x05 => whenZero (plain && zc) (.gcd d a b)
  | 0x06 => whenZero (plain && zc) (.lcm d a b)
  | 0x07 => if simple then whenZero zc (.carmS d a b) else whenZero (plain && zc) (.carm d a b)
  | 0x08 => whenZero (plain && zb) (.lfunc d a c)
  | 0x09 => whenZero (plain && zb && zc) (.bitlen d a)
  | 0x0A => whenZero (plain && zb && zc) (.primetest d a)
  | 0x0B => whenZero (plain && zb && zc) (.genprime d a)
  | 0x0C => whenZero (plain && zb && zc) (.randbelow d a)
  | 0x0D => whenZero (plain && zb && zc) (.randbits d a)
  | 0x10 =>
    if simple then whenZero (zd && zb && zc) (.keygenS a) else whenZero (plain && zd && zb && zc) (.keygen a)
  | 0x11 => whenZero (plain && zd) (.keyloadPk a b c)
  | 0x12 => whenZero plain (.keyloadSk d a b c)
  | 0x13 => whenZero (plain && zb && zc && decide (a.val ≤ 6)) (.keyget d a)
  | 0x14 => whenZero (plain && zd && za && zb && zc) .keyclr
  | 0x20 => whenZero (plain && zb && zc) (.encrypt d a)
  | 0x21 => whenZero (plain && zc) (.encryptZkp d a b)
  | 0x22 => whenZero (plain && zc) (.encryptR d a b)
  | 0x30 => whenZero (plain && zb && zc) (.decrypt d a)
  | _ => none

/-- The decoder on a command word: total; `none` is an illegal word, which completes with ERR_ILLEGAL (R103). -/
def decode (w : Word32) : Option Instr :=
  decodeFields (Fields.ofWord w)

/-- The four register fields, S and OP of a command, RSV zero. -/
def fieldsOf (s : BitVec 1) (rc rb ra rd : RegNum) (op : BitVec 8) : Fields :=
  { rsv := 0, s, rc := BitVec.ofFin rc, rb := BitVec.ofFin rb, ra := BitVec.ofFin ra, rd := BitVec.ofFin rd, op }

/-- The fields of an instruction: the row of R95, unused fields zero. -/
def encodeFields : Instr → Fields
  | .nop => fieldsOf 0 0 0 0 0 0x00
  | .modexp rd ra rb rc => fieldsOf 0 rc rb ra rd 0x01
  | .modmul rd ra rb rc => fieldsOf 0 rc rb ra rd 0x02
  | .mul rd ra rb => fieldsOf 0 0 rb ra rd 0x03
  | .modinv rd ra rc => fieldsOf 0 rc 0 ra rd 0x04
  | .gcd rd ra rb => fieldsOf 0 0 rb ra rd 0x05
  | .lcm rd ra rb => fieldsOf 0 0 rb ra rd 0x06
  | .carm rd ra rb => fieldsOf 0 0 rb ra rd 0x07
  | .carmS rd ra rb => fieldsOf 1 0 rb ra rd 0x07
  | .lfunc rd ra rc => fieldsOf 0 rc 0 ra rd 0x08
  | .bitlen rd ra => fieldsOf 0 0 0 ra rd 0x09
  | .primetest rd ra => fieldsOf 0 0 0 ra rd 0x0A
  | .genprime rd ra => fieldsOf 0 0 0 ra rd 0x0B
  | .randbelow rd ra => fieldsOf 0 0 0 ra rd 0x0C
  | .randbits rd ra => fieldsOf 0 0 0 ra rd 0x0D
  | .keygen ra => fieldsOf 0 0 0 ra 0 0x10
  | .keygenS ra => fieldsOf 1 0 0 ra 0 0x10
  | .keyloadPk ra rb rc => fieldsOf 0 rc rb ra 0 0x11
  | .keyloadSk rd ra rb rc => fieldsOf 0 rc rb ra rd 0x12
  | .keyget rd i => fieldsOf 0 0 0 i rd 0x13
  | .keyclr => fieldsOf 0 0 0 0 0 0x14
  | .encrypt rd ra => fieldsOf 0 0 0 ra rd 0x20
  | .encryptZkp rd ra rb => fieldsOf 0 0 rb ra rd 0x21
  | .encryptR rd ra rb => fieldsOf 0 0 rb ra rd 0x22
  | .decrypt rd ra => fieldsOf 0 0 0 ra rd 0x30

/-- The command word of an instruction (R90, R95). -/
def encode (i : Instr) : Word32 :=
  (encodeFields i).toWord

/-- The mask and match columns of R95, row by row, in the table's order. -/
def opcodeRows : List (Word32 × Word32) :=
  [(0xFFFFFFFF, 0x00000000), (0xFF0000FF, 0x00000001), (0xFF0000FF, 0x00000002), (0xFFF000FF, 0x00000003),
   (0xFF0F00FF, 0x00000004), (0xFFF000FF, 0x00000005), (0xFFF000FF, 0x00000006), (0xFFF000FF, 0x00000007),
   (0xFFF000FF, 0x01000007), (0xFF0F00FF, 0x00000008), (0xFFFF00FF, 0x00000009), (0xFFFF00FF, 0x0000000A),
   (0xFFFF00FF, 0x0000000B), (0xFFFF00FF, 0x0000000C), (0xFFFF00FF, 0x0000000D), (0xFFFF0FFF, 0x00000010),
   (0xFFFF0FFF, 0x01000010), (0xFF000FFF, 0x00000011), (0xFF0000FF, 0x00000012), (0xFFFF00FF, 0x00000013),
   (0xFFFFFFFF, 0x00000014), (0xFFFF00FF, 0x00000020), (0xFFF000FF, 0x00000021), (0xFFF000FF, 0x00000022),
   (0xFFFF00FF, 0x00000030)]

/-- The mask and match of an instruction's own row of R95. -/
def rowOf : Instr → Word32 × Word32
  | .nop => (0xFFFFFFFF, 0x00000000)
  | .modexp _ _ _ _ => (0xFF0000FF, 0x00000001)
  | .modmul _ _ _ _ => (0xFF0000FF, 0x00000002)
  | .mul _ _ _ => (0xFFF000FF, 0x00000003)
  | .modinv _ _ _ => (0xFF0F00FF, 0x00000004)
  | .gcd _ _ _ => (0xFFF000FF, 0x00000005)
  | .lcm _ _ _ => (0xFFF000FF, 0x00000006)
  | .carm _ _ _ => (0xFFF000FF, 0x00000007)
  | .carmS _ _ _ => (0xFFF000FF, 0x01000007)
  | .lfunc _ _ _ => (0xFF0F00FF, 0x00000008)
  | .bitlen _ _ => (0xFFFF00FF, 0x00000009)
  | .primetest _ _ => (0xFFFF00FF, 0x0000000A)
  | .genprime _ _ => (0xFFFF00FF, 0x0000000B)
  | .randbelow _ _ => (0xFFFF00FF, 0x0000000C)
  | .randbits _ _ => (0xFFFF00FF, 0x0000000D)
  | .keygen _ => (0xFFFF0FFF, 0x00000010)
  | .keygenS _ => (0xFFFF0FFF, 0x01000010)
  | .keyloadPk _ _ _ => (0xFF000FFF, 0x00000011)
  | .keyloadSk _ _ _ _ => (0xFF0000FF, 0x00000012)
  | .keyget _ _ => (0xFFFF00FF, 0x00000013)
  | .keyclr => (0xFFFFFFFF, 0x00000014)
  | .encrypt _ _ => (0xFFFF00FF, 0x00000020)
  | .encryptZkp _ _ _ => (0xFFF000FF, 0x00000021)
  | .encryptR _ _ _ => (0xFFF000FF, 0x00000022)
  | .decrypt _ _ => (0xFFFF00FF, 0x00000030)

/-- R94: row (mask, match) matches w when (w AND mask) = match; KEYGET's row also requires RA at most 6. -/
def rowMatches (w : Word32) (row : Word32 × Word32) : Bool :=
  w &&& row.1 == row.2 && (row.2 != 0x00000013 || decide ((w.extractLsb' 12 4).toNat ≤ 6))

/-- The instruction the decoder reads from the bits w of an nbits-bit row of the opcode table. A command is one
32-bit word (R98): bits from nbits up are zero, and nothing wider than one word is a command. -/
def decodeTableWord (nbits w : Nat) : Option Instr :=
  let v := w % 2 ^ nbits
  if v < 2 ^ 32 then decode (BitVec.ofNat 32 v) else none

end Sys2Proof
end

