-- ==== Sys2Proof/Machine/Arith.lean ====
section
/-! DEFINITION. The mathematical helper functions of 00_scope.md R10, on unbounded naturals. gcd and lcm are Nat.gcd
and Nat.lcm (gcd(0, 0) = 0, lcm with 0 is 0). powmod and invmod are written so that they can be evaluated; that they
are R10's functions is proved in Laws/Arith.lean. -/

namespace Sys2Proof.Machine

/-- bitWidth(x): 0 for x = 0, else the w with 2^(w−1) ≤ x < 2^w (R10). -/
def bitWidth (x : Nat) : Nat := if x = 0 then 0 else Nat.log2 x + 1

/-- Square and multiply over the low `fuel` bits of the exponent. -/
def powmodBits : Nat → Nat → Nat → Nat → Nat
  | 0, _, _, m => 1 % m
  | fuel + 1, a, e, m =>
    if e = 0 then 1 % m
    else if e % 2 = 1 then a * powmodBits fuel (a * a % m) (e / 2) m % m
    else powmodBits fuel (a * a % m) (e / 2) m

/-- powmod(a, e, m) = (a^e) mod m, with a^0 = 1 for every a (R10). -/
def powmod (a e m : Nat) : Nat := powmodBits (bitWidth e) (a % m) e m

/-- Euclid's algorithm from (r0, r1), carrying t0 and t1 with t0·a ≡ r0 and t1·a ≡ r1 modulo m. -/
def invSteps : Nat → Nat → Nat → Nat → Nat → Nat → Nat
  | 0, _, t0, _, _, _ => t0
  | fuel + 1, r0, t0, r1, t1, m =>
    if r1 = 0 then t0
    else invSteps fuel r1 t1 (r0 % r1) ((t0 + (m - r0 / r1 * t1 % m)) % m) m

/-- invmod(a, m): the y with 0 ≤ y < m and (a·y) mod m = 1 mod m, for gcd(a mod m, m) = 1; 0 for m = 1 (R10). Every
use is guarded by a gcd check first (41_inverse_unit.md R140). -/
def invmod (a m : Nat) : Nat := invSteps m m 0 (a % m) (1 % m) m

/-- Whether L(x) is defined: x ≥ 1 and (x − 1) mod n = 0 (R10, 44_l_function.md R180). -/
def lExact (x n : Nat) : Bool := x != 0 && (x - 1) % n == 0

/-- Lfun(x, n) = (x − 1) div n (R10). -/
def lFun (x n : Nat) : Nat := (x - 1) / n

/-- phi(p, q) = (p − 1)·(q − 1), for p, q ≥ 1 (43_carmichael_lcm.md R170). -/
def phi (p q : Nat) : Nat := (p - 1) * (q - 1)

/-- carm(p, q) = lcm(p − 1, q − 1), for p, q ≥ 1 (43_carmichael_lcm.md R170). -/
def carm (p q : Nat) : Nat := Nat.lcm (p - 1) (q - 1)

end Sys2Proof.Machine
end

