-- ==== Sys2Proof/Config.lean ====
section
/-! DEFINITION. The parameters the spec leaves open (00_scope.md R6, R7; 20_memory.md R61), and the free values:
the answers of the entropy port and the order of events. -/

namespace Sys2Proof

/-- The parameters of one block: the model takes them as an argument by holding them in State (log 1). -/
structure Config where
  /-- KEY_BITS_MAX, the widest modulus KEYGEN accepts (R6). -/
  keyBitsMax : Nat
  /-- MMIO_BASE, the bus address of the register window (R61). -/
  mmioBase   : Nat
  deriving DecidableEq, Repr

/-- R6: KEY_BITS_MAX is a multiple of 16 in [64, 65536]; R61: MMIO_BASE is a multiple of 64. -/
abbrev Config.Valid (c : Config) : Prop :=
  c.keyBitsMax % 16 = 0 ∧ 64 ≤ c.keyBitsMax ∧ c.keyBitsMax ≤ 65536 ∧ c.mmioBase % 64 = 0

/-- WREG, the width in bits of every operand and key register (R7). -/
def Config.wreg (c : Config) : Nat := 2 * c.keyBitsMax

/-- NW, the number of 32-bit words in one wide register (R7). -/
def Config.nw (c : Config) : Nat := c.wreg / 32

/-- The configuration the spec's examples use: KEY_BITS_MAX = 64 (30_encoding.md R108). MMIO_BASE 0 is a
DESIGN CHOICE (log 1). -/
def Config.example64 : Config := { keyBitsMax := 64, mmioBase := 0 }

/-- What may happen in one step: a host operation, a step of the engine, or a power-on reset
(10_state.md R20, 20_memory.md R75, 70_reset_and_hazards.md R290). -/
inductive Event where
  | host
  | engine
  | powerOn
  deriving DecidableEq, Repr, Inhabited

/-- FREE VALUE (00_scope.md R9; 93_implementation_defined.md T5): the answer the entropy port gives to its k-th
draw that the environment has not fixed. It has no body: nothing is known of it (log 3). -/
opaque Config.freeDraw : Nat → Nat

/-- FREE VALUE (20_memory.md R75; 60_exceptions.md R258): the k-th event the environment has not fixed. It has no
body: every interleaving of host, engine and power-on reset is admitted (log 4). -/
opaque Config.freeEvent : Nat → Event

end Sys2Proof
end

