-- ==== Sys2Proof/Machine/State.lean ====
section
/-! DEFINITION. The state of the block, of the host program that drives it, and of the environment (entropy answers
and order of events), as plain data; and the state after reset. -/

namespace Sys2Proof.Machine

/-- Why a step stops. The block itself never stops: every command ends in a next state, with an error code if the
spec names one (60_exceptions.md R253). -/
inductive Fault where
  /-- Raised by a host operation whose address lies outside the block's 64-byte register window (20_memory.md R60).
  The spec gives no behaviour of other bus targets. Safe: the run stops (log 9). -/
  | outsideWindow
  deriving DecidableEq, Repr

/-- Why a step has no meaning. Every arm of exec has one, so nothing raises a refusal. -/
inductive Refusal where
  /-- For an arm of exec that is not modelled, by its mnemonic; no arm is. Safe. -/
  | notModelled (mnemonic : String)
  deriving DecidableEq, Repr

/-- The error codes of 60_exceptions.md R251. -/
inductive ErrCode where
  | illegal
  | operand
  | modulus
  | noInverse
  | lNotExact
  | range
  | overflow
  | noKey
  | precondition
  | bitLength
  | construction
  deriving DecidableEq, Repr

/-- The in-flight command latch when full (10_state.md R39): the command word and the policy values at issue. -/
structure Latch where
  word    : Word32
  rounds  : BitVec 8
  minBits : Word32
  deriving DecidableEq, Repr

/-- The key bank (10_state.md R23), fields in index order 0 to 6. A wide register holds an unsigned integer
(00_scope.md R7); that it is below 2^WREG is the invariant of Safety.lean (log 2). -/
structure KeyBank where
  n      : Nat
  n2     : Nat
  g      : Nat
  lambda : Nat
  mu     : Nat
  p      : Nat
  q      : Nat
  deriving DecidableEq, Repr

/-- The block's own state: the list of 10_state.md R42. BUSY is not stored beside the latch: it is the latch's
fullness (R39, log 12). ID, PARAM, WIN_DATA and irq have no storage (R31, R32, R36, R40). -/
structure Block where
  /-- X[0]..X[15] (R21) -/
  x          : Vector Nat 16
  /-- the key bank (R23) -/
  key        : KeyBank
  /-- STATUS.PK_VALID (R33) -/
  pkValid    : Bool
  /-- STATUS.SK_VALID -/
  skValid    : Bool
  /-- STATUS.DONE -/
  done       : Bool
  /-- STATUS.ERR -/
  err        : Bool
  /-- STATUS.CMD_OVERRUN -/
  cmdOverrun : Bool
  /-- STATUS.ACCESS_ERR -/
  accessErr  : Bool
  /-- STATUS.ERRCODE -/
  errCode    : BitVec 8
  /-- CTRL.MR_ROUNDS (R34) -/
  mrRounds   : BitVec 8
  /-- CTRL.IRQ_EN -/
  irqEn      : Bool
  /-- MINBITS (R37) -/
  minBits    : Word32
  /-- CMD read-back (R38) -/
  cmd        : Word32
  /-- WIN_SEL.WORD (R35) -/
  winWord    : BitVec 16
  /-- WIN_SEL.REG -/
  winReg     : BitVec 5
  /-- WIN_SEL.AUTOINC -/
  winAuto    : Bool
  /-- the in-flight command latch (R39) -/
  latch      : Option Latch
  deriving DecidableEq, Repr

/-- The widths of a host access (20_memory.md R63). -/
inductive AccessWidth where
  | bits8
  | bits16
  | bits32
  | bits64
  deriving DecidableEq, Repr

/-- Operations of host-side computation (20_memory.md R60 names the computation and leaves its language open:
DESIGN CHOICE, log 6). -/
inductive HostFn where
  | add | sub | mul | div | mod | and | or | xor | shl | shr | eq | ne | lt
  deriving DecidableEq, Repr

/-- Host-side expressions over host variables (log 6). -/
inductive HostExpr where
  | lit (v : Nat)
  | var (x : Nat)
  | app (f : HostFn) (a b : HostExpr)
  deriving DecidableEq, Repr

/-- The operations of a host program (20_memory.md R60). Offsets are from MMIO_BASE. -/
inductive HostOp where
  /-- RD off: a read; the value is bound to a host variable -/
  | rd (width : AccessWidth) (off : Nat) (dst : Nat)
  /-- WR off, v -/
  | wr (width : AccessWidth) (off : Nat) (v : HostExpr)
  /-- POLL: repeat RD 0x10 until BUSY reads 0 -/
  | poll
  /-- host-side computation on host variables -/
  | compute (dst : Nat) (e : HostExpr)
  /-- host-side branch, pc <- target, taken when the condition is not 0 -/
  | branch (cond : HostExpr) (target : Nat)
  deriving DecidableEq, Repr

/-- The host program, its pc (10_state.md R27) and its variables: pairs of variable number and value in canonical
form, numbers rising, no value 0 (an unlisted variable reads 0, log 6). -/
structure HostState where
  prog : List HostOp
  pc   : Nat
  vars : List (Nat × Nat)
  deriving DecidableEq, Repr

/-- The entropy port (10_state.md R20): the coming answers that the environment has fixed, oldest first, and the
index of the next free answer (log 3). -/
structure Entropy where
  answers : List Nat
  ix      : Nat
  deriving DecidableEq, Repr

/-- The order of events (20_memory.md R75): the coming events that are fixed, and the index of the next free event
(log 4). -/
structure Scheduler where
  events : List Event
  ix     : Nat
  deriving DecidableEq, Repr

/-- The whole machine: parameters, block, host, and the model's own fields for free inputs. -/
structure State where
  /-- the parameters of the block; no step changes them (log 1) -/
  cfg        : Config
  /-- the block -/
  blk        : Block
  /-- the host program (R27) -/
  host       : HostState
  /-- the model's own: entropy answers (log 3) -/
  entropy    : Entropy
  /-- the model's own: the order of events (log 4) -/
  sched      : Scheduler
  /-- the model's own: how many rounds of a retry loop one engine step follows (log 5) -/
  loopBudget : Nat
  deriving DecidableEq, Repr

/-- An empty key bank: every field 0 (R23, 45_key_management.md R205). -/
def KeyBank.empty : KeyBank :=
  { n := 0, n2 := 0, g := 0, lambda := 0, mu := 0, p := 0, q := 0 }

/-- The reset state of the block (10_state.md R42, 70_reset_and_hazards.md R290). -/
def Block.reset : Block where
  x          := Vector.replicate 16 0
  key        := KeyBank.empty
  pkValid    := false
  skValid    := false
  done       := false
  err        := false
  cmdOverrun := false
  accessErr  := false
  errCode    := 0x00
  mrRounds   := 64
  irqEn      := false
  minBits    := 512
  cmd        := 0
  winWord    := 0
  winReg     := 0
  winAuto    := false
  latch      := none

/-- The machine after power-on reset in configuration c: the block as R290 says, no host program yet (log 8), and
the model's own fields at the values of logs 3, 4 and 5. -/
def State.resetWith (c : Config) : State where
  cfg        := c
  blk        := Block.reset
  host       := { prog := [], pc := 0, vars := [] }
  entropy    := { answers := [], ix := 0 }
  sched      := { events := [], ix := 0 }
  loopBudget := 64

/-- The machine right after reset, in the configuration of the spec's examples (log 1). -/
def State.reset : State := State.resetWith Config.example64

end Sys2Proof.Machine
end

