-- ==== Sys2Proof/Machine/Operands.lean ====
section
/-! DEFINITION. Reading and writing the wide registers: whole registers by command fields, key-bank fields by index,
and single 32-bit words for the window (10_state.md R21 to R26, R29; 20_memory.md R66). -/

namespace Sys2Proof.Machine

/-- X[r] (10_state.md R21, 30_encoding.md R91). -/
def Block.getX (b : Block) (r : RegNum) : Nat := b.x[r]

/-- X[r] <- v: the whole register is replaced (10_state.md R22). -/
def Block.setX (b : Block) (r : RegNum) (v : Nat) : Block :=
  { b with x := b.x.set r v }

/-- The key-bank field of index i, 0 to 6 (10_state.md R23); no field beyond. -/
def KeyBank.field (k : KeyBank) : Nat → Option Nat
  | 0 => some k.n
  | 1 => some k.n2
  | 2 => some k.g
  | 3 => some k.lambda
  | 4 => some k.mu
  | 5 => some k.p
  | 6 => some k.q
  | _ => none

/-- The wide register that window index r selects for reading: 0 to 15 an operand register, 16 to 22 a key-bank
field, beyond that nothing (10_state.md R35, 20_memory.md R67). -/
def Block.wide (b : Block) (r : Nat) : Option Nat :=
  if h : r < 16 then some (b.getX ⟨r, h⟩) else b.key.field (r - 16)

/-- Word i of a wide register holding v: v[32·i+31 : 32·i] (20_memory.md R66). -/
def wordOf (v i : Nat) : Word32 := BitVec.ofNat 32 (v / 2 ^ (32 * i))

/-- v with word i replaced by u: v − v[32i+31:32i]·2^(32i) + u·2^(32i) (20_memory.md R66). -/
def replaceWord (v i : Nat) (u : Word32) : Nat :=
  v - (wordOf v i).toNat * 2 ^ (32 * i) + u.toNat * 2 ^ (32 * i)

/-- A key pair installed in the bank: all seven fields, both valid bits (10_state.md R24). -/
def Block.installKey (b : Block) (k : KeyBank) : Block :=
  { b with key := k, pkValid := true, skValid := true }

end Sys2Proof.Machine
end

