-- ==== Sys2Proof/Machine/Flags.lean ====
section
/-! DEFINITION. The STATUS and CTRL bits: the words the host reads, write-one-to-clear, the error codes, completion
and the interrupt output (10_state.md R31 to R35, R40; 30_encoding.md R105; 60_exceptions.md R251, R256). -/

namespace Sys2Proof.Machine

/-- The codes of 60_exceptions.md R251. -/
def ErrCode.code : ErrCode → BitVec 8
  | .illegal => 0x01
  | .operand => 0x02
  | .modulus => 0x03
  | .noInverse => 0x04
  | .lNotExact => 0x05
  | .range => 0x06
  | .overflow => 0x07
  | .noKey => 0x08
  | .precondition => 0x09
  | .bitLength => 0x0A
  | .construction => 0x0B

/-- STATUS.BUSY: 1 exactly while the latch is full (10_state.md R33, R39). -/
def Block.busy (b : Block) : Bool := b.latch.isSome

/-- The interrupt output: irq = CTRL.IRQ_EN ∧ STATUS.DONE (10_state.md R40, 60_exceptions.md R256). -/
def Block.irq (b : Block) : Bool := b.irqEn && b.done

/-- A flag as a one-bit field. -/
def bit (f : Bool) : BitVec 1 := BitVec.ofBool f

/-- The STATUS word (10_state.md R33): SK_VALID 17, PK_VALID 16, ERRCODE 15:8, reserved 7:5, ACCESS_ERR 4,
CMD_OVERRUN 3, ERR 2, DONE 1, BUSY 0. -/
def Block.statusWord (b : Block) : Word32 :=
  (0 : BitVec 14) ++ (bit b.skValid ++ (bit b.pkValid ++ (b.errCode ++ ((0 : BitVec 3) ++ (bit b.accessErr ++
    (bit b.cmdOverrun ++ (bit b.err ++ (bit b.done ++ bit b.busy))))))))

/-- The CTRL word (10_state.md R34): IRQ_EN 8, MR_ROUNDS 7:0; SRST and the reserved bits read 0. -/
def Block.ctrlWord (b : Block) : Word32 :=
  (0 : BitVec 23) ++ (bit b.irqEn ++ b.mrRounds)

/-- The WIN_SEL word (10_state.md R35): AUTOINC 31, REG 20:16, WORD 15:0. -/
def Block.winSelWord (b : Block) : Word32 :=
  bit b.winAuto ++ ((0 : BitVec 10) ++ (b.winReg ++ b.winWord))

/-- The ID word "PAIL" (10_state.md R31). -/
def idWord : Word32 := 0x5041494C

/-- The PARAM word (10_state.md R32): NK = 7 in 31:24, NX = 16 in 23:16, NW in 15:0. -/
def paramWord (c : Config) : Word32 :=
  (7 : BitVec 8) ++ ((16 : BitVec 8) ++ BitVec.ofNat 16 c.nw)

/-- A host write to STATUS clears each W1C bit whose written bit is 1 and changes nothing else (10_state.md R33). -/
def Block.writeStatus (b : Block) (v : Word32) : Block :=
  { b with
    done := b.done && !v.getLsbD 1
    cmdOverrun := b.cmdOverrun && !v.getLsbD 3
    accessErr := b.accessErr && !v.getLsbD 4 }

/-- A host write to CTRL (10_state.md R34): bit 31 set is a soft reset, the other bits discarded
(70_reset_and_hazards.md R291); else IRQ_EN is bit 8 and MR_ROUNDS bits 7:0, a written 0 leaving MR_ROUNDS as it is. -/
def Block.writeCtrl (b : Block) (v : Word32) : Block :=
  if v.getLsbD 31 then Block.reset
  else
    { b with
      irqEn := v.getLsbD 8
      mrRounds := if v.extractLsb' 0 8 = 0 then b.mrRounds else v.extractLsb' 0 8 }

/-- A host write to WIN_SEL: any value may be written to WORD and REG (10_state.md R35). -/
def Block.writeWinSel (b : Block) (v : Word32) : Block :=
  { b with winWord := v.extractLsb' 0 16, winReg := v.extractLsb' 16 5, winAuto := v.getLsbD 31 }

/-- A refused host access sets ACCESS_ERR and has no other effect (20_memory.md R63, 60_exceptions.md R255). -/
def Block.refuseAccess (b : Block) : Block :=
  { b with accessErr := true }

/-- Completion (30_encoding.md R105): the latch is emptied (BUSY <- 0), DONE <- 1, ERR and ERRCODE as given. -/
def Block.complete (b : Block) (err : Bool) (code : BitVec 8) : Block :=
  { b with latch := none, done := true, err := err, errCode := code }

end Sys2Proof.Machine
end

