-- ==== Sys2Proof/Machine/Ops.lean ====
section
/-! DEFINITION. The shared operations of a step: draws from the entropy port, issue, completion with or without an
error, an engine step that goes on, the choice of the next event, and power-on reset. -/

namespace Sys2Proof.Machine

/-- A step of the machine. -/
abbrev Result := Host.Outcome State Fault Refusal

/-- What a command's pseudocode ends in (00_scope.md R9): `error` is `raise Error(code)`, `ok` the block with the
command's writes made, to be committed. -/
abbrev CmdResult := Except ErrCode Block

/-- An entropy answer coded by any natural v: v itself where it lies in [lo, hi], else v folded into the range, so
that every v answers and every value of the range is some v's answer (00_scope.md R9, log 3). -/
def fitDraw (lo hi v : Nat) : Nat :=
  if lo ≤ v ∧ v ≤ hi then v else lo + v % (hi - lo + 1)

/-- Draw(lo, hi), one value of [lo, hi] from the entropy port (00_scope.md R9, 42_prime_bitcount.md R159): the next
answer the environment has fixed, or else the next free answer. -/
def draw (lo hi : Nat) (e : Entropy) : Nat × Entropy :=
  match e.answers with
  | v :: rest => (fitDraw lo hi v, { e with answers := rest })
  | [] => (fitDraw lo hi (Config.freeDraw e.ix), { e with ix := e.ix + 1 })

/-- lat.rounds (30_encoding.md R106). With an empty latch, which no completion step meets, the value an issue would
latch (log 10). -/
def Block.latRounds (b : Block) : Nat :=
  match b.latch with
  | some l => l.rounds.toNat
  | none => b.mrRounds.toNat

/-- lat.minbits (30_encoding.md R106); with an empty latch as for latRounds. -/
def Block.latMinBits (b : Block) : Nat :=
  match b.latch with
  | some l => l.minBits.toNat
  | none => b.minBits.toNat

/-- Issue of command v (30_encoding.md R101): read-back, latch with the policy values, BUSY <- 1 (the latch is full),
DONE, ERR and ERRCODE cleared. The word is not decoded. -/
def Block.issue (b : Block) (v : Word32) : Block :=
  { b with
    cmd := v
    latch := some { word := v, rounds := b.mrRounds, minBits := b.minBits }
    done := false
    err := false
    errCode := 0x00 }

/-- A host write to CMD: issue while idle (R101); dropped while busy, setting CMD_OVERRUN alone (R102). -/
def Block.writeCmd (b : Block) (v : Word32) : Block :=
  if b.busy then { b with cmdOverrun := true } else b.issue v

/-- TAKING AN EXCEPTION: `raise Error(code)` ends the command; its completion step writes STATUS only, no register
and no valid bit (60_exceptions.md R253, 30_encoding.md R104, R105). The pc-like state is the host's and there is no
handler (R253). -/
def State.raiseError (s : State) (e : ErrCode) : State :=
  { s with blk := s.blk.complete true e.code }

/-- `commit`: the writes made in b, and completion without error (30_encoding.md R104, R105). -/
def State.commit (s : State) (b : Block) : State :=
  { s with blk := b.complete false 0x00 }

/-- The end of a command's pseudocode: all its writes or, on an error, none (30_encoding.md R104). -/
def State.finish (s : State) : CmdResult → State
  | .ok b => s.commit b
  | .error e => s.raiseError e

/-- The same for a command that has taken draws: they are consumed in either case (60_exceptions.md R253). -/
def State.finishDrawn (s : State) (e : Entropy) (r : CmdResult) : State :=
  { s.finish r with entropy := e }

/-- An engine step in which a retry loop has not ended within the budget: no completion yet, so the block, BUSY
among it, is as before, no draw is consumed, and the next engine step follows the loop further
(30_encoding.md R107, log 5). -/
def State.goOn (s : State) : State :=
  { s with loopBudget := 2 * s.loopBudget + 1 }

/-- THE RETURN beside it: there is no return from an error (60_exceptions.md R259). The host acknowledges a completion
by writing 1 to STATUS.DONE (Block.writeStatus) or by the next issue. -/
def State.acknowledge (s : State) : State :=
  { s with blk := s.blk.writeStatus 0x00000002 }

/-- Power-on reset: the block takes its reset state (70_reset_and_hazards.md R290), a latched command is dropped and
takes no draws (R292); the host program is no state of the block (10_state.md R42). -/
def State.powerOnReset (s : State) : State :=
  { s with blk := Block.reset }

/-- The next event: the first that is fixed, or else the next free one (20_memory.md R75, log 4). -/
def State.nextEvent (s : State) : Event × State :=
  match s.sched.events with
  | ev :: rest => (ev, { s with sched := { s.sched with events := rest } })
  | [] => (Config.freeEvent s.sched.ix, { s with sched := { s.sched with ix := s.sched.ix + 1 } })

end Sys2Proof.Machine
end

