-- ==== Sys2Proof/Machine/ModExp.lean ====
section
/-! DEFINITION. The modular exponentiation engine: MODEXP, MODMUL, MUL (40_modexp_engine.md). -/

namespace Sys2Proof.Machine

/-- The modulus check of the Montgomery unit (R120): m = 0 or m even is refused. -/
def badOddModulus (m : Nat) : Bool := m == 0 || m % 2 == 0

/-- X[rd] <- t, or ERR_OVERFLOW when t does not fit WREG bits (R125, 43_carmichael_lcm.md R171, R173). -/
def writeFitting (s : State) (rd : RegNum) (t : Nat) : CmdResult :=
  if 2 ^ s.cfg.wreg ≤ t then .error .overflow else .ok (s.blk.setX rd t)

/-- MODEXP (R121). -/
def execModexp (rd ra rb rc : RegNum) (s : State) : Result :=
  let a := s.blk.getX ra
  let e := s.blk.getX rb
  let m := s.blk.getX rc
  .next (s.finish (
    if badOddModulus m then .error .modulus
    else .ok (s.blk.setX rd (powmod a e m))))

/-- MODMUL (R123): the full product is reduced. -/
def execModmul (rd ra rb rc : RegNum) (s : State) : Result :=
  let a := s.blk.getX ra
  let b := s.blk.getX rb
  let m := s.blk.getX rc
  .next (s.finish (
    if badOddModulus m then .error .modulus
    else .ok (s.blk.setX rd (a * b % m))))

/-- MUL (R125): the product is never truncated. -/
def execMul (rd ra rb : RegNum) (s : State) : Result :=
  .next (s.finish (writeFitting s rd (s.blk.getX ra * s.blk.getX rb)))

end Sys2Proof.Machine
end

