-- ==== Sys2Proof/Machine/Carmichael.lean ====
section
/-! DEFINITION. The Carmichael / lcm computer: LCM, CARM, CARM.S (43_carmichael_lcm.md). -/

namespace Sys2Proof.Machine

/-- LCM (R171): 0 when an operand is 0. -/
def execLcm (rd ra rb : RegNum) (s : State) : Result :=
  .next (s.finish (writeFitting s rd (Nat.lcm (s.blk.getX ra) (s.blk.getX rb))))

/-- The decryption exponent by the function lam, with p = 0 and q = 0 refused (R172, R173). -/
def exponentOf (lam : Nat → Nat → Nat) (rd ra rb : RegNum) (s : State) : CmdResult :=
  let p := s.blk.getX ra
  let q := s.blk.getX rb
  if p = 0 ∨ q = 0 then .error .range else writeFitting s rd (lam p q)

/-- CARM (R173, S = 0): lcm(p − 1, q − 1). -/
def execCarm (rd ra rb : RegNum) (s : State) : Result :=
  .next (s.finish (exponentOf carm rd ra rb s))

/-- CARM.S (R173, S = 1): (p − 1)(q − 1). -/
def execCarmS (rd ra rb : RegNum) (s : State) : Result :=
  .next (s.finish (exponentOf phi rd ra rb s))

end Sys2Proof.Machine
end

