-- ==== Sys2Proof/Machine/Decryptor.lean ====
section
/-! DEFINITION. The Paillier decryptor: DECRYPT (47_decryptor.md). -/

namespace Sys2Proof.Machine

/-- DECRYPT (R241): m = L(c^λ mod n2) · μ mod n, with c < n2 and the exactness of L checked; p and q are not read
(R240). -/
def execDecrypt (rd ra : RegNum) (s : State) : Result :=
  let k := s.blk.key
  let c := s.blk.getX ra
  let x := powmod c k.lambda k.n2
  .next (s.finish (
    if !s.blk.skValid then .error .noKey
    else if k.n2 ≤ c then .error .range
    else if !lExact x k.n then .error .lNotExact
    else .ok (s.blk.setX rd (lFun x k.n * k.mu % k.n))))

end Sys2Proof.Machine
end

