-- ==== Sys2Proof/Machine/Encryptor.lean ====
section
/-! DEFINITION. The Paillier encryptor: ENCRYPT, ENCRYPT.ZKP, ENCRYPT.R (46_encryptor.md). -/

namespace Sys2Proof.Machine

/-- Enc(m, r) = g^m · r^n mod n2 (R220). The plaintext is not checked against n. -/
def KeyBank.enc (k : KeyBank) (m r : Nat) : Nat :=
  powmod k.g m k.n2 * powmod r k.n k.n2 % k.n2

/-- ENCRYPT (R221): r drawn from [2, n − 1], not checked for coprimality. -/
def execEncrypt (rd ra : RegNum) (s : State) : Result :=
  if !s.blk.pkValid then .next (s.raiseError .noKey)
  else
    let r := draw 2 (s.blk.key.n - 1) s.entropy
    .next (s.finishDrawn r.2 (.ok (s.blk.setX rd (s.blk.key.enc (s.blk.getX ra) r.1))))

/-- ENCRYPT.ZKP (R223): as ENCRYPT, and r is written to X[rb]. RD = RB raises ERR_OPERAND before the key is looked at
(30_encoding.md R103). -/
def execEncryptZkp (rd ra rb : RegNum) (s : State) : Result :=
  if rd = rb then .next (s.raiseError .operand)
  else if !s.blk.pkValid then .next (s.raiseError .noKey)
  else
    let r := draw 2 (s.blk.key.n - 1) s.entropy
    .next (s.finishDrawn r.2 (.ok ((s.blk.setX rd (s.blk.key.enc (s.blk.getX ra) r.1)).setX rb r.1)))

/-- ENCRYPT.R (R225): r = 0, r ≥ n or r not coprime to n is refused (R224). -/
def execEncryptR (rd ra rb : RegNum) (s : State) : Result :=
  let m := s.blk.getX ra
  let r := s.blk.getX rb
  let n := s.blk.key.n
  .next (s.finish (
    if !s.blk.pkValid then .error .noKey
    else if r = 0 ∨ n ≤ r ∨ Nat.gcd r n ≠ 1 then .error .precondition
    else .ok (s.blk.setX rd (s.blk.key.enc m r))))

end Sys2Proof.Machine
end

