-- ==== Sys2Proof/Machine/Inverse.lean ====
section
/-! DEFINITION. The modular inverse unit: MODINV, GCD (41_inverse_unit.md). -/

namespace Sys2Proof.Machine

/-- MODINV (R141): any nonzero modulus; no inverse is an error, never a value (R140). -/
def execModinv (rd ra rc : RegNum) (s : State) : Result :=
  let a := s.blk.getX ra
  let m := s.blk.getX rc
  .next (s.finish (
    if m = 0 then .error .modulus
    else if Nat.gcd (a % m) m ≠ 1 then .error .noInverse
    else .ok (s.blk.setX rd (invmod a m))))

/-- GCD (R143): gcd(0, 0) = 0. -/
def execGcd (rd ra rb : RegNum) (s : State) : Result :=
  .next (s.finish (.ok (s.blk.setX rd (Nat.gcd (s.blk.getX ra) (s.blk.getX rb)))))

end Sys2Proof.Machine
end

