-- ==== Sys2Proof/Machine/PrimeBit.lean ====
section
/-! DEFINITION. The prime test and bit counter unit: BITLEN, PRIMETEST, GENPRIME, RANDBELOW, RANDBITS
(42_prime_bitcount.md). -/

namespace Sys2Proof.Machine

/-- The s and d with n = 2^s · d and d odd, found in at most `fuel` halvings. -/
def splitTwos : Nat → Nat → Nat × Nat
  | 0, n => (0, n)
  | fuel + 1, n =>
    if n % 2 = 0 then
      let sd := splitTwos fuel (n / 2)
      (sd.1 + 1, sd.2)
    else (0, n)

/-- The inner loop of a Miller–Rabin round (R152): whether one of the next k squarings of x gives c − 1. -/
def squaringsPass : Nat → Nat → Nat → Bool
  | 0, _, _ => false
  | k + 1, x, c =>
    let y := x * x % c
    y == c - 1 || squaringsPass k y c

/-- Whether base a passes one round for c, with c − 1 = 2^s · d (R152). -/
def roundPasses (c s d a : Nat) : Bool :=
  let x := powmod a d c
  x == 1 || x == c - 1 || squaringsPass (s - 1) x c

/-- Up to k rounds, one base drawn from [2, c − 2] in each; the first failing round ends the test and later rounds
take no draws (R152). -/
def testRounds : Nat → Nat → Nat → Nat → Entropy → Bool × Entropy
  | 0, _, _, _, en => (true, en)
  | k + 1, c, s, d, en =>
    let a := draw 2 (c - 2) en
    if roundPasses c s d a.1 then testRounds k c s d a.2 else (false, a.2)

/-- MR(c, k), the primality test with k rounds (R152): exact below 5 and for even c, with no draw there. -/
def millerRabin (c k : Nat) (en : Entropy) : Bool × Entropy :=
  if c < 2 then (false, en)
  else if c = 2 ∨ c = 3 then (true, en)
  else if c % 2 = 0 then (false, en)
  else
    let sd := splitTwos (bitWidth c) (c - 1)
    testRounds k c sd.1 sd.2 en

/-- Cand(w): a drawn w-bit string with bits w − 1 and 0 forced to 1 (R155). -/
def candidate (w : Nat) (en : Entropy) : Nat × Entropy :=
  let u := draw 0 (2 ^ w - 1) en
  (u.1 ||| 2 ^ (w - 1) ||| 1, u.2)

/-- GenPrime(w) (R156): candidates until one passes MR with k rounds. `none` when none of the first `budget`
candidates passes: the loop has not ended yet (30_encoding.md R107, log 5). -/
def genPrime : Nat → Nat → Nat → Entropy → Option (Nat × Entropy)
  | 0, _, _, _ => none
  | budget + 1, w, k, en =>
    let c := candidate w en
    let t := millerRabin c.1 k c.2
    if t.1 then some (c.1, t.2) else genPrime budget w k t.2

/-- BITLEN (R151). -/
def execBitlen (rd ra : RegNum) (s : State) : Result :=
  .next (s.finish (.ok (s.blk.setX rd (bitWidth (s.blk.getX ra)))))

/-- PRIMETEST (R154): the result 1 or 0 goes to X[rd]. -/
def execPrimetest (rd ra : RegNum) (s : State) : Result :=
  let t := millerRabin (s.blk.getX ra) s.blk.latRounds s.entropy
  .next (s.finishDrawn t.2 (.ok (s.blk.setX rd t.1.toNat)))

/-- GENPRIME (R156). While the retry loop has not ended, the command has not completed (R107). -/
def execGenprime (rd ra : RegNum) (s : State) : Result :=
  let w := s.blk.getX ra
  if w < 2 ∨ s.cfg.wreg < w then .next (s.raiseError .range)
  else
    match genPrime s.loopBudget w s.blk.latRounds s.entropy with
    | some (c, en) => .next (s.finishDrawn en (.ok (s.blk.setX rd c)))
    | none => .next s.goOn

/-- RANDBELOW (R158): a draw from [0, b − 1]. -/
def execRandbelow (rd ra : RegNum) (s : State) : Result :=
  let b := s.blk.getX ra
  if b = 0 then .next (s.raiseError .range)
  else
    let u := draw 0 (b - 1) s.entropy
    .next (s.finishDrawn u.2 (.ok (s.blk.setX rd u.1)))

/-- RANDBITS (R160): a draw from [0, 2^w − 1], no bit forced. -/
def execRandbits (rd ra : RegNum) (s : State) : Result :=
  let w := s.blk.getX ra
  if s.cfg.wreg < w then .next (s.raiseError .range)
  else
    let u := draw 0 (2 ^ w - 1) s.entropy
    .next (s.finishDrawn u.2 (.ok (s.blk.setX rd u.1)))

end Sys2Proof.Machine
end

