-- ==== Sys2Proof/Machine/KeySeq.lean ====
section
/-! DEFINITION. The key sequencer: NOP, KEYGEN, KEYGEN.S, KEYLOAD.PK, KEYLOAD.SK, KEYGET, KEYCLR
(45_key_management.md). -/

namespace Sys2Proof.Machine

/-- NOP (R191): completion and nothing else. -/
def execNop (s : State) : Result :=
  .next (s.finish (.ok s.blk))

/-- KEYGEN's bitLength checks (R192): odd, below 4, below lat.minbits, or above KEY_BITS_MAX. -/
def badBitLength (s : State) (bl : Nat) : Bool :=
  bl % 2 == 1 || decide (bl < 4) || decide (bl < s.blk.latMinBits) || decide (s.cfg.keyBitsMax < bl)

/-- PrimePair(bl) (R194): p and then q of width bl / 2, both drawn again until n = p·q has width bl. The first
argument bounds the pairs tried, `budget` the candidates of each prime search; `none` when the loop has not ended
within them (30_encoding.md R107, log 5). -/
def primePair (budget : Nat) : Nat → Nat → Nat → Entropy → Option ((Nat × Nat) × Entropy)
  | 0, _, _, _ => none
  | tries + 1, bl, k, en =>
    match genPrime budget (bl / 2) k en with
    | none => none
    | some (p, en1) =>
      match genPrime budget (bl / 2) k en1 with
      | none => none
      | some (q, en2) =>
        if bitWidth (p * q) = bl then some ((p, q), en2) else primePair budget tries bl k en2

/-- The key of the simple variant from the two primes (R193, S = 1). -/
def simpleKey (p q : Nat) : Except ErrCode KeyBank :=
  let n := p * q
  let lambda := phi p q
  if Nat.gcd lambda n ≠ 1 then .error .construction
  else .ok { n, n2 := n * n, g := n + 1, lambda, mu := invmod lambda n, p, q }

/-- α·n − 1 modulo n2 as a residue: for α = 0 it is −1, which reduces to n2 − 1 (R195). -/
def alphaTerm (alpha n n2 : Nat) : Nat :=
  if alpha = 0 then n2 - 1 else (alpha * n - 1) % n2

/-- g = ((α·n − 1) · (β^n mod n2)) mod n2 (R195). -/
def generatorOf (alpha beta n n2 : Nat) : Nat :=
  alphaTerm alpha n n2 * powmod beta n n2 % n2

/-- The key of the full variant from the two primes and the generator (R193, S = 0). -/
def fullKey (p q g : Nat) : Except ErrCode KeyBank :=
  let n := p * q
  let n2 := n * n
  let lambda := Nat.lcm (p - 1) (q - 1)
  let x := powmod g lambda n2
  if !lExact x n then .error .construction
  else
    let l := lFun x n
    if Nat.gcd l n ≠ 1 then .error .construction
    else .ok { n, n2, g, lambda, mu := invmod l n, p, q }

/-- The end of key generation: the whole bank is written, or nothing (R190, R193). -/
def installResult (s : State) : Except ErrCode KeyBank → CmdResult
  | .ok k => .ok (s.blk.installKey k)
  | .error e => .error e

/-- KEYGEN (R193, S = 0): the full variant, with α and then β drawn from [0, n − 1] after the primes (R195). -/
def execKeygen (ra : RegNum) (s : State) : Result :=
  let bl := s.blk.getX ra
  if badBitLength s bl then .next (s.raiseError .bitLength)
  else
    match primePair s.loopBudget s.loopBudget bl s.blk.latRounds s.entropy with
    | none => .next s.goOn
    | some ((p, q), en) =>
      let n := p * q
      let alpha := draw 0 (n - 1) en
      let beta := draw 0 (n - 1) alpha.2
      .next (s.finishDrawn beta.2 (installResult s (fullKey p q (generatorOf alpha.1 beta.1 n (n * n)))))

/-- KEYGEN.S (R193, S = 1): the simple variant, g = n + 1. -/
def execKeygenS (ra : RegNum) (s : State) : Result :=
  let bl := s.blk.getX ra
  if badBitLength s bl then .next (s.raiseError .bitLength)
  else
    match primePair s.loopBudget s.loopBudget bl s.blk.latRounds s.entropy with
    | none => .next s.goOn
    | some ((p, q), en) => .next (s.finishDrawn en (installResult s (simpleKey p q)))

/-- KEYLOAD.PK (R199): the checks in the order n, n2, g (60_exceptions.md R254); the private part is cleared. -/
def execKeyloadPk (ra rb rc : RegNum) (s : State) : Result :=
  let n := s.blk.getX ra
  let n2 := s.blk.getX rb
  let g := s.blk.getX rc
  .next (s.finish (
    if n < 3 ∨ n % 2 = 0 then .error .construction
    else if n2 ≠ n * n then .error .construction
    else if n2 ≤ g ∨ Nat.gcd g n ≠ 1 then .error .construction
    else .ok { s.blk with
      key := { KeyBank.empty with n := n, n2 := n2, g := g }
      pkValid := true
      skValid := false }))

/-- KEYLOAD.SK (R201): the checks in the order of its pseudocode. -/
def execKeyloadSk (rd ra rb rc : RegNum) (s : State) : Result :=
  let lambda := s.blk.getX rd
  let mu := s.blk.getX ra
  let p := s.blk.getX rb
  let q := s.blk.getX rc
  let n := s.blk.key.n
  let x := powmod s.blk.key.g lambda s.blk.key.n2
  .next (s.finish (
    if !s.blk.pkValid then .error .noKey
    else if p * q ≠ n then .error .construction
    else if lambda ≠ phi p q ∧ lambda ≠ carm p q then .error .construction
    else if n ≤ mu then .error .construction
    else if !lExact x n then .error .construction
    else if mu * lFun x n % n ≠ 1 then .error .construction
    else .ok { s.blk with
      key := { s.blk.key with lambda := lambda, mu := mu, p := p, q := q }
      skValid := true }))

/-- KEYGET (R203): no valid-bit check; an index beyond 6 is illegal (30_encoding.md R93; no word decodes to one,
log 11). -/
def execKeyget (rd : RegNum) (i : Fin 16) (s : State) : Result :=
  .next (s.finish (
    match s.blk.key.field i with
    | some v => .ok (s.blk.setX rd v)
    | none => .error .illegal))

/-- KEYCLR (R205): operand registers are not cleared. -/
def execKeyclr (s : State) : Result :=
  .next (s.finish (.ok { s.blk with key := KeyBank.empty, pkValid := false, skValid := false }))

end Sys2Proof.Machine
end

