-- ==== Sys2Proof/Machine/LFunction.lean ====
section
/-! DEFINITION. The L-function pipeline: LFUNC (44_l_function.md). -/

namespace Sys2Proof.Machine

/-- LFUNC (R181): exact or an error (R180). -/
def execLfunc (rd ra rc : RegNum) (s : State) : Result :=
  let x := s.blk.getX ra
  let n := s.blk.getX rc
  .next (s.finish (
    if n = 0 then .error .modulus
    else if lExact x n then .ok (s.blk.setX rd (lFun x n))
    else .error .lNotExact))

end Sys2Proof.Machine
end

