-- ==== Sys2Proof/Machine/Dispatch.lean ====
section
/-! DEFINITION. exec: one arm per command, each one direct call of its meaning. -/

namespace Sys2Proof.Machine

def exec (i : Instr) (s : State) : Host.Outcome State Fault Refusal :=
  match i with
  | .nop => Sys2Proof.Machine.execNop s
  | .modexp rd ra rb rc => Sys2Proof.Machine.execModexp rd ra rb rc s
  | .modmul rd ra rb rc => Sys2Proof.Machine.execModmul rd ra rb rc s
  | .mul rd ra rb => Sys2Proof.Machine.execMul rd ra rb s
  | .modinv rd ra rc => Sys2Proof.Machine.execModinv rd ra rc s
  | .gcd rd ra rb => Sys2Proof.Machine.execGcd rd ra rb s
  | .lcm rd ra rb => Sys2Proof.Machine.execLcm rd ra rb s
  | .carm rd ra rb => Sys2Proof.Machine.execCarm rd ra rb s
  | .carmS rd ra rb => Sys2Proof.Machine.execCarmS rd ra rb s
  | .lfunc rd ra rc => Sys2Proof.Machine.execLfunc rd ra rc s
  | .bitlen rd ra => Sys2Proof.Machine.execBitlen rd ra s
  | .primetest rd ra => Sys2Proof.Machine.execPrimetest rd ra s
  | .genprime rd ra => Sys2Proof.Machine.execGenprime rd ra s
  | .randbelow rd ra => Sys2Proof.Machine.execRandbelow rd ra s
  | .randbits rd ra => Sys2Proof.Machine.execRandbits rd ra s
  | .keygen ra => Sys2Proof.Machine.execKeygen ra s
  | .keygenS ra => Sys2Proof.Machine.execKeygenS ra s
  | .keyloadPk ra rb rc => Sys2Proof.Machine.execKeyloadPk ra rb rc s
  | .keyloadSk rd ra rb rc => Sys2Proof.Machine.execKeyloadSk rd ra rb rc s
  | .keyget rd idx => Sys2Proof.Machine.execKeyget rd idx s
  | .keyclr => Sys2Proof.Machine.execKeyclr s
  | .encrypt rd ra => Sys2Proof.Machine.execEncrypt rd ra s
  | .encryptZkp rd ra rb => Sys2Proof.Machine.execEncryptZkp rd ra rb s
  | .encryptR rd ra rb => Sys2Proof.Machine.execEncryptR rd ra rb s
  | .decrypt rd ra => Sys2Proof.Machine.execDecrypt rd ra s

end Sys2Proof.Machine
end

