-- ==== Sys2Proof/Machine/Engine.lean ====
section
/-! DEFINITION. The engine's step (30_encoding.md R103 to R105). -/

namespace Sys2Proof.Machine

/-- The engine's step, enabled exactly when the latch is full (10_state.md R39): a word that no row matches raises
ERR_ILLEGAL (30_encoding.md R103), any other runs its command's rule. With an empty latch the engine does nothing. -/
def engineStep (s : State) : Result :=
  match s.blk.latch with
  | none => .next s
  | some l =>
    match decode l.word with
    | none => .next (s.raiseError .illegal)
    | some i => exec i s

/-- A command loaded where the engine takes its next one: word v issued (30_encoding.md R101), the engine next to
move (log 8). -/
def State.loadCommand (s : State) (v : Word32) : State :=
  { s with blk := s.blk.issue v, sched := { s.sched with events := Event.engine :: s.sched.events } }

end Sys2Proof.Machine
end

