-- ==== Sys2Proof/Machine/Bus.lean ====
section
/-! DEFINITION. Host accesses of the 64-byte register window (20_memory.md R60 to R71). -/

namespace Sys2Proof.Machine

/-- The registers of the window (R62). -/
inductive WinRegister where
  | id | param | ctrl | minBits | status | cmd | winSel | winData
  deriving DecidableEq, Repr

/-- The register an access reaches: 32 bits wide at an aligned, mapped offset (R62 to R64); `none` is refused. -/
def accessed (w : AccessWidth) (off : Nat) : Option WinRegister :=
  if w ≠ .bits32 then none
  else
    match off with
    | 0x00 => some .id
    | 0x04 => some .param
    | 0x08 => some .ctrl
    | 0x0C => some .minBits
    | 0x10 => some .status
    | 0x14 => some .cmd
    | 0x18 => some .winSel
    | 0x1C => some .winData
    | _ => none

/-- After an accepted WIN_DATA access WORD advances when AUTOINC is set, from NW − 1 to 0 (R69). -/
def Block.advanceWord (c : Config) (b : Block) : Block :=
  if b.winAuto then { b with winWord := BitVec.ofNat 16 ((b.winWord.toNat + 1) % c.nw) } else b

/-- MemRead(0x1C, 4) (R67): refused while busy, for a selector beyond 22 and for a word beyond the register. -/
def Block.readWindow (c : Config) (b : Block) : Word32 × Block :=
  if b.busy ∨ c.nw ≤ b.winWord.toNat then (0, b.refuseAccess)
  else
    match b.wide b.winReg.toNat with
    | some v => (wordOf v b.winWord.toNat, b.advanceWord c)
    | none => (0, b.refuseAccess)

/-- MemWrite(0x1C, 4, u) (R68): operand registers only, so no host write reaches the key bank. -/
def Block.writeWindow (c : Config) (b : Block) (u : Word32) : Block :=
  if h : b.winReg.toNat < 16 then
    if b.busy ∨ c.nw ≤ b.winWord.toNat then b.refuseAccess
    else
      let r : RegNum := ⟨b.winReg.toNat, h⟩
      (b.setX r (replaceWord (b.getX r) b.winWord.toNat u)).advanceWord c
  else b.refuseAccess

/-- MemRead(off, 4): the value read and the block after it; a refused read returns 0 (R63, R64, R71). -/
def Block.readReg (c : Config) (b : Block) (w : AccessWidth) (off : Nat) : Word32 × Block :=
  match accessed w off with
  | none => (0, b.refuseAccess)
  | some .id => (idWord, b)
  | some .param => (paramWord c, b)
  | some .ctrl => (b.ctrlWord, b)
  | some .minBits => (b.minBits, b)
  | some .status => (b.statusWord, b)
  | some .cmd => (b.cmd, b)
  | some .winSel => (b.winSelWord, b)
  | some .winData => b.readWindow c

/-- MemWrite(off, 4, v) (R62 to R64, R71): a write to ID or PARAM is refused. -/
def Block.writeReg (c : Config) (b : Block) (w : AccessWidth) (off : Nat) (v : Word32) : Block :=
  match accessed w off with
  | none => b.refuseAccess
  | some .id => b.refuseAccess
  | some .param => b.refuseAccess
  | some .ctrl => b.writeCtrl v
  | some .minBits => { b with minBits := v }
  | some .status => b.writeStatus v
  | some .cmd => b.writeCmd v
  | some .winSel => b.writeWinSel v
  | some .winData => b.writeWindow c v

/-- The offset of a bus address in the window of 64 bytes at MMIO_BASE (R60, R61); no offset outside it. -/
def windowOffset (c : Config) (addr : Nat) : Option Nat :=
  if c.mmioBase ≤ addr ∧ addr < c.mmioBase + 64 then some (addr - c.mmioBase) else none

/-- A host read at a bus address; `none` when the address is outside the window (log 9). -/
def State.busRead (s : State) (w : AccessWidth) (addr : Nat) : Option (Word32 × State) :=
  (windowOffset s.cfg addr).map fun off =>
    ((s.blk.readReg s.cfg w off).1, { s with blk := (s.blk.readReg s.cfg w off).2 })

/-- A host write at a bus address; `none` when the address is outside the window (log 9). -/
def State.busWrite (s : State) (w : AccessWidth) (addr : Nat) (v : Word32) : Option State :=
  (windowOffset s.cfg addr).map fun off =>
    { s with blk := s.blk.writeReg s.cfg w off v }

end Sys2Proof.Machine
end

