-- ==== Sys2Proof/Machine/HostProgram.lean ====
section
/-! DEFINITION. The host program (10_state.md R27, 20_memory.md R60): one host operation a step. -/

namespace Sys2Proof.Machine

/-- Host variables in canonical form: variable numbers rise and no listed value is 0 (log 6). -/
def varsCanonical : List (Nat × Nat) → Bool
  | [] => true
  | [c] => c.2 != 0
  | c :: d :: rest => c.2 != 0 && decide (c.1 < d.1) && varsCanonical (d :: rest)

/-- The value of a host variable; an unlisted one reads 0 (log 6). -/
def varGet : List (Nat × Nat) → Nat → Nat
  | [], _ => 0
  | c :: rest, x => if c.1 = x then c.2 else varGet rest x

/-- Binds a host variable, keeping the canonical form: the value 0 removes the entry. -/
def varSet : List (Nat × Nat) → Nat → Nat → List (Nat × Nat)
  | [], x, v => if v = 0 then [] else [(x, v)]
  | c :: rest, x, v =>
    if x < c.1 then (if v = 0 then c :: rest else (x, v) :: c :: rest)
    else if c.1 = x then (if v = 0 then rest else (x, v) :: rest)
    else c :: varSet rest x v

/-- Host-side operations on naturals; truth is 1 and 0, subtraction stops at 0, division by 0 gives 0 and the
remainder by 0 the dividend (DESIGN CHOICE, log 6). -/
def HostFn.apply : HostFn → Nat → Nat → Nat
  | .add, a, b => a + b
  | .sub, a, b => a - b
  | .mul, a, b => a * b
  | .div, a, b => a / b
  | .mod, a, b => a % b
  | .and, a, b => a &&& b
  | .or, a, b => a ||| b
  | .xor, a, b => a ^^^ b
  | .shl, a, b => a * 2 ^ b
  | .shr, a, b => a / 2 ^ b
  | .eq, a, b => (decide (a = b)).toNat
  | .ne, a, b => (decide (a ≠ b)).toNat
  | .lt, a, b => (decide (a < b)).toNat

/-- The value of a host-side expression. -/
def HostExpr.eval (vars : List (Nat × Nat)) : HostExpr → Nat
  | .lit v => v
  | .var x => varGet vars x
  | .app f a b => f.apply (a.eval vars) (b.eval vars)

/-- pc advances by 1 after an operation (10_state.md R27). -/
def HostState.advance (h : HostState) : HostState :=
  { h with pc := h.pc + 1 }

/-- A value bound to a host variable. -/
def HostState.bind (h : HostState) (x v : Nat) : HostState :=
  { h with vars := varSet h.vars x v }

/-- RD off: the value read is bound to the host variable (20_memory.md R60). -/
def hostRead (s : State) (w : AccessWidth) (off dst : Nat) : Result :=
  match s.busRead w (s.cfg.mmioBase + off) with
  | none => .fault .outsideWindow
  | some (v, s') => .next { s' with host := (s'.host.bind dst v.toNat).advance }

/-- WR off, v: the value's low 32 bits are written. -/
def hostWrite (s : State) (w : AccessWidth) (off : Nat) (v : HostExpr) : Result :=
  match s.busWrite w (s.cfg.mmioBase + off) (BitVec.ofNat 32 (v.eval s.host.vars)) with
  | none => .fault .outsideWindow
  | some s' => .next { s' with host := s'.host.advance }

/-- One round of POLL: RD 0x10, and pc stays while bit 0, BUSY, reads 1 (20_memory.md R60, log 7). -/
def hostPoll (s : State) : Result :=
  match s.busRead .bits32 (s.cfg.mmioBase + 0x10) with
  | none => .fault .outsideWindow
  | some (v, s') => .next (if v.getLsbD 0 then s' else { s' with host := s'.host.advance })

/-- One host operation; after the end of the program the host does nothing (log 7). -/
def hostStep (s : State) : Result :=
  match s.host.prog[s.host.pc]? with
  | none => .next s
  | some (.rd w off dst) => hostRead s w off dst
  | some (.wr w off v) => hostWrite s w off v
  | some .poll => hostPoll s
  | some (.compute dst e) =>
    .next { s with host := (s.host.bind dst (e.eval s.host.vars)).advance }
  | some (.branch cond target) =>
    .next { s with host := if cond.eval s.host.vars = 0 then s.host.advance else { s.host with pc := target } }

end Sys2Proof.Machine
end

