-- ==== Sys2Proof/Machine/Agents.lean ====
section
/-! DEFINITION. The agents of the machine and what each does when it moves (10_state.md R20, 20_memory.md R75). -/

namespace Sys2Proof.Machine

/-- What an event does: one host operation, one engine step, or a power-on reset. -/
def runEvent (ev : Event) (s : State) : Result :=
  match ev with
  | .host => hostStep s
  | .engine => engineStep s
  | .powerOn => .next s.powerOnReset

end Sys2Proof.Machine
end

