-- ==== Sys2Proof/Machine/Step.lean ====
section
/-! DEFINITION. One step of the machine: the next event happens. -/

namespace Sys2Proof.Machine

/-- One step: the interleaving of 20_memory.md R75, one event a step (60_exceptions.md R258). -/
def step (s : State) : Host.Outcome State Fault Refusal :=
  runEvent s.nextEvent.1 s.nextEvent.2

/-- s with the command of the nbits-bit row bits w loaded, so that the very next step runs it: the block fetches
nothing (10_state.md R27), so the word stands in the latch as an issue puts it there (30_encoding.md R101, log 8). -/
def State.withFetchWord (s : State) (nbits w : Nat) : State :=
  s.loadCommand (BitVec.ofNat 32 (w % 2 ^ nbits))

end Sys2Proof.Machine
end

