-- ==== Sys2Proof/Safety.lean ====
section
/-! DEFINITION. What the claims are stated in: the invariants of the machine (00_scope.md R7, 10_state.md R25, R33,
R34), the state after a completed command, which registers a command may write, which codes it may raise, and when
a host program stays inside the register window; and the runs of the machine with the engine's weak fairness. -/

namespace Sys2Proof.Machine

/-! ## Invariants -/

/-- The public part of a valid key (10_state.md R25). -/
structure KeyBank.PublicOk (k : KeyBank) : Prop where
  square : k.n2 = k.n * k.n
  odd    : k.n % 2 = 1
  three  : 3 ≤ k.n
  g_lt   : k.g < k.n2
  unit   : Nat.gcd k.g k.n = 1

/-- The private part of a valid key (10_state.md R25), with x = g^λ mod n2. -/
structure KeyBank.PrivateOk (k : KeyBank) : Prop where
  factors : k.p * k.q = k.n
  lambda  : k.lambda = (k.p - 1) * (k.q - 1) ∨ k.lambda = Nat.lcm (k.p - 1) (k.q - 1)
  mu_lt   : k.mu < k.n
  x_pos   : 1 ≤ k.g ^ k.lambda % k.n2
  exact   : (k.g ^ k.lambda % k.n2 - 1) % k.n = 0
  mu      : k.mu * ((k.g ^ k.lambda % k.n2 - 1) / k.n) % k.n = 1

/-- 10_state.md R25, R26: what the valid bits say of the bank, and what a bank that is not valid reads. -/
structure Block.KeyInv (b : Block) : Prop where
  pub   : b.pkValid = true → b.key.PublicOk
  priv  : b.skValid = true → b.pkValid = true ∧ b.key.PrivateOk
  empty : b.pkValid = false → b.key = KeyBank.empty
  half  : b.skValid = false → b.key.lambda = 0 ∧ b.key.mu = 0 ∧ b.key.p = 0 ∧ b.key.q = 0

/-- 00_scope.md R7: every wide register holds a value below 2^WREG. -/
structure State.WidthInv (s : State) : Prop where
  x      : ∀ r, s.blk.getX r < 2 ^ s.cfg.wreg
  n      : s.blk.key.n < 2 ^ s.cfg.wreg
  n2     : s.blk.key.n2 < 2 ^ s.cfg.wreg
  g      : s.blk.key.g < 2 ^ s.cfg.wreg
  lambda : s.blk.key.lambda < 2 ^ s.cfg.wreg
  mu     : s.blk.key.mu < 2 ^ s.cfg.wreg
  p      : s.blk.key.p < 2 ^ s.cfg.wreg
  q      : s.blk.key.q < 2 ^ s.cfg.wreg

/-- 10_state.md R33, R39, 60_exceptions.md R251: ERRCODE is 0 without ERR and one of 0x01 to 0x0B with it, and while
BUSY is 1, DONE, ERR and ERRCODE are clear. -/
structure Block.StatusInv (b : Block) : Prop where
  clear : b.err = false → b.errCode = 0
  coded : b.err = true → 1 ≤ b.errCode.toNat ∧ b.errCode.toNat ≤ 0x0B
  busy  : b.busy = true → b.done = false ∧ b.err = false

/-- 10_state.md R34: MR_ROUNDS never holds 0, and neither does its latched value. -/
def Block.RoundsInv (b : Block) : Prop :=
  b.mrRounds ≠ 0 ∧ ∀ l, b.latch = some l → l.rounds ≠ 0

/-- All of them, with legal parameters (R6, R61) and the host's variables in canonical form (log 6). -/
structure State.Inv (s : State) : Prop where
  cfg    : s.cfg.Valid
  width  : s.WidthInv
  key    : s.blk.KeyInv
  status : s.blk.StatusInv
  rounds : s.blk.RoundsInv
  vars   : varsCanonical s.host.vars = true

/-! ## The state after a completed command (30_encoding.md R104, R105) -/

/-- A command that ended without error: the given operand registers and key bank, BUSY = 0, DONE = 1, ERR = 0,
ERRCODE = 0x00, the draws taken; everything else as in s. -/
def State.done (s : State) (x : Vector Nat 16) (key : KeyBank) (pk sk : Bool) (en : Entropy) : State :=
  { s with
    blk := { s.blk with
      x := x, key := key, pkValid := pk, skValid := sk, latch := none, done := true, err := false, errCode := 0 }
    entropy := en }

/-- A command that ended without error, took the draws and wrote v to X[rd] alone. -/
def State.wrote (s : State) (en : Entropy) (rd : RegNum) (v : Nat) : State :=
  s.done (s.blk.x.set rd v) s.blk.key s.blk.pkValid s.blk.skValid en

/-- A command that ended in an error (60_exceptions.md R253): BUSY = 0, DONE = 1, ERR = 1, ERRCODE = code; everything
else as in s. -/
def State.failed (s : State) (code : BitVec 8) : State :=
  { s with blk := { s.blk with latch := none, done := true, err := true, errCode := code } }

/-- A latched word of opcode op that none of the given rows matches completes with ERR_ILLEGAL: the ERR_ILLEGAL of a
command's rule, whose rows these are (30_encoding.md R93, R103). -/
def State.OthersIllegal (s : State) (op : BitVec 8) (rows : List (Word32 × Word32)) : Prop :=
  ∀ l, s.blk.latch = some l → l.word.extractLsb' 0 8 = op → (∀ row ∈ rows, rowMatches l.word row = false) →
    engineStep s = .next (s.failed 0x01)

/-! ## Runs and weak fairness (70_reset_and_hazards.md R303) -/

/-- A run of the machine: each state is the step of the one before. -/
def IsRun (r : Nat → State) : Prop :=
  ∀ n, step (r n) = .next (r (n + 1))

/-- A completion step of the latched command is enabled (30_encoding.md R107, 70_reset_and_hazards.md R303): on the
coming draws the engine's step ends the command, under some loop budget (log 5). -/
def State.CompletionEnabled (s : State) : Prop :=
  s.blk.busy = true ∧ ∃ b t, engineStep { s with loopBudget := b } = .next t ∧ t.blk.busy = false

/-- Weak fairness of the engine, the one assumption on runs of R303: from no moment on does a completion step stay
enabled for ever while the engine never moves. It is a premise of claims about runs, not part of a step (log 13). -/
def WeaklyFair (r : Nat → State) : Prop :=
  ∀ n, (∀ m, n ≤ m → (r m).CompletionEnabled) → ∃ m, n ≤ m ∧ (r m).nextEvent.1 = .engine

end Sys2Proof.Machine

namespace Sys2Proof

/-! ## What a command may write and raise -/

/-- The operand registers a command writes (10_state.md R22). -/
def Instr.dests : Instr → List RegNum
  | .nop => []
  | .modexp rd _ _ _ => [rd]
  | .modmul rd _ _ _ => [rd]
  | .mul rd _ _ => [rd]
  | .modinv rd _ _ => [rd]
  | .gcd rd _ _ => [rd]
  | .lcm rd _ _ => [rd]
  | .carm rd _ _ => [rd]
  | .carmS rd _ _ => [rd]
  | .lfunc rd _ _ => [rd]
  | .bitlen rd _ => [rd]
  | .primetest rd _ => [rd]
  | .genprime rd _ => [rd]
  | .randbelow rd _ => [rd]
  | .randbits rd _ => [rd]
  | .keygen _ => []
  | .keygenS _ => []
  | .keyloadPk _ _ _ => []
  | .keyloadSk _ _ _ _ => []
  | .keyget rd _ => [rd]
  | .keyclr => []
  | .encrypt rd _ => [rd]
  | .encryptZkp rd _ rb => [rd, rb]
  | .encryptR rd _ _ => [rd]
  | .decrypt rd _ => [rd]

/-- The commands that write the key bank (10_state.md R24). -/
def Instr.writesBank : Instr → Bool
  | .keygen _ => true
  | .keygenS _ => true
  | .keyloadPk _ _ _ => true
  | .keyloadSk _ _ _ _ => true
  | .keyclr => true
  | _ => false

/-- The commands with a retry loop (30_encoding.md R107). -/
def Instr.loops : Instr → Bool
  | .genprime _ _ => true
  | .keygen _ => true
  | .keygenS _ => true
  | _ => false

/-- The codes a decoded command may raise: the table of 60_exceptions.md R252. -/
def Instr.codes : Instr → List (BitVec 8)
  | .nop => []
  | .modexp _ _ _ _ => [0x03]
  | .modmul _ _ _ _ => [0x03]
  | .mul _ _ _ => [0x07]
  | .modinv _ _ _ => [0x03, 0x04]
  | .gcd _ _ _ => []
  | .lcm _ _ _ => [0x07]
  | .carm _ _ _ => [0x06, 0x07]
  | .carmS _ _ _ => [0x06, 0x07]
  | .lfunc _ _ _ => [0x03, 0x05]
  | .bitlen _ _ => []
  | .primetest _ _ => []
  | .genprime _ _ => [0x06]
  | .randbelow _ _ => [0x06]
  | .randbits _ _ => [0x06]
  | .keygen _ => [0x0A, 0x0B]
  | .keygenS _ => [0x0A, 0x0B]
  | .keyloadPk _ _ _ => [0x0B]
  | .keyloadSk _ _ _ _ => [0x08, 0x0B]
  | .keyget _ _ => []
  | .keyclr => []
  | .encrypt _ _ => [0x08]
  | .encryptZkp _ _ _ => [0x02, 0x08]
  | .encryptR _ _ _ => [0x08, 0x09]
  | .decrypt _ _ => [0x05, 0x06, 0x08]

end Sys2Proof

namespace Sys2Proof.Machine

/-! ## Safe host programs -/

/-- The operation's address lies in the 64-byte window (20_memory.md R60). -/
def HostOp.inWindow : HostOp → Bool
  | .rd _ off _ => decide (off < 64)
  | .wr _ off _ => decide (off < 64)
  | .poll => true
  | .compute _ _ => true
  | .branch _ _ => true

/-- A host program whose every access is in the window: no step of it faults. -/
def State.HostSafe (s : State) : Prop :=
  ∀ op ∈ s.host.prog, op.inWindow = true

end Sys2Proof.Machine
end

