-- ==== Sys2Proof/Certificates/Slice0/Obligations.lean ====
section
/-! DEFINITION. The statements for the provers. The next states are written out by State.wrote, State.done and
State.failed of Safety.lean, which name every field that changes and keep every other field of the state: each
statement of a result is therefore the command's frame as well. -/

open Sys2Proof Sys2Proof.Machine

/-! ## Encoding (30_encoding.md) -/

/-- Decoding the word of a well-formed instruction gives it back, for every operand (R90, R91, R95). -/
def Obligations.DecodeOfEncodeIsTheInstruction : Prop :=
  ∀ i : Instr, i.wellFormed = true → decode (encode i) = some i

/-- A word decodes to well-formed instructions only, and to one whose encoding is that word: each word has one
meaning (R93, R95). -/
def Obligations.EncodeOfDecodeIsTheWord : Prop :=
  ∀ (w : Word32) (i : Instr), decode w = some i → i.wellFormed = true ∧ encode i = w

/-- R94: a word decodes exactly when a row's mask and match accept it (KEYGET's row with RA ≤ 6), to an instruction
of that row; at most one row matches any word; a latched word no row matches completes with ERR_ILLEGAL. -/
def Obligations.DecodeMatchesTheMaskMatchRows : Prop :=
  (∀ w : Word32, (decode w).isSome = true ↔ ∃ row ∈ opcodeRows, rowMatches w row = true) ∧
  (∀ (w : Word32) (i : Instr), decode w = some i → rowOf i ∈ opcodeRows ∧ rowMatches w (rowOf i) = true) ∧
  (∀ w : Word32, ∀ r₁ ∈ opcodeRows, ∀ r₂ ∈ opcodeRows, w &&& r₁.1 = r₁.2 → w &&& r₂.1 = r₂.2 → r₁ = r₂) ∧
  (∀ (s : State) (l : Latch), s.blk.latch = some l → (∀ row ∈ opcodeRows, rowMatches l.word row = false) →
    engineStep s = .next (s.failed 0x01))

/-- R96: the unassigned opcodes 0x0E, 0x0F, 0x15 to 0x1F, 0x23 to 0x2F and 0x31 to 0xFF complete with ERR_ILLEGAL. -/
def Obligations.UnassignedOpcodesCompleteIllegal : Prop :=
  ∀ (s : State) (l : Latch), s.blk.latch = some l →
    (let op := (l.word.extractLsb' 0 8).toNat
     op = 0x0E ∨ op = 0x0F ∨ (0x15 ≤ op ∧ op ≤ 0x1F) ∨ (0x23 ≤ op ∧ op ≤ 0x2F) ∨ 0x31 ≤ op) →
    engineStep s = .next (s.failed 0x01)

/-- Words of the spec's own examples decode to the instructions they stand for (R99 gives the operand order). -/
def Obligations.ExampleWordsDecodeAsWritten : Prop :=
  decode 0x00000000 = some .nop ∧ decode 0x00321101 = some (.modexp 1 1 2 3) ∧
  decode 0x00EDCF02 = some (.modmul 15 12 13 14) ∧ decode 0x00021303 = some (.mul 3 1 2) ∧
  decode 0x0030BC04 = some (.modinv 12 11 3) ∧ decode 0x01021007 = some (.carmS 0 1 2) ∧
  decode 0x0030AB08 = some (.lfunc 11 10 3) ∧ decode 0x0000120B = some (.genprime 2 1) ∧
  decode 0x01001010 = some (.keygenS 1) ∧ decode 0x00943011 = some (.keyloadPk 3 4 9) ∧
  decode 0x0021C512 = some (.keyloadSk 5 12 1 2) ∧ decode 0x00001E13 = some (.keyget 14 1) ∧
  decode 0x00021121 = some (.encryptZkp 1 1 2) ∧ decode 0x0000F030 = some (.decrypt 0 15) ∧
  decode 0x00000100 = none ∧ decode 0x00007513 = none ∧ decode 0x01001110 = none ∧ decode 0x80321001 = none

/-! ## A step -/

/-- A step is the next event: a host operation, a power-on reset, or an engine step. An engine step with a latched
word that decodes to i is exec of i, with one that does not it is ERR_ILLEGAL, and with an empty latch nothing
happens (10_state.md R39, 30_encoding.md R103, R104). Choosing the event changes the scheduler alone. The last clause
is the model's own loading of a command (log 8): the very next step runs the loaded word as issued. -/
def Obligations.StepRunsTheDecodedCommand : Prop :=
  ∀ s : State, ∃ sc : Scheduler, s.nextEvent.2 = { s with sched := sc } ∧
    (s.nextEvent.1 = .engine →
      (∀ l i, s.blk.latch = some l → decode l.word = some i → step s = exec i { s with sched := sc }) ∧
      (∀ l, s.blk.latch = some l → decode l.word = none →
        step s = .next ({ s with sched := sc }.failed 0x01)) ∧
      (s.blk.latch = none → step s = .next { s with sched := sc })) ∧
    (s.nextEvent.1 = .host → step s = hostStep { s with sched := sc }) ∧
    (s.nextEvent.1 = .powerOn → step s = .next { s with sched := sc, blk := Block.reset }) ∧
    (∀ (w : Word32) (i : Instr), decode w = some i →
      step (s.withFetchWord 32 w.toNat) = exec i { s with blk := s.blk.issue w })

/-! ## What each command does -/

/-- NOP (45_key_management.md R191) completes and changes nothing else; KEYCLR (R205) clears the bank and both valid
bits, in every state. -/
def Obligations.NopAndKeyclrComplete : Prop :=
  encode .nop = 0x00000000 ∧ encode .keyclr = 0x00000014 ∧
  ∀ s : State,
    s.OthersIllegal 0x00 [(0xFFFFFFFF, 0x00000000)] ∧ s.OthersIllegal 0x14 [(0xFFFFFFFF, 0x00000014)] ∧
    exec .nop s = .next (s.done s.blk.x s.blk.key s.blk.pkValid s.blk.skValid s.entropy) ∧
    exec .keyclr s = .next (s.done s.blk.x
      { n := 0, n2 := 0, g := 0, lambda := 0, mu := 0, p := 0, q := 0 } false false s.entropy)

/-- MODEXP (40_modexp_engine.md R121): X[rd] is a^e mod m for odd m, whatever registers coincide; a zero or even
modulus is ERR_MODULUS. -/
def Obligations.ModexpWritesThePower : Prop :=
  ∀ (rd ra rb rc : RegNum) (s : State),
    let a := s.blk.getX ra
    let e := s.blk.getX rb
    let m := s.blk.getX rc
    encode (.modexp rd ra rb rc) &&& 0xFF0000FF = 0x00000001 ∧ s.OthersIllegal 0x01 [(0xFF0000FF, 0x00000001)] ∧
    (m % 2 = 1 → exec (.modexp rd ra rb rc) s = .next (s.wrote s.entropy rd (a ^ e % m))) ∧
    (m = 0 ∨ m % 2 = 0 → exec (.modexp rd ra rb rc) s = .next (s.failed 0x03))

/-- MODMUL (40_modexp_engine.md R123): the full product is reduced; a zero or even modulus is ERR_MODULUS. -/
def Obligations.ModmulWritesTheProduct : Prop :=
  ∀ (rd ra rb rc : RegNum) (s : State),
    let m := s.blk.getX rc
    encode (.modmul rd ra rb rc) &&& 0xFF0000FF = 0x00000002 ∧ s.OthersIllegal 0x02 [(0xFF0000FF, 0x00000002)] ∧
    (m % 2 = 1 →
      exec (.modmul rd ra rb rc) s = .next (s.wrote s.entropy rd (s.blk.getX ra * s.blk.getX rb % m))) ∧
    (m = 0 ∨ m % 2 = 0 → exec (.modmul rd ra rb rc) s = .next (s.failed 0x03))

/-- MUL (40_modexp_engine.md R125): the product, or ERR_OVERFLOW from 2^WREG on. -/
def Obligations.MulWritesOrOverflows : Prop :=
  ∀ (rd ra rb : RegNum) (s : State),
    let t := s.blk.getX ra * s.blk.getX rb
    encode (.mul rd ra rb) &&& 0xFFF000FF = 0x00000003 ∧ s.OthersIllegal 0x03 [(0xFFF000FF, 0x00000003)] ∧
    (t < 2 ^ s.cfg.wreg → exec (.mul rd ra rb) s = .next (s.wrote s.entropy rd t)) ∧
    (2 ^ s.cfg.wreg ≤ t → exec (.mul rd ra rb) s = .next (s.failed 0x07))

/-- MODINV (41_inverse_unit.md R141): the y below m with a·y ≡ 1 (mod m) when a and m are coprime, else
ERR_NO_INVERSE; modulus 0 is ERR_MODULUS. -/
def Obligations.ModinvWritesTheInverse : Prop :=
  ∀ (rd ra rc : RegNum) (s : State),
    let a := s.blk.getX ra
    let m := s.blk.getX rc
    encode (.modinv rd ra rc) &&& 0xFF0F00FF = 0x00000004 ∧ s.OthersIllegal 0x04 [(0xFF0F00FF, 0x00000004)] ∧
    (m = 0 → exec (.modinv rd ra rc) s = .next (s.failed 0x03)) ∧
    (0 < m → Nat.gcd (a % m) m ≠ 1 → exec (.modinv rd ra rc) s = .next (s.failed 0x04)) ∧
    (0 < m → Nat.gcd (a % m) m = 1 →
      ∃ y, y < m ∧ a * y % m = 1 % m ∧ exec (.modinv rd ra rc) s = .next (s.wrote s.entropy rd y))

/-- GCD (41_inverse_unit.md R143) always completes: X[rd] is the common divisor that every common divisor divides,
and 0 for two zeros. -/
def Obligations.GcdWritesTheGreatestCommonDivisor : Prop :=
  ∀ (rd ra rb : RegNum) (s : State),
    let a := s.blk.getX ra
    let b := s.blk.getX rb
    encode (.gcd rd ra rb) &&& 0xFFF000FF = 0x00000005 ∧ s.OthersIllegal 0x05 [(0xFFF000FF, 0x00000005)] ∧
    ∃ d, d ∣ a ∧ d ∣ b ∧ (∀ k, k ∣ a → k ∣ b → k ∣ d) ∧ (a = 0 → b = 0 → d = 0) ∧
      exec (.gcd rd ra rb) s = .next (s.wrote s.entropy rd d)

/-- LCM (43_carmichael_lcm.md R171): 0 with a zero operand, else a·b / gcd(a, b); ERR_OVERFLOW from 2^WREG on. -/
def Obligations.LcmWritesOrOverflows : Prop :=
  ∀ (rd ra rb : RegNum) (s : State),
    let a := s.blk.getX ra
    let b := s.blk.getX rb
    let t := if a = 0 ∨ b = 0 then 0 else a * b / Nat.gcd a b
    encode (.lcm rd ra rb) &&& 0xFFF000FF = 0x00000006 ∧ s.OthersIllegal 0x06 [(0xFFF000FF, 0x00000006)] ∧
    (t < 2 ^ s.cfg.wreg → exec (.lcm rd ra rb) s = .next (s.wrote s.entropy rd t)) ∧
    (2 ^ s.cfg.wreg ≤ t → exec (.lcm rd ra rb) s = .next (s.failed 0x07))

/-- CARM and CARM.S (43_carmichael_lcm.md R173): lcm(p − 1, q − 1) and (p − 1)(q − 1); ERR_RANGE for p = 0 or q = 0,
ERR_OVERFLOW from 2^WREG on. -/
def Obligations.CarmWritesTheExponent : Prop :=
  ∀ (rd ra rb : RegNum) (s : State),
    let p := s.blk.getX ra
    let q := s.blk.getX rb
    let lam := Nat.lcm (p - 1) (q - 1)
    let phi := (p - 1) * (q - 1)
    encode (.carm rd ra rb) &&& 0xFFF000FF = 0x00000007 ∧ encode (.carmS rd ra rb) &&& 0xFFF000FF = 0x01000007 ∧
    s.OthersIllegal 0x07 [(0xFFF000FF, 0x00000007), (0xFFF000FF, 0x01000007)] ∧
    (p = 0 ∨ q = 0 → exec (.carm rd ra rb) s = .next (s.failed 0x06) ∧
      exec (.carmS rd ra rb) s = .next (s.failed 0x06)) ∧
    (0 < p → 0 < q →
      (lam < 2 ^ s.cfg.wreg → exec (.carm rd ra rb) s = .next (s.wrote s.entropy rd lam)) ∧
      (2 ^ s.cfg.wreg ≤ lam → exec (.carm rd ra rb) s = .next (s.failed 0x07)) ∧
      (phi < 2 ^ s.cfg.wreg → exec (.carmS rd ra rb) s = .next (s.wrote s.entropy rd phi)) ∧
      (2 ^ s.cfg.wreg ≤ phi → exec (.carmS rd ra rb) s = .next (s.failed 0x07)))

/-- LFUNC (44_l_function.md R181): (x − 1) / n when exact, else ERR_L_NOT_EXACT; n = 0 is ERR_MODULUS. -/
def Obligations.LfuncIsExactOrFails : Prop :=
  ∀ (rd ra rc : RegNum) (s : State),
    let x := s.blk.getX ra
    let n := s.blk.getX rc
    encode (.lfunc rd ra rc) &&& 0xFF0F00FF = 0x00000008 ∧ s.OthersIllegal 0x08 [(0xFF0F00FF, 0x00000008)] ∧
    (n = 0 → exec (.lfunc rd ra rc) s = .next (s.failed 0x03)) ∧
    (0 < n → x = 0 ∨ (x - 1) % n ≠ 0 → exec (.lfunc rd ra rc) s = .next (s.failed 0x05)) ∧
    (0 < n → ∀ k, x = 1 + k * n → exec (.lfunc rd ra rc) s = .next (s.wrote s.entropy rd k))

/-- BITLEN (42_prime_bitcount.md R151) always completes: 0 for 0, else the w with 2^(w−1) ≤ X[ra] < 2^w. -/
def Obligations.BitlenWritesTheWidth : Prop :=
  ∀ (rd ra : RegNum) (s : State),
    encode (.bitlen rd ra) &&& 0xFFFF00FF = 0x00000009 ∧ s.OthersIllegal 0x09 [(0xFFFF00FF, 0x00000009)] ∧
    ∃ w, exec (.bitlen rd ra) s = .next (s.wrote s.entropy rd w) ∧
      (s.blk.getX ra = 0 → w = 0) ∧
      (0 < s.blk.getX ra → 1 ≤ w ∧ 2 ^ (w - 1) ≤ s.blk.getX ra ∧ s.blk.getX ra < 2 ^ w)

/-- PRIMETEST (42_prime_bitcount.md R154) always completes: X[rd] is the test's answer with lat.rounds rounds, 1 or 0,
and the test's draws are taken. -/
def Obligations.PrimetestWritesTheTestResult : Prop :=
  ∀ (rd ra : RegNum) (s : State) (l : Latch), s.blk.latch = some l →
    encode (.primetest rd ra) &&& 0xFFFF00FF = 0x0000000A ∧ s.OthersIllegal 0x0A [(0xFFFF00FF, 0x0000000A)] ∧
    exec (.primetest rd ra) s = .next
      (s.wrote (millerRabin (s.blk.getX ra) l.rounds.toNat s.entropy).2 rd
        (if (millerRabin (s.blk.getX ra) l.rounds.toNat s.entropy).1 = true then 1 else 0))

/-- The test procedure (42_prime_bitcount.md R152): exact and without draws below 5 and for even c; else, with
c − 1 = 2^s · d and d odd, each round draws a base a from [2, c − 2], and passes when a^d is 1 or one of a^d, a^(2d),
…, a^(2^(s−1)·d) is c − 1 modulo c; the first failing round answers 0 with no further draw. -/
def Obligations.MillerRabinFollowsTheProcedure : Prop :=
  ∀ (c k : Nat) (en : Entropy),
    (c < 2 → millerRabin c k en = (false, en)) ∧
    (c = 2 ∨ c = 3 → millerRabin c k en = (true, en)) ∧
    (4 ≤ c → c % 2 = 0 → millerRabin c k en = (false, en)) ∧
    (∀ s d : Nat, 5 ≤ c → c % 2 = 1 → c - 1 = 2 ^ s * d → d % 2 = 1 →
      let a := draw 2 (c - 2) en
      let passes := a.1 ^ d % c = 1 ∨ ∃ j, j < s ∧ a.1 ^ (2 ^ j * d) % c = c - 1
      millerRabin c 0 en = (true, en) ∧
      (passes → millerRabin c (k + 1) en = millerRabin c k a.2) ∧
      (¬ passes → millerRabin c (k + 1) en = (false, a.2)))

/-- A prime passes the test with any number of rounds under every draw sequence (42_prime_bitcount.md R153). -/
def Obligations.PrimesPassUnderEveryDraw : Prop :=
  ∀ (c k : Nat) (en : Entropy), c.Prime → (millerRabin c k en).1 = true

/-- GENPRIME (42_prime_bitcount.md R156): ERR_RANGE for a width below 2 or above WREG; else the prime the search finds
is written; while the search has not ended within the model's loop budget (log 5) nothing but that budget changes. -/
def Obligations.GenprimeWritesThePrimeFound : Prop :=
  ∀ (rd ra : RegNum) (s : State) (l : Latch), s.blk.latch = some l →
    let w := s.blk.getX ra
    let found := genPrime s.loopBudget w l.rounds.toNat s.entropy
    encode (.genprime rd ra) &&& 0xFFFF00FF = 0x0000000B ∧ s.OthersIllegal 0x0B [(0xFFFF00FF, 0x0000000B)] ∧
    (w < 2 ∨ s.cfg.wreg < w → exec (.genprime rd ra) s = .next (s.failed 0x06)) ∧
    (2 ≤ w → w ≤ s.cfg.wreg → ∀ c en, found = some (c, en) →
      exec (.genprime rd ra) s = .next (s.wrote en rd c)) ∧
    (2 ≤ w → w ≤ s.cfg.wreg → found = none →
      exec (.genprime rd ra) s = .next { s with loopBudget := 2 * s.loopBudget + 1 })

/-- The retry loops and what they return. GenPrime (42_prime_bitcount.md R155, R156): one draw u from [0, 2^w − 1]
gives the candidate u OR 2^(w−1) OR 1, the test runs on the draws that follow, a candidate that passes is returned
and after one that fails the loop starts again on the draws then left. PrimePair (45_key_management.md R194): p, then q
on the draws p leaves, and both again while p·q has not width bl. The first numeral of each search is the budget of
log 5, which counts the iterations; with none left the search has not ended. What comes out is odd, of the exact
width, and passed the test on its draws (that it is prime is not claimed); a pair's product has width exactly bl. -/
def Obligations.SearchesFollowTheRetryLoops : Prop :=
  (∀ (w k : Nat) (en : Entropy), genPrime 0 w k en = none) ∧
  (∀ (budget w k : Nat) (en : Entropy),
    let u := draw 0 (2 ^ w - 1) en
    let c := u.1 ||| 2 ^ (w - 1) ||| 1
    let passed := millerRabin c k u.2
    (passed.1 = true → genPrime (budget + 1) w k en = some (c, passed.2)) ∧
    (passed.1 = false → genPrime (budget + 1) w k en = genPrime budget w k passed.2)) ∧
  (∀ (budget w k : Nat) (en en' : Entropy) (c : Nat), 2 ≤ w → genPrime budget w k en = some (c, en') →
    2 ^ (w - 1) ≤ c ∧ c < 2 ^ w ∧ c % 2 = 1 ∧ ∃ e, millerRabin c k e = (true, en')) ∧
  (∀ (budget bl k : Nat) (en : Entropy), primePair budget 0 bl k en = none) ∧
  (∀ (budget tries bl k : Nat) (en : Entropy), 4 ≤ bl →
    (genPrime budget (bl / 2) k en = none → primePair budget (tries + 1) bl k en = none) ∧
    (∀ p e₁, genPrime budget (bl / 2) k en = some (p, e₁) →
      (genPrime budget (bl / 2) k e₁ = none → primePair budget (tries + 1) bl k en = none) ∧
      (∀ q e₂, genPrime budget (bl / 2) k e₁ = some (q, e₂) →
        (2 ^ (bl - 1) ≤ p * q ∧ p * q < 2 ^ bl → primePair budget (tries + 1) bl k en = some ((p, q), e₂)) ∧
        (p * q < 2 ^ (bl - 1) ∨ 2 ^ bl ≤ p * q →
          primePair budget (tries + 1) bl k en = primePair budget tries bl k e₂)))) ∧
  (∀ (budget tries bl k : Nat) (en en' : Entropy) (p q : Nat), 4 ≤ bl →
    primePair budget tries bl k en = some ((p, q), en') →
    2 ^ (bl / 2 - 1) ≤ p ∧ p < 2 ^ (bl / 2) ∧ p % 2 = 1 ∧ 2 ^ (bl / 2 - 1) ≤ q ∧ q < 2 ^ (bl / 2) ∧ q % 2 = 1 ∧
    2 ^ (bl - 1) ≤ p * q ∧ p * q < 2 ^ bl ∧
    (∃ e e', millerRabin p k e = (true, e')) ∧ ∃ e, millerRabin q k e = (true, en'))

/-- The model's loop budget (log 5) changes no result: a search that has ended ends alike, with the same draws taken,
under every larger budget. -/
def Obligations.LargerBudgetSameResult : Prop :=
  (∀ (b b' w k : Nat) (en : Entropy) (r : Nat × Entropy), b ≤ b' → genPrime b w k en = some r →
    genPrime b' w k en = some r) ∧
  (∀ (b b' t t' bl k : Nat) (en : Entropy) (r : (Nat × Nat) × Entropy), b ≤ b' → t ≤ t' →
    primePair b t bl k en = some r → primePair b' t' bl k en = some r)

/-- A GENPRIME, KEYGEN or KEYGEN.S whose loop ends on the coming draws completes after finitely many engine steps.
THE STEPS THAT GO ON AND THE LOOP BUDGET ARE THE MODEL'S CHOICE (log 5): 30_encoding.md R104 and R107 know the one
completion step alone, which has all the draws, and a delay before it. Whatever budget the loop needs, k steps go on
and the next one completes: GENPRIME writes the number found; for KEYGEN and KEYGEN.S the pair found is the one that
KeygenInstallsTheFullKey and KeygenSInstallsTheSimpleKey speak of at that step, and an error-free key has it. -/
def Obligations.EndingLoopCompletes : Prop :=
  ∀ (ra : RegNum) (s : State) (l : Latch), s.blk.latch = some l →
    let w := s.blk.getX ra
    let bad := w % 2 = 1 ∨ w < 4 ∨ w < l.minBits.toNat ∨ s.cfg.keyBitsMax < w
    (∀ (rd : RegNum) (b c : Nat) (en : Entropy), 2 ≤ w → w ≤ s.cfg.wreg →
      genPrime b w l.rounds.toNat s.entropy = some (c, en) →
      ∃ k, (∀ j, j < k → exec (.genprime rd ra) (State.goOn^[j] s) = .next (State.goOn^[j + 1] s)) ∧
        exec (.genprime rd ra) (State.goOn^[k] s) = .next ((State.goOn^[k] s).wrote en rd c)) ∧
    (∀ (i : Instr) (b t p q : Nat) (en : Entropy), i = .keygen ra ∨ i = .keygenS ra → ¬ bad →
      primePair b t w l.rounds.toNat s.entropy = some ((p, q), en) →
      ∃ k u, (∀ j, j < k → exec i (State.goOn^[j] s) = .next (State.goOn^[j + 1] s)) ∧
        primePair (State.goOn^[k] s).loopBudget (State.goOn^[k] s).loopBudget w l.rounds.toNat s.entropy =
          some ((p, q), en) ∧
        exec i (State.goOn^[k] s) = .next u ∧ u.blk.latch = none ∧ u.blk.done = true ∧
        (u.blk.err = false → u.blk.key.p = p ∧ u.blk.key.q = q))

/-- RANDBELOW (42_prime_bitcount.md R158): one draw below the bound, every value possible; bound 0 is ERR_RANGE. -/
def Obligations.RandbelowDrawsBelowTheBound : Prop :=
  ∀ (rd ra : RegNum) (s : State),
    let b := s.blk.getX ra
    let d := draw 0 (b - 1) s.entropy
    encode (.randbelow rd ra) &&& 0xFFFF00FF = 0x0000000C ∧ s.OthersIllegal 0x0C [(0xFFFF00FF, 0x0000000C)] ∧
    (b = 0 → exec (.randbelow rd ra) s = .next (s.failed 0x06)) ∧
    (0 < b → d.1 < b ∧ exec (.randbelow rd ra) s = .next (s.wrote d.2 rd d.1)) ∧
    (∀ v rest, v < b → s.entropy.answers = v :: rest →
      exec (.randbelow rd ra) s = .next (s.wrote { s.entropy with answers := rest } rd v))

/-- RANDBITS (42_prime_bitcount.md R160): one draw of at most w bits, every value possible; a width above WREG is
ERR_RANGE. -/
def Obligations.RandbitsDrawsWBits : Prop :=
  ∀ (rd ra : RegNum) (s : State),
    let w := s.blk.getX ra
    let d := draw 0 (2 ^ w - 1) s.entropy
    encode (.randbits rd ra) &&& 0xFFFF00FF = 0x0000000D ∧ s.OthersIllegal 0x0D [(0xFFFF00FF, 0x0000000D)] ∧
    (s.cfg.wreg < w → exec (.randbits rd ra) s = .next (s.failed 0x06)) ∧
    (w ≤ s.cfg.wreg → d.1 < 2 ^ w ∧ exec (.randbits rd ra) s = .next (s.wrote d.2 rd d.1)) ∧
    (∀ v rest, w ≤ s.cfg.wreg → v < 2 ^ w → s.entropy.answers = v :: rest →
      exec (.randbits rd ra) s = .next (s.wrote { s.entropy with answers := rest } rd v))

/-- KEYGEN.S (45_key_management.md R192, R193 with S = 1): ERR_BITLENGTH before any draw; else from the primes the
search finds the key with g = n + 1, λ = (p − 1)(q − 1), μ = λ⁻¹ mod n is installed with both valid bits, or
ERR_CONSTRUCTION when λ has no inverse; no operand register changes. While the search has not ended only the
model's loop budget changes (log 5). -/
def Obligations.KeygenSInstallsTheSimpleKey : Prop :=
  ∀ (ra : RegNum) (s : State) (l : Latch), s.blk.latch = some l →
    let bl := s.blk.getX ra
    let bad := bl % 2 = 1 ∨ bl < 4 ∨ bl < l.minBits.toNat ∨ s.cfg.keyBitsMax < bl
    let found := primePair s.loopBudget s.loopBudget bl l.rounds.toNat s.entropy
    encode (.keygenS ra) &&& 0xFFFF0FFF = 0x01000010 ∧
    s.OthersIllegal 0x10 [(0xFFFF0FFF, 0x00000010), (0xFFFF0FFF, 0x01000010)] ∧
    (bad → exec (.keygenS ra) s = .next (s.failed 0x0A)) ∧
    (¬ bad → found = none → exec (.keygenS ra) s = .next { s with loopBudget := 2 * s.loopBudget + 1 }) ∧
    (∀ p q en, ¬ bad → found = some ((p, q), en) →
      let n := p * q
      let lam := (p - 1) * (q - 1)
      (Nat.gcd lam n ≠ 1 → exec (.keygenS ra) s = .next { s.failed 0x0B with entropy := en }) ∧
      (Nat.gcd lam n = 1 → ∃ mu, mu < n ∧ lam * mu % n = 1 ∧
        exec (.keygenS ra) s = .next (s.done s.blk.x
          { n := n, n2 := n * n, g := n + 1, lambda := lam, mu := mu, p := p, q := q } true true en)))

/-- KEYGEN (45_key_management.md R192, R193 with S = 0, R195): as KEYGEN.S with λ = lcm(p − 1, q − 1), the generator
g = ((α·n − 1) mod n2 · (β^n mod n2)) mod n2 from two draws after the primes (α·n − 1 an integer, −1 for α = 0), and
μ = L(g^λ mod n2)⁻¹ mod n; ERR_CONSTRUCTION when L is not exact or has no inverse. -/
def Obligations.KeygenInstallsTheFullKey : Prop :=
  ∀ (ra : RegNum) (s : State) (l : Latch), s.blk.latch = some l →
    let bl := s.blk.getX ra
    let bad := bl % 2 = 1 ∨ bl < 4 ∨ bl < l.minBits.toNat ∨ s.cfg.keyBitsMax < bl
    let found := primePair s.loopBudget s.loopBudget bl l.rounds.toNat s.entropy
    encode (.keygen ra) &&& 0xFFFF0FFF = 0x00000010 ∧
    s.OthersIllegal 0x10 [(0xFFFF0FFF, 0x00000010), (0xFFFF0FFF, 0x01000010)] ∧
    (bad → exec (.keygen ra) s = .next (s.failed 0x0A)) ∧
    (¬ bad → found = none → exec (.keygen ra) s = .next { s with loopBudget := 2 * s.loopBudget + 1 }) ∧
    (∀ p q en (g : Nat), ¬ bad → found = some ((p, q), en) →
      let n := p * q
      let n2 := n * n
      let alpha := draw 0 (n - 1) en
      let beta := draw 0 (n - 1) alpha.2
      let lam := Nat.lcm (p - 1) (q - 1)
      let x := g ^ lam % n2
      let lval := (x - 1) / n
      (g : Int) = ((alpha.1 : Int) * n - 1) % n2 * ((beta.1 ^ n % n2 : Nat) : Int) % n2 →
      (x = 0 ∨ (x - 1) % n ≠ 0 ∨ Nat.gcd lval n ≠ 1 →
        exec (.keygen ra) s = .next { s.failed 0x0B with entropy := beta.2 }) ∧
      (1 ≤ x → (x - 1) % n = 0 → Nat.gcd lval n = 1 → ∃ mu, mu < n ∧ lval * mu % n = 1 ∧
        exec (.keygen ra) s = .next (s.done s.blk.x
          { n := n, n2 := n2, g := g, lambda := lam, mu := mu, p := p, q := q } true true beta.2)))

/-- KEYGEN.S never raises ERR_CONSTRUCTION when the search has found primes, equal or not (45_key_management.md
R196): it completes and leaves both valid bits set. -/
def Obligations.SimpleVariantNeverFailsOnPrimes : Prop :=
  ∀ (ra : RegNum) (s : State) (p q : Nat) (en : Entropy), badBitLength s (s.blk.getX ra) = false →
    primePair s.loopBudget s.loopBudget (s.blk.getX ra) s.blk.latRounds s.entropy = some ((p, q), en) →
    p.Prime → q.Prime →
    ∃ t, exec (.keygenS ra) s = .next t ∧ t.blk.err = false ∧ t.blk.done = true ∧ t.blk.latch = none ∧
      t.blk.pkValid = true ∧ t.blk.skValid = true ∧ t.blk.key.n = p * q ∧ t.blk.key.g = p * q + 1

/-- KEYLOAD.PK (45_key_management.md R199): the public key is installed and the private part cleared when n is odd and
at least 3, n2 = n², g < n2 and gcd(g, n) = 1; else ERR_CONSTRUCTION. -/
def Obligations.KeyloadPkInstallsOrRefuses : Prop :=
  ∀ (ra rb rc : RegNum) (s : State),
    let n := s.blk.getX ra
    let n2 := s.blk.getX rb
    let g := s.blk.getX rc
    let ok := 3 ≤ n ∧ n % 2 = 1 ∧ n2 = n * n ∧ g < n2 ∧ Nat.gcd g n = 1
    encode (.keyloadPk ra rb rc) &&& 0xFF000FFF = 0x00000011 ∧ s.OthersIllegal 0x11 [(0xFF000FFF, 0x00000011)] ∧
    (ok → exec (.keyloadPk ra rb rc) s = .next (s.done s.blk.x
      { n := n, n2 := n2, g := g, lambda := 0, mu := 0, p := 0, q := 0 } true false s.entropy)) ∧
    (¬ ok → exec (.keyloadPk ra rb rc) s = .next (s.failed 0x0B))

/-- KEYLOAD.SK (45_key_management.md R201): ERR_NO_KEY without a public key; else the private part is installed when
p·q = n, λ is (p − 1)(q − 1) or lcm(p − 1, q − 1), μ < n, L(g^λ mod n2) is exact and μ·L ≡ 1 (mod n), and
ERR_CONSTRUCTION otherwise. -/
def Obligations.KeyloadSkInstallsOrRefuses : Prop :=
  ∀ (rd ra rb rc : RegNum) (s : State),
    let lam := s.blk.getX rd
    let mu := s.blk.getX ra
    let p := s.blk.getX rb
    let q := s.blk.getX rc
    let k := s.blk.key
    let x := k.g ^ lam % k.n2
    let ok := p * q = k.n ∧ (lam = (p - 1) * (q - 1) ∨ lam = Nat.lcm (p - 1) (q - 1)) ∧ mu < k.n ∧
      1 ≤ x ∧ (x - 1) % k.n = 0 ∧ mu * ((x - 1) / k.n) % k.n = 1
    encode (.keyloadSk rd ra rb rc) &&& 0xFF0000FF = 0x00000012 ∧ s.OthersIllegal 0x12 [(0xFF0000FF, 0x00000012)] ∧
    (s.blk.pkValid = false → exec (.keyloadSk rd ra rb rc) s = .next (s.failed 0x08)) ∧
    (s.blk.pkValid = true → ok → exec (.keyloadSk rd ra rb rc) s = .next (s.done s.blk.x
      { n := k.n, n2 := k.n2, g := k.g, lambda := lam, mu := mu, p := p, q := q } true true s.entropy)) ∧
    (s.blk.pkValid = true → ¬ ok → exec (.keyloadSk rd ra rb rc) s = .next (s.failed 0x0B))

/-- KEYGET (45_key_management.md R203): the field of index 0 to 6 is copied whatever the valid bits are; a KEYGET word
with index 7 to 15 is illegal. -/
def Obligations.KeygetCopiesTheField : Prop :=
  ∀ (rd : RegNum) (s : State),
    (∀ i, encode (.keyget rd i) &&& 0xFFFF00FF = 0x00000013) ∧ s.OthersIllegal 0x13 [(0xFFFF00FF, 0x00000013)] ∧
    exec (.keyget rd 0) s = .next (s.wrote s.entropy rd s.blk.key.n) ∧
    exec (.keyget rd 1) s = .next (s.wrote s.entropy rd s.blk.key.n2) ∧
    exec (.keyget rd 2) s = .next (s.wrote s.entropy rd s.blk.key.g) ∧
    exec (.keyget rd 3) s = .next (s.wrote s.entropy rd s.blk.key.lambda) ∧
    exec (.keyget rd 4) s = .next (s.wrote s.entropy rd s.blk.key.mu) ∧
    exec (.keyget rd 5) s = .next (s.wrote s.entropy rd s.blk.key.p) ∧
    exec (.keyget rd 6) s = .next (s.wrote s.entropy rd s.blk.key.q) ∧
    (∀ l, s.blk.latch = some l → l.word.extractLsb' 0 8 = 0x13 → 7 ≤ (l.word.extractLsb' 12 4).toNat →
      engineStep s = .next (s.failed 0x01))

/-- ENCRYPT (46_encryptor.md R220, R221): ERR_NO_KEY without a public key; else X[rd] is g^m · r^n mod n2 for one draw
r from [2, n − 1], every r possible. The premise 3 ≤ n is part of 10_state.md R25, which every step keeps
(StepKeepsTheKeyBankInvariant). -/
def Obligations.EncryptWritesTheCiphertext : Prop :=
  ∀ (rd ra : RegNum) (s : State),
    let k := s.blk.key
    let m := s.blk.getX ra
    let d := draw 2 (k.n - 1) s.entropy
    encode (.encrypt rd ra) &&& 0xFFFF00FF = 0x00000020 ∧ s.OthersIllegal 0x20 [(0xFFFF00FF, 0x00000020)] ∧
    (s.blk.pkValid = false → exec (.encrypt rd ra) s = .next (s.failed 0x08)) ∧
    (s.blk.pkValid = true → 3 ≤ k.n → 2 ≤ d.1 ∧ d.1 ≤ k.n - 1 ∧
      exec (.encrypt rd ra) s = .next (s.wrote d.2 rd (k.g ^ m % k.n2 * (d.1 ^ k.n % k.n2) % k.n2))) ∧
    (∀ r rest, s.blk.pkValid = true → 2 ≤ r → r ≤ k.n - 1 → s.entropy.answers = r :: rest →
      exec (.encrypt rd ra) s = .next
        (s.wrote { s.entropy with answers := rest } rd (k.g ^ m % k.n2 * (r ^ k.n % k.n2) % k.n2)))

/-- ENCRYPT.ZKP (46_encryptor.md R220, R223): ERR_OPERAND when rd = rb, whatever the bank holds; then ERR_NO_KEY; else
the ciphertext goes to X[rd] and the drawn r to X[rb] in one step. 3 ≤ n as for ENCRYPT. -/
def Obligations.EncryptZkpWritesCiphertextAndRandomness : Prop :=
  ∀ (rd ra rb : RegNum) (s : State),
    let k := s.blk.key
    let m := s.blk.getX ra
    let c := fun r : Nat => k.g ^ m % k.n2 * (r ^ k.n % k.n2) % k.n2
    let after := fun (r : Nat) (en : Entropy) =>
      s.done ((s.blk.x.set rd (c r)).set rb r) k s.blk.pkValid s.blk.skValid en
    let d := draw 2 (k.n - 1) s.entropy
    encode (.encryptZkp rd ra rb) &&& 0xFFF000FF = 0x00000021 ∧ s.OthersIllegal 0x21 [(0xFFF000FF, 0x00000021)] ∧
    (rd = rb → exec (.encryptZkp rd ra rb) s = .next (s.failed 0x02)) ∧
    (rd ≠ rb → s.blk.pkValid = false → exec (.encryptZkp rd ra rb) s = .next (s.failed 0x08)) ∧
    (rd ≠ rb → s.blk.pkValid = true → 3 ≤ k.n →
      2 ≤ d.1 ∧ d.1 ≤ k.n - 1 ∧ exec (.encryptZkp rd ra rb) s = .next (after d.1 d.2)) ∧
    (∀ r rest, rd ≠ rb → s.blk.pkValid = true → 2 ≤ r → r ≤ k.n - 1 → s.entropy.answers = r :: rest →
      exec (.encryptZkp rd ra rb) s = .next (after r { s.entropy with answers := rest }))

/-- ENCRYPT.R (46_encryptor.md R220, R225): ERR_NO_KEY first; r = 0, r ≥ n or gcd(r, n) ≠ 1 is ERR_PRECONDITION; else
X[rd] is g^m · r^n mod n2, with no draw. -/
def Obligations.EncryptRWritesTheCiphertext : Prop :=
  ∀ (rd ra rb : RegNum) (s : State),
    let k := s.blk.key
    let m := s.blk.getX ra
    let r := s.blk.getX rb
    let bad := r = 0 ∨ k.n ≤ r ∨ Nat.gcd r k.n ≠ 1
    encode (.encryptR rd ra rb) &&& 0xFFF000FF = 0x00000022 ∧ s.OthersIllegal 0x22 [(0xFFF000FF, 0x00000022)] ∧
    (s.blk.pkValid = false → exec (.encryptR rd ra rb) s = .next (s.failed 0x08)) ∧
    (s.blk.pkValid = true → bad → exec (.encryptR rd ra rb) s = .next (s.failed 0x09)) ∧
    (s.blk.pkValid = true → ¬ bad → exec (.encryptR rd ra rb) s = .next
      (s.wrote s.entropy rd (k.g ^ m % k.n2 * (r ^ k.n % k.n2) % k.n2)))

/-- DECRYPT (47_decryptor.md R240, R241): ERR_NO_KEY, then ERR_RANGE for c ≥ n2, then ERR_L_NOT_EXACT; else X[rd] is
L(c^λ mod n2) · μ mod n. -/
def Obligations.DecryptWritesThePlaintext : Prop :=
  ∀ (rd ra : RegNum) (s : State),
    let k := s.blk.key
    let c := s.blk.getX ra
    let x := c ^ k.lambda % k.n2
    encode (.decrypt rd ra) &&& 0xFFFF00FF = 0x00000030 ∧ s.OthersIllegal 0x30 [(0xFFFF00FF, 0x00000030)] ∧
    (s.blk.skValid = false → exec (.decrypt rd ra) s = .next (s.failed 0x08)) ∧
    (s.blk.skValid = true → k.n2 ≤ c → exec (.decrypt rd ra) s = .next (s.failed 0x06)) ∧
    (s.blk.skValid = true → c < k.n2 → x = 0 ∨ (x - 1) % k.n ≠ 0 →
      exec (.decrypt rd ra) s = .next (s.failed 0x05)) ∧
    (s.blk.skValid = true → c < k.n2 → 1 ≤ x → (x - 1) % k.n = 0 →
      exec (.decrypt rd ra) s = .next (s.wrote s.entropy rd ((x - 1) / k.n * k.mu % k.n)))

/-! ## What no command does -/

/-- Every command answers a next state: either it has completed (BUSY = 0, DONE = 1, and ERRCODE is 0x00 exactly
without ERR, 30_encoding.md R105), or its retry loop goes on and only the model's loop budget changes
(GENPRIME, KEYGEN, KEYGEN.S alone, R107, log 5). -/
def Obligations.EveryCommandCompletesOrGoesOn : Prop :=
  ∀ (i : Instr) (s : State), ∃ t, exec i s = .next t ∧
    ((t.blk.busy = false ∧ t.blk.done = true ∧ (t.blk.err = false ↔ t.blk.errCode = 0)) ∨
     (i.loops = true ∧ t = { s with loopBudget := 2 * s.loopBudget + 1 }))

/-- An error writes only STATUS (60_exceptions.md R253): every operand register, key field and valid bit, and
everything else outside STATUS and the entropy port, is as before; the error is one the command's row of R252 allows. -/
def Obligations.ErrorWritesOnlyStatus : Prop :=
  ∀ (i : Instr) (s t : State), i.wellFormed = true → s.blk.busy = true → exec i s = .next t → t.blk.err = true →
    t.blk.busy = false → t.blk.errCode ∈ i.codes ∧ t = { s.failed t.blk.errCode with entropy := t.entropy }

/-- A command writes no operand register but its destinations: RD, and for ENCRYPT.ZKP also RB; NOP and the KEY
commands but KEYGET write none (10_state.md R22). -/
def Obligations.OnlyDestinationRegistersChange : Prop :=
  ∀ (i : Instr) (s t : State) (r : RegNum), exec i s = .next t → r ∉ i.dests → t.blk.getX r = s.blk.getX r

/-- No command but KEYGEN, KEYGEN.S, KEYLOAD.PK, KEYLOAD.SK and KEYCLR changes the key bank or a valid bit
(10_state.md R24). -/
def Obligations.OnlyKeyCommandsChangeTheBank : Prop :=
  ∀ (i : Instr) (s t : State), exec i s = .next t → i.writesBank = false →
    t.blk.key = s.blk.key ∧ t.blk.pkValid = s.blk.pkValid ∧ t.blk.skValid = s.blk.skValid

/-- No command touches what the host owns: CTRL, MINBITS, the CMD read-back, WIN_SEL, the sticky bits CMD_OVERRUN and
ACCESS_ERR, the host program, or the parameters (10_state.md R33 to R38). -/
def Obligations.CommandsLeaveHostRegistersAlone : Prop :=
  ∀ (i : Instr) (s t : State), exec i s = .next t →
    t.blk.mrRounds = s.blk.mrRounds ∧ t.blk.irqEn = s.blk.irqEn ∧ t.blk.minBits = s.blk.minBits ∧
    t.blk.cmd = s.blk.cmd ∧ t.blk.winWord = s.blk.winWord ∧ t.blk.winReg = s.blk.winReg ∧
    t.blk.winAuto = s.blk.winAuto ∧ t.blk.cmdOverrun = s.blk.cmdOverrun ∧ t.blk.accessErr = s.blk.accessErr ∧
    t.host = s.host ∧ t.cfg = s.cfg ∧ t.sched = s.sched

/-- A running command uses the policy values latched at issue (30_encoding.md R106): whatever is written to CTRL
(MR_ROUNDS and IRQ_EN) and MINBITS meanwhile, it ends alike. -/
def Obligations.RunningCommandIgnoresPolicyWrites : Prop :=
  ∀ (i : Instr) (s t : State) (l : Latch) (r : BitVec 8) (e : Bool) (m : Word32), s.blk.latch = some l →
    exec i s = .next t →
    exec i { s with blk := { s.blk with mrRounds := r, irqEn := e, minBits := m } } =
      .next { t with blk := { t.blk with mrRounds := r, irqEn := e, minBits := m } }

/-! ## Host accesses -/

/-- A write to CMD: issue while idle (30_encoding.md R101), dropped but for CMD_OVERRUN while busy (R102). -/
def Obligations.CmdWriteIssuesOrOverruns : Prop :=
  ∀ (s : State) (v : Word32),
    (s.blk.latch = none → s.busWrite .bits32 (s.cfg.mmioBase + 0x14) v = some { s with blk := { s.blk with
      cmd := v
      latch := some { word := v, rounds := s.blk.mrRounds, minBits := s.blk.minBits }
      done := false
      err := false
      errCode := 0x00 } }) ∧
    (∀ l, s.blk.latch = some l → s.busWrite .bits32 (s.cfg.mmioBase + 0x14) v =
      some { s with blk := { s.blk with cmdOverrun := true } })

/-- STATUS (10_state.md R33): a read returns every bit at its place, reserved bits 0, and changes nothing; a write
clears each W1C bit written 1 and changes nothing else. -/
def Obligations.StatusReadsAndClears : Prop :=
  ∀ s : State,
    (∃ v, s.busRead .bits32 (s.cfg.mmioBase + 0x10) = some (v, s) ∧
      v.getLsbD 0 = s.blk.latch.isSome ∧ v.getLsbD 1 = s.blk.done ∧ v.getLsbD 2 = s.blk.err ∧
      v.getLsbD 3 = s.blk.cmdOverrun ∧ v.getLsbD 4 = s.blk.accessErr ∧ v.extractLsb' 5 3 = 0 ∧
      v.extractLsb' 8 8 = s.blk.errCode ∧ v.getLsbD 16 = s.blk.pkValid ∧ v.getLsbD 17 = s.blk.skValid ∧
      v.extractLsb' 18 14 = 0) ∧
    ∀ v : Word32, s.busWrite .bits32 (s.cfg.mmioBase + 0x10) v = some { s with blk := { s.blk with
      done := s.blk.done && !v.getLsbD 1
      cmdOverrun := s.blk.cmdOverrun && !v.getLsbD 3
      accessErr := s.blk.accessErr && !v.getLsbD 4 } }

/-- CTRL (10_state.md R34): MR_ROUNDS in 7:0, IRQ_EN in 8, the rest reads 0; a written MR_ROUNDS of 0 leaves the field
as it is; bit 31 set is a soft reset that discards the other bits (70_reset_and_hazards.md R291), while busy too. -/
def Obligations.CtrlReadsWritesAndSoftResets : Prop :=
  ∀ s : State,
    (∃ v, s.busRead .bits32 (s.cfg.mmioBase + 0x08) = some (v, s) ∧
      v.extractLsb' 0 8 = s.blk.mrRounds ∧ v.getLsbD 8 = s.blk.irqEn ∧ v.extractLsb' 9 23 = 0) ∧
    ∀ v : Word32,
      (v.getLsbD 31 = true →
        s.busWrite .bits32 (s.cfg.mmioBase + 0x08) v = some { s with blk := Block.reset }) ∧
      (v.getLsbD 31 = false → v.extractLsb' 0 8 ≠ 0 →
        s.busWrite .bits32 (s.cfg.mmioBase + 0x08) v =
          some { s with blk := { s.blk with irqEn := v.getLsbD 8, mrRounds := v.extractLsb' 0 8 } }) ∧
      (v.getLsbD 31 = false → v.extractLsb' 0 8 = 0 →
        s.busWrite .bits32 (s.cfg.mmioBase + 0x08) v = some { s with blk := { s.blk with irqEn := v.getLsbD 8 } })

/-- The other plain registers (10_state.md R31, R32, R35, R37, R38): ID and PARAM read their constants, PARAM for every
legal configuration; MINBITS and CMD read what was last accepted; WIN_SEL reads its fields, reserved bits 0;
a write to MINBITS or WIN_SEL replaces its fields; no such read changes anything. -/
def Obligations.PlainRegistersReadAndWrite : Prop :=
  ∀ (s : State) (v : Word32),
    s.busRead .bits32 (s.cfg.mmioBase + 0x00) = some (0x5041494C, s) ∧
    (s.cfg.Valid → ∃ p, s.busRead .bits32 (s.cfg.mmioBase + 0x04) = some (p, s) ∧
      (p.extractLsb' 0 16).toNat = 2 * s.cfg.keyBitsMax / 32 ∧ p.extractLsb' 16 8 = 16 ∧ p.extractLsb' 24 8 = 7) ∧
    s.busRead .bits32 (s.cfg.mmioBase + 0x0C) = some (s.blk.minBits, s) ∧
    s.busRead .bits32 (s.cfg.mmioBase + 0x14) = some (s.blk.cmd, s) ∧
    (∃ w, s.busRead .bits32 (s.cfg.mmioBase + 0x18) = some (w, s) ∧ w.extractLsb' 0 16 = s.blk.winWord ∧
      w.extractLsb' 16 5 = s.blk.winReg ∧ w.extractLsb' 21 10 = 0 ∧ w.getLsbD 31 = s.blk.winAuto) ∧
    s.busWrite .bits32 (s.cfg.mmioBase + 0x0C) v = some { s with blk := { s.blk with minBits := v } } ∧
    s.busWrite .bits32 (s.cfg.mmioBase + 0x18) v = some { s with blk := { s.blk with
      winWord := v.extractLsb' 0 16, winReg := v.extractLsb' 16 5, winAuto := v.getLsbD 31 } }

/-- An access of another width, at an offset that is no multiple of 4, or at a reserved offset 0x20 to 0x3F, and a
write to ID or PARAM, is refused (20_memory.md R63, R64): a read returns 0, and ACCESS_ERR is all that changes. -/
def Obligations.RefusedAccessSetsAccessErrOnly : Prop :=
  ∀ (s : State) (w : AccessWidth) (off : Nat) (v : Word32), off < 64 →
    (w ≠ .bits32 ∨ off % 4 ≠ 0 ∨ 0x20 ≤ off →
      s.busRead w (s.cfg.mmioBase + off) = some (0, { s with blk := { s.blk with accessErr := true } })) ∧
    (w ≠ .bits32 ∨ off % 4 ≠ 0 ∨ 0x20 ≤ off ∨ off = 0x00 ∨ off = 0x04 →
      s.busWrite w (s.cfg.mmioBase + off) v = some { s with blk := { s.blk with accessErr := true } })

/-- The window read (20_memory.md R67, R69, R70): refused while busy, for REG above 22 and for WORD from NW on; else
word WORD of the selected operand register or key-bank field, and with AUTOINC WORD advances modulo NW. -/
def Obligations.WindowReadReturnsTheWord : Prop :=
  ∀ s : State,
    let r := s.blk.winReg.toNat
    let i := s.blk.winWord.toNat
    let open_ := s.blk.latch = none ∧ i < s.cfg.nw
    let got := fun v : Nat => s.busRead .bits32 (s.cfg.mmioBase + 0x1C) =
      some (BitVec.ofNat 32 (v / 2 ^ (32 * i)), { s with blk := { s.blk with
        winWord := if s.blk.winAuto = true then BitVec.ofNat 16 ((i + 1) % s.cfg.nw) else s.blk.winWord } })
    (s.blk.latch ≠ none ∨ 22 < r ∨ s.cfg.nw ≤ i → s.busRead .bits32 (s.cfg.mmioBase + 0x1C) =
      some (0, { s with blk := { s.blk with accessErr := true } })) ∧
    (open_ → ∀ x : RegNum, x.val = r → got (s.blk.getX x)) ∧
    (open_ → r = 16 → got s.blk.key.n) ∧ (open_ → r = 17 → got s.blk.key.n2) ∧ (open_ → r = 18 → got s.blk.key.g) ∧
    (open_ → r = 19 → got s.blk.key.lambda) ∧ (open_ → r = 20 → got s.blk.key.mu) ∧
    (open_ → r = 21 → got s.blk.key.p) ∧ (open_ → r = 22 → got s.blk.key.q)

/-- The window write (20_memory.md R68, R69, R70): refused while busy, for REG above 15 (key-bank fields among them)
and for WORD from NW on; else word WORD of X[REG] is replaced, X − X[32i+31:32i]·2^(32i) + u·2^(32i), and with
AUTOINC WORD advances modulo NW. -/
def Obligations.WindowWriteReplacesTheWord : Prop :=
  ∀ (s : State) (u : Word32),
    let r := s.blk.winReg.toNat
    let i := s.blk.winWord.toNat
    (s.blk.latch ≠ none ∨ 15 < r ∨ s.cfg.nw ≤ i → s.busWrite .bits32 (s.cfg.mmioBase + 0x1C) u =
      some { s with blk := { s.blk with accessErr := true } }) ∧
    (s.blk.latch = none → i < s.cfg.nw → ∀ x : RegNum, x.val = r →
      s.busWrite .bits32 (s.cfg.mmioBase + 0x1C) u = some { s with blk := { s.blk with
        x := s.blk.x.set x (s.blk.getX x - s.blk.getX x / 2 ^ (32 * i) % 2 ^ 32 * 2 ^ (32 * i) + u.toNat * 2 ^ (32 * i))
        winWord := if s.blk.winAuto = true then BitVec.ofNat 16 ((i + 1) % s.cfg.nw) else s.blk.winWord } })

/-- Word order (20_memory.md R66): after word i is replaced by u it reads u, every other word reads as before, and a
register of nw words stays within nw words. -/
def Obligations.ReplacedWordReadsBackOthersKept : Prop :=
  ∀ (v i nw : Nat) (u : Word32),
    wordOf (replaceWord v i u) i = u ∧
    (∀ j, j ≠ i → wordOf (replaceWord v i u) j = wordOf v j) ∧
    (i < nw → v < 2 ^ (32 * nw) → replaceWord v i u < 2 ^ (32 * nw))

/-- No host operation reaches the key bank, its valid bits or a latched command but by a reset, and while a command
runs none changes an operand register (10_state.md R24, 20_memory.md R70, R75): the command's operands at completion
are those at its issue. -/
def Obligations.HostCannotDisturbKeyOrRunningCommand : Prop :=
  ∀ s t : State, hostStep s = .next t → t.blk = Block.reset ∨
    (t.blk.key = s.blk.key ∧ t.blk.pkValid = s.blk.pkValid ∧ t.blk.skValid = s.blk.skValid ∧
      (s.blk.busy = true → t.blk.x = s.blk.x ∧ t.blk.latch = s.blk.latch))

/-- Reset (70_reset_and_hazards.md R290, R292; 10_state.md R42): the values of every piece of the block's state; a
latched command is dropped, no completion step for it happens and none of its draws is taken; the host program,
which the block does not reset, is as before. -/
def Obligations.ResetStateAndAbort : Prop :=
  ∀ s : State,
    s.powerOnReset = { s with blk := {
      x := Vector.replicate 16 0
      key := { n := 0, n2 := 0, g := 0, lambda := 0, mu := 0, p := 0, q := 0 }
      pkValid := false, skValid := false, done := false, err := false, cmdOverrun := false, accessErr := false
      errCode := 0x00, mrRounds := 64, irqEn := false, minBits := 512, cmd := 0
      winWord := 0, winReg := 0, winAuto := false, latch := none } } ∧
    s.powerOnReset.blk.irq = false ∧ (∀ r, s.powerOnReset.blk.getX r = 0) ∧
    engineStep s.powerOnReset = .next s.powerOnReset ∧
    (∀ v : Word32, v.getLsbD 31 = true →
      s.busWrite .bits32 (s.cfg.mmioBase + 0x08) v = some s.powerOnReset)

/-- The interrupt output (60_exceptions.md R256): irq = IRQ_EN ∧ DONE. At a completion, of success and error alike (an
illegal word's among them), it is IRQ_EN; writing IRQ_EN = 1 while DONE is 1 raises it at once; it is low after the host writes 1 to DONE, after an
issue, after IRQ_EN is written 0, and after reset. -/
def Obligations.InterruptFollowsDoneAndEnable : Prop :=
  ∀ (s : State),
    (s.blk.irq = true ↔ s.blk.irqEn = true ∧ s.blk.done = true) ∧
    (∀ i t, s.blk.busy = true → exec i s = .next t → t.blk.busy = false → t.blk.irq = s.blk.irqEn) ∧
    (∀ t, s.blk.busy = true → engineStep s = .next t → t.blk.busy = false → t.blk.irq = s.blk.irqEn) ∧
    (∀ l, s.blk.latch = some l → decode l.word = none → ∃ t, engineStep s = .next t ∧ t.blk.errCode = 0x01 ∧
      t.blk.irq = s.blk.irqEn) ∧
    (∀ v t, v.getLsbD 8 = true → v.getLsbD 31 = false → s.busWrite .bits32 (s.cfg.mmioBase + 0x08) v = some t →
      t.blk.irq = s.blk.done) ∧
    (∀ v t, v.getLsbD 1 = true → s.busWrite .bits32 (s.cfg.mmioBase + 0x10) v = some t → t.blk.irq = false) ∧
    (∀ v t, s.blk.busy = false → s.busWrite .bits32 (s.cfg.mmioBase + 0x14) v = some t → t.blk.irq = false) ∧
    (∀ v t, v.getLsbD 8 = false → s.busWrite .bits32 (s.cfg.mmioBase + 0x08) v = some t → t.blk.irq = false) ∧
    s.powerOnReset.blk.irq = false

/-- The host program (10_state.md R27, 20_memory.md R60): RD and WR are one access each and then pc + 1, an address
outside the window stops the run (log 9); POLL stays, changing nothing, while BUSY is 1 and goes on when it is 0;
computation binds its variable and a branch sets pc when taken, both by the model's own expressions (log 6); after the
end of the program the host does nothing (log 7). -/
def Obligations.HostOperationsMoveThePc : Prop :=
  ∀ s : State,
    (∀ w off dst, s.host.prog[s.host.pc]? = some (.rd w off dst) →
      (∀ v t, s.busRead w (s.cfg.mmioBase + off) = some (v, t) → hostStep s = .next { t with host :=
        { s.host with pc := s.host.pc + 1, vars := varSet s.host.vars dst v.toNat } }) ∧
      (64 ≤ off → hostStep s = .fault .outsideWindow)) ∧
    (∀ w off e, s.host.prog[s.host.pc]? = some (.wr w off e) →
      (∀ t, s.busWrite w (s.cfg.mmioBase + off) (BitVec.ofNat 32 (e.eval s.host.vars)) = some t →
        hostStep s = .next { t with host := { s.host with pc := s.host.pc + 1 } }) ∧
      (64 ≤ off → hostStep s = .fault .outsideWindow)) ∧
    (s.host.prog[s.host.pc]? = some .poll →
      (s.blk.latch ≠ none → hostStep s = .next s) ∧
      (s.blk.latch = none → hostStep s = .next { s with host := { s.host with pc := s.host.pc + 1 } })) ∧
    (∀ c target, s.host.prog[s.host.pc]? = some (.branch c target) →
      hostStep s = .next { s with host := { s.host with
        pc := if c.eval s.host.vars = 0 then s.host.pc + 1 else target } }) ∧
    (∀ dst e, s.host.prog[s.host.pc]? = some (.compute dst e) →
      hostStep s = .next { s with host := { s.host with
        pc := s.host.pc + 1, vars := varSet s.host.vars dst (e.eval s.host.vars) } }) ∧
    (s.host.prog[s.host.pc]? = none → hostStep s = .next s)

/-- A machine whose host program stays in the window never stops: every step answers a next state, of the same kind
(60_exceptions.md R253: an error never stops the block). -/
def Obligations.WindowProgramsNeverStop : Prop :=
  ∀ s : State, s.HostSafe → ∃ t, step s = .next t ∧ t.HostSafe

/-! ## Invariants -/

/-- Every legal configuration is in the invariant right after reset (70_reset_and_hazards.md R290; the parameters are
those of log 1, the empty host program that of log 8). -/
def Obligations.InvariantHoldsAtReset : Prop :=
  ∀ c : Config, c.Valid → (State.resetWith c).Inv

/-- Every step keeps the key-bank invariants of 10_state.md R25 (which the spec derives from R24, R193, R199 and R201)
and R26: whatever the host does and whatever is drawn,
a bank whose valid bits are set holds a whole, consistent key. -/
def Obligations.StepKeepsTheKeyBankInvariant : Prop :=
  ∀ s t : State, s.blk.KeyInv → step s = .next t → t.blk.KeyInv

/-- Every step keeps the whole invariant: legal parameters, every wide register below 2^WREG (00_scope.md R7, R9: no
result is truncated or too wide), the key bank, the relation of BUSY, DONE, ERR and
ERRCODE (10_state.md R33, 60_exceptions.md R251), MR_ROUNDS and its latched value not 0 (R34), host variables
canonical (log 6). -/
def Obligations.StepKeepsTheWholeInvariant : Prop :=
  ∀ s t : State, s.Inv → step s = .next t → t.Inv

/-! ## The cryptosystem -/

/-- Round trip (47_decryptor.md R242; 95_test_vectors.md S3): with a valid key of distinct primes, ENCRYPT.R of m < n
with a unit r, then DECRYPT, gives m. The key premises are 10_state.md R25, kept by every step. -/
def Obligations.DecryptInvertsEncrypt : Prop :=
  ∀ (s t : State) (rc ra rb rd : RegNum), s.blk.pkValid = true → s.blk.skValid = true →
    s.blk.key.PublicOk → s.blk.key.PrivateOk → s.blk.key.p.Prime → s.blk.key.q.Prime → s.blk.key.p ≠ s.blk.key.q →
    s.blk.getX ra < s.blk.key.n → 0 < s.blk.getX rb → s.blk.getX rb < s.blk.key.n →
    Nat.gcd (s.blk.getX rb) s.blk.key.n = 1 → exec (.encryptR rc ra rb) s = .next t →
    exec (.decrypt rd rc) t = .next (t.wrote t.entropy rd (s.blk.getX ra))

/-- Homomorphic laws (40_modexp_engine.md R124; 95_test_vectors.md S4, S5): with a valid key of distinct primes, and
ciphertexts g^m·r^n mod n2 of units r, MODMUL modulo n2 decrypts to the sum and MODEXP to the multiple of the
plaintexts modulo n. -/
def Obligations.CiphertextsAddAndScale : Prop :=
  ∀ (s t : State) (rd ra rb rc ro : RegNum) (m₁ m₂ r₁ r₂ : Nat),
    let k := s.blk.key
    let enc := fun m r : Nat => k.g ^ m % k.n2 * (r ^ k.n % k.n2) % k.n2
    s.blk.skValid = true → k.PublicOk → k.PrivateOk → k.p.Prime → k.q.Prime → k.p ≠ k.q →
    Nat.gcd r₁ k.n = 1 → s.blk.getX ra = enc m₁ r₁ → s.blk.getX rc = k.n2 →
    (Nat.gcd r₂ k.n = 1 → s.blk.getX rb = enc m₂ r₂ → exec (.modmul rd ra rb rc) s = .next t →
      exec (.decrypt ro rd) t = .next (t.wrote t.entropy ro ((m₁ + m₂) % k.n))) ∧
    (exec (.modexp rd ra rb rc) s = .next t →
      exec (.decrypt ro rd) t = .next (t.wrote t.entropy ro (s.blk.getX rb * m₁ % k.n)))

/-! ## Fair runs (70_reset_and_hazards.md R303) -/

/-- When a completion step is enabled, and what the engine's weak fairness gives (R303, 30_encoding.md R107). A latched
word that is illegal, of a command without a loop, or refused for its width or bit length has a completion step on any
draws; GENPRIME, KEYGEN and KEYGEN.S have one exactly when the coming draws end their loop. In a weakly fair run a
command whose completion step is enabled stays latched until it completes in an engine step, or a reset drops it. The
loop budget is log 5's; that fairness is a premise, and not part of a step, is log 13. -/
def Obligations.FairRunsCompleteEnabledCommands : Prop :=
  (∀ (s : State) (l : Latch), s.blk.latch = some l →
    (decode l.word = none → s.CompletionEnabled) ∧
    (∀ i, decode l.word = some i → i.loops = false → s.CompletionEnabled) ∧
    (∀ rd ra, decode l.word = some (.genprime rd ra) →
      let w := s.blk.getX ra
      (w < 2 ∨ s.cfg.wreg < w → s.CompletionEnabled) ∧
      (2 ≤ w → w ≤ s.cfg.wreg →
        (s.CompletionEnabled ↔ ∃ b c en, genPrime b w l.rounds.toNat s.entropy = some (c, en)))) ∧
    (∀ ra i, i = .keygen ra ∨ i = .keygenS ra → decode l.word = some i →
      let bl := s.blk.getX ra
      let bad := bl % 2 = 1 ∨ bl < 4 ∨ bl < l.minBits.toNat ∨ s.cfg.keyBitsMax < bl
      (bad → s.CompletionEnabled) ∧
      (¬ bad → (s.CompletionEnabled ↔
        ∃ b t p q en, primePair b t bl l.rounds.toNat s.entropy = some ((p, q), en))))) ∧
  (∀ r : Nat → State, IsRun r → WeaklyFair r → ∀ n, (r n).CompletionEnabled →
    ∃ m, n ≤ m ∧ (∀ j, n ≤ j → j ≤ m → (r j).blk.latch = (r n).blk.latch) ∧ (r (m + 1)).blk.latch = none ∧
      (((r m).nextEvent.1 = .engine ∧ (r (m + 1)).blk.done = true) ∨ (r (m + 1)).blk = Block.reset))
end

