-- ==== Sys2Proof/Laws/Arith.lean ====
section
/-! SUPPORT. The helper functions of Machine/Arith.lean are the functions of 00_scope.md R10. -/

namespace Sys2Proof.Machine

@[simp] theorem bitWidth_zero : bitWidth 0 = 0 := rfl

/-- bitWidth(x) for x > 0 is the w with 2^(w−1) ≤ x < 2^w (R10). -/
theorem bitWidth_eq_iff {x w : Nat} (hw : 1 ≤ w) : bitWidth x = w ↔ 2 ^ (w - 1) ≤ x ∧ x < 2 ^ w := by
  obtain ⟨w, rfl⟩ : ∃ k, w = k + 1 := ⟨w - 1, by omega⟩
  rcases Nat.eq_zero_or_pos x with rfl | hx
  · simp [bitWidth]
  · have hx' : x ≠ 0 := by omega
    simp only [bitWidth, hx', if_false, Nat.add_sub_cancel]
    rw [Nat.add_right_cancel_iff, Nat.log2_eq_iff hx']

theorem lt_two_pow_bitWidth (x : Nat) : x < 2 ^ bitWidth x := by
  rcases Nat.eq_zero_or_pos x with rfl | hx
  · simp
  · have h : 1 ≤ bitWidth x := by simp [bitWidth, Nat.ne_of_gt hx]
    exact ((bitWidth_eq_iff h).1 rfl).2

theorem powmodBits_eq (m : Nat) : ∀ fuel a e, e < 2 ^ fuel → powmodBits fuel a e m = a ^ e % m
  | 0, a, e, h => by
    have : e = 0 := by simpa using h
    simp [powmodBits, this]
  | fuel + 1, a, e, h => by
    have hlt : e / 2 < 2 ^ fuel := by rw [pow_succ] at h; omega
    have ih := powmodBits_eq m fuel (a * a % m) (e / 2) hlt
    have hsq : (a * a % m) ^ (e / 2) % m = a ^ (2 * (e / 2)) % m := by
      rw [← Nat.pow_mod, pow_mul, pow_two]
    rw [powmodBits]
    split_ifs with h0 h1
    · simp [h0]
    · rw [ih, hsq, Nat.mul_mod_mod, ← pow_succ', show 2 * (e / 2) + 1 = e by omega]
    · rw [ih, hsq, show 2 * (e / 2) = e by omega]

/-- powmod(a, e, m) = (a^e) mod m (R10). -/
theorem powmod_eq (a e m : Nat) : powmod a e m = a ^ e % m := by
  rw [powmod, powmodBits_eq m _ _ _ (lt_two_pow_bitWidth e), ← Nat.pow_mod]

theorem powmod_lt (a e : Nat) {m : Nat} (hm : 0 < m) : powmod a e m < m := by
  rw [powmod_eq]; exact Nat.mod_lt _ hm

/-- Euclid's steps keep t0·a ≡ r0 and t1·a ≡ r1 and end at the inverse when the gcd is 1. -/
theorem invSteps_spec (a m : Nat) (hm : 0 < m) : ∀ fuel r0 t0 r1 t1, r1 ≤ fuel → Nat.gcd r0 r1 = 1 → t0 < m →
    t1 < m ∨ fuel = 0 → t0 * a ≡ r0 [MOD m] → t1 * a ≡ r1 [MOD m] →
    invSteps fuel r0 t0 r1 t1 m < m ∧ invSteps fuel r0 t0 r1 t1 m * a ≡ 1 [MOD m]
  | 0, r0, t0, r1, t1, hf, hg, ht0, _, h0, _ => by
    obtain rfl : r1 = 0 := by omega
    rw [Nat.gcd_zero_right] at hg
    exact ⟨ht0, hg ▸ h0⟩
  | fuel + 1, r0, t0, r1, t1, hf, hg, ht0, ht1, h0, h1 => by
    have ht1 : t1 < m := by simpa using ht1
    rw [invSteps]
    split_ifs with hz
    · subst hz
      rw [Nat.gcd_zero_right] at hg
      exact ⟨ht0, hg ▸ h0⟩
    · have hpos : 0 < r1 := Nat.pos_of_ne_zero hz
      have hlt := Nat.mod_lt r0 hpos
      refine invSteps_spec a m hm fuel r1 t1 (r0 % r1) _ (by omega) ?_ ht1 (.inl (Nat.mod_lt _ hm)) h1 ?_
      · rw [Nat.gcd_comm r1, ← Nat.gcd_rec, Nat.gcd_comm]; exact hg
      · have hsub : r0 / r1 * t1 % m ≤ m := (Nat.mod_lt _ hm).le
        have key : (t0 + (m - r0 / r1 * t1 % m)) * a + r0 / r1 * t1 * a ≡ r0 [MOD m] := by
          calc (t0 + (m - r0 / r1 * t1 % m)) * a + r0 / r1 * t1 * a
              ≡ (t0 + (m - r0 / r1 * t1 % m)) * a + (r0 / r1 * t1 % m) * a [MOD m] :=
                Nat.ModEq.add_left _ ((Nat.mod_modEq _ _).symm.mul_right a)
            _ = t0 * a + m * a := by rw [← add_mul, add_assoc, Nat.sub_add_cancel hsub, add_mul]
            _ ≡ r0 + 0 [MOD m] := h0.add (by simp [Nat.ModEq])
            _ = r0 := by simp
        have step : r0 / r1 * t1 * a ≡ r0 / r1 * r1 [MOD m] := by
          rw [mul_assoc]; exact h1.mul_left _
        have hdiv : r0 = r0 % r1 + r0 / r1 * r1 := by rw [mul_comm]; exact (Nat.mod_add_div r0 r1).symm
        have : ((t0 + (m - r0 / r1 * t1 % m)) % m) * a + r0 / r1 * r1 ≡ r0 % r1 + r0 / r1 * r1 [MOD m] := by
          rw [← hdiv]
          exact (((Nat.mod_modEq _ _).mul_right a).add step.symm).trans key
        exact Nat.ModEq.add_right_cancel' _ this

/-- invmod(a, m) is the inverse: below m, and a·invmod(a, m) ≡ 1 (R10). -/
theorem invmod_spec {a m : Nat} (hm : 0 < m) (hg : Nat.gcd (a % m) m = 1) :
    invmod a m < m ∧ a * invmod a m % m = 1 % m := by
  have h := invSteps_spec (a % m) m hm m m 0 (a % m) (1 % m) (Nat.mod_lt _ hm).le
    (by rw [Nat.gcd_comm]; exact hg) hm (.inl (Nat.mod_lt _ hm)) (by simp [Nat.ModEq])
    (by simp [Nat.ModEq])
  refine ⟨h.1, ?_⟩
  have := h.2
  unfold Nat.ModEq at this
  rw [mul_comm, ← this]
  simp [invmod, Nat.mul_mod]

theorem lExact_iff (x n : Nat) : lExact x n = true ↔ 1 ≤ x ∧ (x - 1) % n = 0 := by
  simp [lExact, Nat.one_le_iff_ne_zero]

end Sys2Proof.Machine
end

