-- ==== Sys2Proof/Laws/State.lean ====
section
/-! SUPPORT. One lemma per field per update of the state, true by rfl, so that no later proof unfolds a record update;
and reading an operand register after writing one. -/

namespace Sys2Proof.Machine

/-! ## Block updates -/

@[simp] theorem Block.setX_x (b : Block) (r : RegNum) (v : Nat) : (b.setX r v).x = b.x.set r v := rfl
@[simp] theorem Block.setX_key (b : Block) (r : RegNum) (v : Nat) : (b.setX r v).key = b.key := rfl
@[simp] theorem Block.setX_pkValid (b : Block) (r : RegNum) (v : Nat) : (b.setX r v).pkValid = b.pkValid := rfl
@[simp] theorem Block.setX_skValid (b : Block) (r : RegNum) (v : Nat) : (b.setX r v).skValid = b.skValid := rfl
@[simp] theorem Block.setX_done (b : Block) (r : RegNum) (v : Nat) : (b.setX r v).done = b.done := rfl
@[simp] theorem Block.setX_err (b : Block) (r : RegNum) (v : Nat) : (b.setX r v).err = b.err := rfl
@[simp] theorem Block.setX_cmdOverrun (b : Block) (r : RegNum) (v : Nat) : (b.setX r v).cmdOverrun = b.cmdOverrun := rfl
@[simp] theorem Block.setX_accessErr (b : Block) (r : RegNum) (v : Nat) : (b.setX r v).accessErr = b.accessErr := rfl
@[simp] theorem Block.setX_errCode (b : Block) (r : RegNum) (v : Nat) : (b.setX r v).errCode = b.errCode := rfl
@[simp] theorem Block.setX_mrRounds (b : Block) (r : RegNum) (v : Nat) : (b.setX r v).mrRounds = b.mrRounds := rfl
@[simp] theorem Block.setX_irqEn (b : Block) (r : RegNum) (v : Nat) : (b.setX r v).irqEn = b.irqEn := rfl
@[simp] theorem Block.setX_minBits (b : Block) (r : RegNum) (v : Nat) : (b.setX r v).minBits = b.minBits := rfl
@[simp] theorem Block.setX_cmd (b : Block) (r : RegNum) (v : Nat) : (b.setX r v).cmd = b.cmd := rfl
@[simp] theorem Block.setX_winWord (b : Block) (r : RegNum) (v : Nat) : (b.setX r v).winWord = b.winWord := rfl
@[simp] theorem Block.setX_winReg (b : Block) (r : RegNum) (v : Nat) : (b.setX r v).winReg = b.winReg := rfl
@[simp] theorem Block.setX_winAuto (b : Block) (r : RegNum) (v : Nat) : (b.setX r v).winAuto = b.winAuto := rfl
@[simp] theorem Block.setX_latch (b : Block) (r : RegNum) (v : Nat) : (b.setX r v).latch = b.latch := rfl

@[simp] theorem Block.installKey_x (b : Block) (k : KeyBank) : (b.installKey k).x = b.x := rfl
@[simp] theorem Block.installKey_key (b : Block) (k : KeyBank) : (b.installKey k).key = k := rfl
@[simp] theorem Block.installKey_pkValid (b : Block) (k : KeyBank) : (b.installKey k).pkValid = true := rfl
@[simp] theorem Block.installKey_skValid (b : Block) (k : KeyBank) : (b.installKey k).skValid = true := rfl
@[simp] theorem Block.installKey_done (b : Block) (k : KeyBank) : (b.installKey k).done = b.done := rfl
@[simp] theorem Block.installKey_err (b : Block) (k : KeyBank) : (b.installKey k).err = b.err := rfl
@[simp] theorem Block.installKey_cmdOverrun (b : Block) (k : KeyBank) : (b.installKey k).cmdOverrun = b.cmdOverrun := rfl
@[simp] theorem Block.installKey_accessErr (b : Block) (k : KeyBank) : (b.installKey k).accessErr = b.accessErr := rfl
@[simp] theorem Block.installKey_errCode (b : Block) (k : KeyBank) : (b.installKey k).errCode = b.errCode := rfl
@[simp] theorem Block.installKey_mrRounds (b : Block) (k : KeyBank) : (b.installKey k).mrRounds = b.mrRounds := rfl
@[simp] theorem Block.installKey_irqEn (b : Block) (k : KeyBank) : (b.installKey k).irqEn = b.irqEn := rfl
@[simp] theorem Block.installKey_minBits (b : Block) (k : KeyBank) : (b.installKey k).minBits = b.minBits := rfl
@[simp] theorem Block.installKey_cmd (b : Block) (k : KeyBank) : (b.installKey k).cmd = b.cmd := rfl
@[simp] theorem Block.installKey_winWord (b : Block) (k : KeyBank) : (b.installKey k).winWord = b.winWord := rfl
@[simp] theorem Block.installKey_winReg (b : Block) (k : KeyBank) : (b.installKey k).winReg = b.winReg := rfl
@[simp] theorem Block.installKey_winAuto (b : Block) (k : KeyBank) : (b.installKey k).winAuto = b.winAuto := rfl
@[simp] theorem Block.installKey_latch (b : Block) (k : KeyBank) : (b.installKey k).latch = b.latch := rfl

@[simp] theorem Block.complete_x (b : Block) (e : Bool) (c : BitVec 8) : (b.complete e c).x = b.x := rfl
@[simp] theorem Block.complete_key (b : Block) (e : Bool) (c : BitVec 8) : (b.complete e c).key = b.key := rfl
@[simp] theorem Block.complete_pkValid (b : Block) (e : Bool) (c : BitVec 8) : (b.complete e c).pkValid = b.pkValid := rfl
@[simp] theorem Block.complete_skValid (b : Block) (e : Bool) (c : BitVec 8) : (b.complete e c).skValid = b.skValid := rfl
@[simp] theorem Block.complete_done (b : Block) (e : Bool) (c : BitVec 8) : (b.complete e c).done = true := rfl
@[simp] theorem Block.complete_err (b : Block) (e : Bool) (c : BitVec 8) : (b.complete e c).err = e := rfl
@[simp] theorem Block.complete_cmdOverrun (b : Block) (e : Bool) (c : BitVec 8) : (b.complete e c).cmdOverrun = b.cmdOverrun := rfl
@[simp] theorem Block.complete_accessErr (b : Block) (e : Bool) (c : BitVec 8) : (b.complete e c).accessErr = b.accessErr := rfl
@[simp] theorem Block.complete_errCode (b : Block) (e : Bool) (c : BitVec 8) : (b.complete e c).errCode = c := rfl
@[simp] theorem Block.complete_mrRounds (b : Block) (e : Bool) (c : BitVec 8) : (b.complete e c).mrRounds = b.mrRounds := rfl
@[simp] theorem Block.complete_irqEn (b : Block) (e : Bool) (c : BitVec 8) : (b.complete e c).irqEn = b.irqEn := rfl
@[simp] theorem Block.complete_minBits (b : Block) (e : Bool) (c : BitVec 8) : (b.complete e c).minBits = b.minBits := rfl
@[simp] theorem Block.complete_cmd (b : Block) (e : Bool) (c : BitVec 8) : (b.complete e c).cmd = b.cmd := rfl
@[simp] theorem Block.complete_winWord (b : Block) (e : Bool) (c : BitVec 8) : (b.complete e c).winWord = b.winWord := rfl
@[simp] theorem Block.complete_winReg (b : Block) (e : Bool) (c : BitVec 8) : (b.complete e c).winReg = b.winReg := rfl
@[simp] theorem Block.complete_winAuto (b : Block) (e : Bool) (c : BitVec 8) : (b.complete e c).winAuto = b.winAuto := rfl
@[simp] theorem Block.complete_latch (b : Block) (e : Bool) (c : BitVec 8) : (b.complete e c).latch = none := rfl

@[simp] theorem Block.issue_x (b : Block) (v : Word32) : (b.issue v).x = b.x := rfl
@[simp] theorem Block.issue_key (b : Block) (v : Word32) : (b.issue v).key = b.key := rfl
@[simp] theorem Block.issue_pkValid (b : Block) (v : Word32) : (b.issue v).pkValid = b.pkValid := rfl
@[simp] theorem Block.issue_skValid (b : Block) (v : Word32) : (b.issue v).skValid = b.skValid := rfl
@[simp] theorem Block.issue_done (b : Block) (v : Word32) : (b.issue v).done = false := rfl
@[simp] theorem Block.issue_err (b : Block) (v : Word32) : (b.issue v).err = false := rfl
@[simp] theorem Block.issue_cmdOverrun (b : Block) (v : Word32) : (b.issue v).cmdOverrun = b.cmdOverrun := rfl
@[simp] theorem Block.issue_accessErr (b : Block) (v : Word32) : (b.issue v).accessErr = b.accessErr := rfl
@[simp] theorem Block.issue_errCode (b : Block) (v : Word32) : (b.issue v).errCode = 0x00 := rfl
@[simp] theorem Block.issue_mrRounds (b : Block) (v : Word32) : (b.issue v).mrRounds = b.mrRounds := rfl
@[simp] theorem Block.issue_irqEn (b : Block) (v : Word32) : (b.issue v).irqEn = b.irqEn := rfl
@[simp] theorem Block.issue_minBits (b : Block) (v : Word32) : (b.issue v).minBits = b.minBits := rfl
@[simp] theorem Block.issue_cmd (b : Block) (v : Word32) : (b.issue v).cmd = v := rfl
@[simp] theorem Block.issue_winWord (b : Block) (v : Word32) : (b.issue v).winWord = b.winWord := rfl
@[simp] theorem Block.issue_winReg (b : Block) (v : Word32) : (b.issue v).winReg = b.winReg := rfl
@[simp] theorem Block.issue_winAuto (b : Block) (v : Word32) : (b.issue v).winAuto = b.winAuto := rfl
@[simp] theorem Block.issue_latch (b : Block) (v : Word32) : (b.issue v).latch = some { word := v, rounds := b.mrRounds, minBits := b.minBits } := rfl

@[simp] theorem Block.refuseAccess_x (b : Block) : (b.refuseAccess).x = b.x := rfl
@[simp] theorem Block.refuseAccess_key (b : Block) : (b.refuseAccess).key = b.key := rfl
@[simp] theorem Block.refuseAccess_pkValid (b : Block) : (b.refuseAccess).pkValid = b.pkValid := rfl
@[simp] theorem Block.refuseAccess_skValid (b : Block) : (b.refuseAccess).skValid = b.skValid := rfl
@[simp] theorem Block.refuseAccess_done (b : Block) : (b.refuseAccess).done = b.done := rfl
@[simp] theorem Block.refuseAccess_err (b : Block) : (b.refuseAccess).err = b.err := rfl
@[simp] theorem Block.refuseAccess_cmdOverrun (b : Block) : (b.refuseAccess).cmdOverrun = b.cmdOverrun := rfl
@[simp] theorem Block.refuseAccess_accessErr (b : Block) : (b.refuseAccess).accessErr = true := rfl
@[simp] theorem Block.refuseAccess_errCode (b : Block) : (b.refuseAccess).errCode = b.errCode := rfl
@[simp] theorem Block.refuseAccess_mrRounds (b : Block) : (b.refuseAccess).mrRounds = b.mrRounds := rfl
@[simp] theorem Block.refuseAccess_irqEn (b : Block) : (b.refuseAccess).irqEn = b.irqEn := rfl
@[simp] theorem Block.refuseAccess_minBits (b : Block) : (b.refuseAccess).minBits = b.minBits := rfl
@[simp] theorem Block.refuseAccess_cmd (b : Block) : (b.refuseAccess).cmd = b.cmd := rfl
@[simp] theorem Block.refuseAccess_winWord (b : Block) : (b.refuseAccess).winWord = b.winWord := rfl
@[simp] theorem Block.refuseAccess_winReg (b : Block) : (b.refuseAccess).winReg = b.winReg := rfl
@[simp] theorem Block.refuseAccess_winAuto (b : Block) : (b.refuseAccess).winAuto = b.winAuto := rfl
@[simp] theorem Block.refuseAccess_latch (b : Block) : (b.refuseAccess).latch = b.latch := rfl

@[simp] theorem Block.writeStatus_x (b : Block) (v : Word32) : (b.writeStatus v).x = b.x := rfl
@[simp] theorem Block.writeStatus_key (b : Block) (v : Word32) : (b.writeStatus v).key = b.key := rfl
@[simp] theorem Block.writeStatus_pkValid (b : Block) (v : Word32) : (b.writeStatus v).pkValid = b.pkValid := rfl
@[simp] theorem Block.writeStatus_skValid (b : Block) (v : Word32) : (b.writeStatus v).skValid = b.skValid := rfl
@[simp] theorem Block.writeStatus_done (b : Block) (v : Word32) : (b.writeStatus v).done = (b.done && !v.getLsbD 1) := rfl
@[simp] theorem Block.writeStatus_err (b : Block) (v : Word32) : (b.writeStatus v).err = b.err := rfl
@[simp] theorem Block.writeStatus_cmdOverrun (b : Block) (v : Word32) : (b.writeStatus v).cmdOverrun = (b.cmdOverrun && !v.getLsbD 3) := rfl
@[simp] theorem Block.writeStatus_accessErr (b : Block) (v : Word32) : (b.writeStatus v).accessErr = (b.accessErr && !v.getLsbD 4) := rfl
@[simp] theorem Block.writeStatus_errCode (b : Block) (v : Word32) : (b.writeStatus v).errCode = b.errCode := rfl
@[simp] theorem Block.writeStatus_mrRounds (b : Block) (v : Word32) : (b.writeStatus v).mrRounds = b.mrRounds := rfl
@[simp] theorem Block.writeStatus_irqEn (b : Block) (v : Word32) : (b.writeStatus v).irqEn = b.irqEn := rfl
@[simp] theorem Block.writeStatus_minBits (b : Block) (v : Word32) : (b.writeStatus v).minBits = b.minBits := rfl
@[simp] theorem Block.writeStatus_cmd (b : Block) (v : Word32) : (b.writeStatus v).cmd = b.cmd := rfl
@[simp] theorem Block.writeStatus_winWord (b : Block) (v : Word32) : (b.writeStatus v).winWord = b.winWord := rfl
@[simp] theorem Block.writeStatus_winReg (b : Block) (v : Word32) : (b.writeStatus v).winReg = b.winReg := rfl
@[simp] theorem Block.writeStatus_winAuto (b : Block) (v : Word32) : (b.writeStatus v).winAuto = b.winAuto := rfl
@[simp] theorem Block.writeStatus_latch (b : Block) (v : Word32) : (b.writeStatus v).latch = b.latch := rfl

@[simp] theorem Block.writeWinSel_x (b : Block) (v : Word32) : (b.writeWinSel v).x = b.x := rfl
@[simp] theorem Block.writeWinSel_key (b : Block) (v : Word32) : (b.writeWinSel v).key = b.key := rfl
@[simp] theorem Block.writeWinSel_pkValid (b : Block) (v : Word32) : (b.writeWinSel v).pkValid = b.pkValid := rfl
@[simp] theorem Block.writeWinSel_skValid (b : Block) (v : Word32) : (b.writeWinSel v).skValid = b.skValid := rfl
@[simp] theorem Block.writeWinSel_done (b : Block) (v : Word32) : (b.writeWinSel v).done = b.done := rfl
@[simp] theorem Block.writeWinSel_err (b : Block) (v : Word32) : (b.writeWinSel v).err = b.err := rfl
@[simp] theorem Block.writeWinSel_cmdOverrun (b : Block) (v : Word32) : (b.writeWinSel v).cmdOverrun = b.cmdOverrun := rfl
@[simp] theorem Block.writeWinSel_accessErr (b : Block) (v : Word32) : (b.writeWinSel v).accessErr = b.accessErr := rfl
@[simp] theorem Block.writeWinSel_errCode (b : Block) (v : Word32) : (b.writeWinSel v).errCode = b.errCode := rfl
@[simp] theorem Block.writeWinSel_mrRounds (b : Block) (v : Word32) : (b.writeWinSel v).mrRounds = b.mrRounds := rfl
@[simp] theorem Block.writeWinSel_irqEn (b : Block) (v : Word32) : (b.writeWinSel v).irqEn = b.irqEn := rfl
@[simp] theorem Block.writeWinSel_minBits (b : Block) (v : Word32) : (b.writeWinSel v).minBits = b.minBits := rfl
@[simp] theorem Block.writeWinSel_cmd (b : Block) (v : Word32) : (b.writeWinSel v).cmd = b.cmd := rfl
@[simp] theorem Block.writeWinSel_winWord (b : Block) (v : Word32) : (b.writeWinSel v).winWord = v.extractLsb' 0 16 := rfl
@[simp] theorem Block.writeWinSel_winReg (b : Block) (v : Word32) : (b.writeWinSel v).winReg = v.extractLsb' 16 5 := rfl
@[simp] theorem Block.writeWinSel_winAuto (b : Block) (v : Word32) : (b.writeWinSel v).winAuto = v.getLsbD 31 := rfl
@[simp] theorem Block.writeWinSel_latch (b : Block) (v : Word32) : (b.writeWinSel v).latch = b.latch := rfl

/-! ## Operand registers -/

@[simp] theorem Block.getX_setX_same (b : Block) (r : RegNum) (v : Nat) : (b.setX r v).getX r = v := by
  simp [Block.getX]

theorem Block.getX_setX_ne (b : Block) {r r' : RegNum} (h : r' ≠ r) (v : Nat) : (b.setX r v).getX r' = b.getX r' := by
  have : (r : Nat) ≠ r' := fun e => h (Fin.ext e.symm)
  simp [Block.getX, this]

@[simp] theorem Block.getX_installKey (b : Block) (k : KeyBank) (r : RegNum) : (b.installKey k).getX r = b.getX r := rfl
@[simp] theorem Block.getX_complete (b : Block) (e : Bool) (c : BitVec 8) (r : RegNum) :
    (b.complete e c).getX r = b.getX r := rfl
@[simp] theorem Block.getX_reset (r : RegNum) : Block.reset.getX r = 0 := by
  simp [Block.getX, Block.reset]

/-! ## State updates -/

@[simp] theorem State.commit_cfg (s : State) (b : Block) : (s.commit b).cfg = s.cfg := rfl
@[simp] theorem State.commit_blk (s : State) (b : Block) : (s.commit b).blk = b.complete false 0x00 := rfl
@[simp] theorem State.commit_host (s : State) (b : Block) : (s.commit b).host = s.host := rfl
@[simp] theorem State.commit_entropy (s : State) (b : Block) : (s.commit b).entropy = s.entropy := rfl
@[simp] theorem State.commit_sched (s : State) (b : Block) : (s.commit b).sched = s.sched := rfl
@[simp] theorem State.commit_loopBudget (s : State) (b : Block) : (s.commit b).loopBudget = s.loopBudget := rfl

@[simp] theorem State.raiseError_cfg (s : State) (e : ErrCode) : (s.raiseError e).cfg = s.cfg := rfl
@[simp] theorem State.raiseError_blk (s : State) (e : ErrCode) : (s.raiseError e).blk = s.blk.complete true e.code := rfl
@[simp] theorem State.raiseError_host (s : State) (e : ErrCode) : (s.raiseError e).host = s.host := rfl
@[simp] theorem State.raiseError_entropy (s : State) (e : ErrCode) : (s.raiseError e).entropy = s.entropy := rfl
@[simp] theorem State.raiseError_sched (s : State) (e : ErrCode) : (s.raiseError e).sched = s.sched := rfl
@[simp] theorem State.raiseError_loopBudget (s : State) (e : ErrCode) : (s.raiseError e).loopBudget = s.loopBudget := rfl

@[simp] theorem State.goOn_cfg (s : State) : (s.goOn).cfg = s.cfg := rfl
@[simp] theorem State.goOn_blk (s : State) : (s.goOn).blk = s.blk := rfl
@[simp] theorem State.goOn_host (s : State) : (s.goOn).host = s.host := rfl
@[simp] theorem State.goOn_entropy (s : State) : (s.goOn).entropy = s.entropy := rfl
@[simp] theorem State.goOn_sched (s : State) : (s.goOn).sched = s.sched := rfl
@[simp] theorem State.goOn_loopBudget (s : State) : (s.goOn).loopBudget = 2 * s.loopBudget + 1 := rfl

@[simp] theorem State.powerOnReset_cfg (s : State) : (s.powerOnReset).cfg = s.cfg := rfl
@[simp] theorem State.powerOnReset_blk (s : State) : (s.powerOnReset).blk = Block.reset := rfl
@[simp] theorem State.powerOnReset_host (s : State) : (s.powerOnReset).host = s.host := rfl
@[simp] theorem State.powerOnReset_entropy (s : State) : (s.powerOnReset).entropy = s.entropy := rfl
@[simp] theorem State.powerOnReset_sched (s : State) : (s.powerOnReset).sched = s.sched := rfl
@[simp] theorem State.powerOnReset_loopBudget (s : State) : (s.powerOnReset).loopBudget = s.loopBudget := rfl

@[simp] theorem State.finish_ok (s : State) (b : Block) : s.finish (.ok b) = s.commit b := rfl
@[simp] theorem State.finish_error (s : State) (e : ErrCode) : s.finish (.error e) = s.raiseError e := rfl
@[simp] theorem State.finishDrawn_cfg (s : State) (e : Entropy) (r : CmdResult) : (s.finishDrawn e r).cfg = s.cfg := by
  cases r <;> rfl
@[simp] theorem State.finishDrawn_blk (s : State) (e : Entropy) (r : CmdResult) :
    (s.finishDrawn e r).blk = (s.finish r).blk := rfl
@[simp] theorem State.finishDrawn_entropy (s : State) (e : Entropy) (r : CmdResult) :
    (s.finishDrawn e r).entropy = e := rfl
@[simp] theorem State.finishDrawn_host (s : State) (e : Entropy) (r : CmdResult) :
    (s.finishDrawn e r).host = s.host := by
  cases r <;> rfl
@[simp] theorem State.finishDrawn_sched (s : State) (e : Entropy) (r : CmdResult) :
    (s.finishDrawn e r).sched = s.sched := by
  cases r <;> rfl
@[simp] theorem State.finishDrawn_loopBudget (s : State) (e : Entropy) (r : CmdResult) :
    (s.finishDrawn e r).loopBudget = s.loopBudget := by
  cases r <;> rfl

/-- Raising an error gives the state of 60_exceptions.md R253. -/
theorem State.raiseError_eq_failed (s : State) (e : ErrCode) : s.raiseError e = s.failed e.code := rfl

/-- Committing a block that differs from s's in one operand register. -/
theorem State.commit_setX (s : State) (r : RegNum) (v : Nat) : s.commit (s.blk.setX r v) = s.wrote s.entropy r v := rfl

/-- The same for a command that has taken draws. -/
theorem State.finishDrawn_setX (s : State) (e : Entropy) (r : RegNum) (v : Nat) :
    s.finishDrawn e (.ok (s.blk.setX r v)) = s.wrote e r v := rfl

end Sys2Proof.Machine
end

