-- ==== Sys2Proof/Laws/Ops.lean ====
section
/-! SUPPORT. What each shared operation of Machine/Ops.lean can do, said once: draws, issue and writes to CMD, the
completion of a command, and the choice of the next event. -/

namespace Sys2Proof.Machine

/-! ## Draws (00_scope.md R9) -/

theorem fitDraw_mem {lo hi : Nat} (h : lo ≤ hi) (v : Nat) : lo ≤ fitDraw lo hi v ∧ fitDraw lo hi v ≤ hi := by
  unfold fitDraw
  split_ifs with hv
  · exact hv
  · have := Nat.mod_lt v (show 0 < hi - lo + 1 by omega)
    omega

theorem fitDraw_of_mem {lo hi v : Nat} (h₁ : lo ≤ v) (h₂ : v ≤ hi) : fitDraw lo hi v = v := by
  simp [fitDraw, h₁, h₂]

/-- Every draw is in its range. -/
theorem draw_mem {lo hi : Nat} (h : lo ≤ hi) (e : Entropy) : lo ≤ (draw lo hi e).1 ∧ (draw lo hi e).1 ≤ hi := by
  unfold draw
  split
  · exact fitDraw_mem h _
  · exact fitDraw_mem h _

/-- An answer that the environment has fixed, in range, is the value drawn, and is consumed. -/
theorem draw_fixed {lo hi v : Nat} (h₁ : lo ≤ v) (h₂ : v ≤ hi) (rest : List Nat) (ix : Nat) :
    draw lo hi { answers := v :: rest, ix := ix } = (v, { answers := rest, ix := ix }) := by
  simp [draw, fitDraw_of_mem h₁ h₂]

/-! ## Issue (30_encoding.md R101, R102, R106) -/

@[simp] theorem Block.busy_issue (b : Block) (v : Word32) : (b.issue v).busy = true := rfl
@[simp] theorem Block.busy_complete (b : Block) (e : Bool) (c : BitVec 8) : (b.complete e c).busy = false := rfl
@[simp] theorem Block.busy_reset : Block.reset.busy = false := rfl

theorem Block.busy_iff (b : Block) : b.busy = true ↔ ∃ l, b.latch = some l := by
  simp [Block.busy, Option.isSome_iff_exists]

@[simp] theorem Block.latRounds_some {b : Block} {l : Latch} (h : b.latch = some l) : b.latRounds = l.rounds.toNat := by
  simp [Block.latRounds, h]

@[simp] theorem Block.latMinBits_some {b : Block} {l : Latch} (h : b.latch = some l) :
    b.latMinBits = l.minBits.toNat := by
  simp [Block.latMinBits, h]

theorem Block.writeCmd_busy {b : Block} (h : b.busy = true) (v : Word32) :
    b.writeCmd v = { b with cmdOverrun := true } := by
  simp [Block.writeCmd, h]

theorem Block.writeCmd_idle {b : Block} (h : b.busy = false) (v : Word32) : b.writeCmd v = b.issue v := by
  simp [Block.writeCmd, h]

/-! ## Completion (30_encoding.md R104, R105) -/

@[simp] theorem State.finishDrawn_self (s : State) (c : CmdResult) : s.finishDrawn s.entropy c = s.finish c := by
  cases c <;> rfl

/-- The block writes of a command that commits: only its destination registers and, for the key commands, the bank
with its valid bits differ (10_state.md R22, R24). -/
structure Commits (i : Instr) (b b' : Block) : Prop where
  only : b' = { b with x := b'.x, key := b'.key, pkValid := b'.pkValid, skValid := b'.skValid }
  regs : ∀ r, r ∉ i.dests → b'.getX r = b.getX r
  bank : i.writesBank = false → b'.key = b.key ∧ b'.pkValid = b.pkValid ∧ b'.skValid = b.skValid

/-- A command's pseudocode ends in a legal set of writes or in one of its codes (60_exceptions.md R252). -/
def EndsWell (i : Instr) (b : Block) : CmdResult → Prop
  | .ok b' => Commits i b b'
  | .error e => e.code ∈ i.codes ∨ (i.wellFormed = false ∧ e = .illegal)

/-- What a meaning answers: the command ends, or its retry loop goes on. -/
def Ends (i : Instr) (s : State) (r : Result) : Prop :=
  (i.loops = true ∧ r = .next s.goOn) ∨ ∃ en c, r = .next (s.finishDrawn en c) ∧ EndsWell i s.blk c

theorem Commits.setX {i : Instr} {b : Block} {rd : RegNum} (h : rd ∈ i.dests) (v : Nat) : Commits i b (b.setX rd v) where
  only := rfl
  regs r hr := Block.getX_setX_ne b (by rintro rfl; exact hr h) v
  bank _ := ⟨rfl, rfl, rfl⟩

theorem endsWell_setX {i : Instr} {b : Block} {rd : RegNum} (h : rd ∈ i.dests) (v : Nat) :
    EndsWell i b (.ok (b.setX rd v)) :=
  Commits.setX h v

theorem endsWell_error {i : Instr} {b : Block} {e : ErrCode} (h : e.code ∈ i.codes) : EndsWell i b (.error e) :=
  .inl h

theorem ends_finish {i : Instr} {s : State} {c : CmdResult} (h : EndsWell i s.blk c) : Ends i s (.next (s.finish c)) :=
  .inr ⟨s.entropy, c, by simp, h⟩

theorem ends_drawn {i : Instr} {s : State} {c : CmdResult} (en : Entropy) (h : EndsWell i s.blk c) :
    Ends i s (.next (s.finishDrawn en c)) :=
  .inr ⟨en, c, rfl, h⟩

theorem ends_raise {i : Instr} {s : State} {e : ErrCode} (h : e.code ∈ i.codes) : Ends i s (.next (s.raiseError e)) :=
  ends_finish (c := .error e) (endsWell_error h)

/-- Steps that go on change the model's loop budget alone, and it grows with each (log 5). -/
theorem State.goOn_iterate (s : State) : ∀ j, ∃ b, j ≤ b ∧ State.goOn^[j] s = { s with loopBudget := b }
  | 0 => ⟨s.loopBudget, Nat.zero_le _, rfl⟩
  | j + 1 => by
    obtain ⟨b, hb, h⟩ := s.goOn_iterate j
    exact ⟨2 * b + 1, by omega, by rw [Function.iterate_succ_apply', h]; rfl⟩

/-! ## Events (20_memory.md R75) -/

/-- Choosing the next event touches the scheduler alone. -/
theorem State.nextEvent_frame (s : State) : ∃ sc, s.nextEvent.2 = { s with sched := sc } := by
  unfold State.nextEvent
  split
  · exact ⟨_, rfl⟩
  · exact ⟨_, rfl⟩

theorem State.nextEvent_fixed {s : State} {ev : Event} {rest : List Event} (h : s.sched.events = ev :: rest) :
    s.nextEvent = (ev, { s with sched := { s.sched with events := rest } }) := by
  simp [State.nextEvent, h]

end Sys2Proof.Machine
end

