-- ==== Sys2Proof/Laws/Bus.lean ====
section
/-! SUPPORT. What a host access can do to the block, said once, and the laws of the host's variables. -/

namespace Sys2Proof.Machine

/-! ## Which accesses are accepted (20_memory.md R63, R64) -/

/-- An access of another width than 32 bits, at an offset that is no multiple of 4, or from 0x20 on, is refused. -/
theorem accessed_eq_none {w : AccessWidth} {off : Nat} (h : w ≠ .bits32 ∨ off % 4 ≠ 0 ∨ 0x20 ≤ off) :
    accessed w off = none := by
  unfold accessed
  split_ifs with hw
  · rfl
  · split <;> simp_all

/-- Every 32-bit access at a multiple of 4 below 0x20 reaches a register. -/
theorem accessed_isSome {off : Nat} (h4 : off % 4 = 0) (h : off < 0x20) : (accessed .bits32 off).isSome = true := by
  obtain ⟨k, rfl⟩ : ∃ k, off = 4 * k := ⟨off / 4, by omega⟩
  have : k < 8 := by omega
  interval_cases k <;> rfl

theorem windowOffset_add (c : Config) {off : Nat} (h : off < 64) : windowOffset c (c.mmioBase + off) = some off := by
  simp [windowOffset, h]

theorem windowOffset_outside (c : Config) {off : Nat} (h : 64 ≤ off) : windowOffset c (c.mmioBase + off) = none := by
  simp [windowOffset]; omega

/-- A read in the window is a read of the block's register at that offset. -/
theorem State.busRead_add (s : State) (w : AccessWidth) {off : Nat} (h : off < 64) :
    s.busRead w (s.cfg.mmioBase + off) =
      some ((s.blk.readReg s.cfg w off).1, { s with blk := (s.blk.readReg s.cfg w off).2 }) := by
  simp [State.busRead, windowOffset_add _ h]

/-- A write in the window is a write of the block's register at that offset. -/
theorem State.busWrite_add (s : State) (w : AccessWidth) (v : Word32) {off : Nat} (h : off < 64) :
    s.busWrite w (s.cfg.mmioBase + off) v = some { s with blk := s.blk.writeReg s.cfg w off v } := by
  simp [State.busWrite, windowOffset_add _ h]

/-! ## What an access can do -/

/-- WORD alone may change in an accepted window access (R69). -/
theorem Block.advanceWord_frame (c : Config) (b : Block) : ∃ w, b.advanceWord c = { b with winWord := w } := by
  unfold Block.advanceWord
  split_ifs
  · exact ⟨_, rfl⟩
  · exact ⟨b.winWord, rfl⟩

/-- A read changes nothing but ACCESS_ERR (when refused) or WORD (an accepted window read) (R71). -/
theorem Block.readReg_frame (c : Config) (b : Block) (w : AccessWidth) (off : Nat) :
    (b.readReg c w off).2 = b ∨ (b.readReg c w off).2 = b.refuseAccess ∨
      ∃ word, (b.readReg c w off).2 = { b with winWord := word } := by
  unfold Block.readReg
  split
  case h_9 =>
    unfold Block.readWindow
    split_ifs
    · exact .inr (.inl rfl)
    · split
      · exact .inr (.inr (Block.advanceWord_frame c b))
      · exact .inr (.inl rfl)
  case h_1 => exact .inr (.inl rfl)
  all_goals exact .inl rfl

/-- What a write to the window can do to the block, one case per register (R62 to R64, R68, R71). -/
theorem Block.writeReg_cases (c : Config) (b : Block) (w : AccessWidth) (off : Nat) (v : Word32) :
    b.writeReg c w off v = b.refuseAccess ∨ b.writeReg c w off v = b.writeCtrl v ∨
      b.writeReg c w off v = { b with minBits := v } ∨ b.writeReg c w off v = b.writeStatus v ∨
      b.writeReg c w off v = b.writeCmd v ∨ b.writeReg c w off v = b.writeWinSel v ∨
      (b.busy = false ∧ b.winWord.toNat < c.nw ∧ ∃ r : RegNum, r.val = b.winReg.toNat ∧
        b.writeReg c w off v = (b.setX r (replaceWord (b.getX r) b.winWord.toNat v)).advanceWord c) := by
  unfold Block.writeReg
  split
  case h_9 =>
    unfold Block.writeWindow
    split_ifs with hr hb
    · exact .inl rfl
    · rw [not_or, Bool.not_eq_true, not_le] at hb
      exact .inr (.inr (.inr (.inr (.inr (.inr ⟨hb.1, hb.2, ⟨_, hr⟩, rfl, rfl⟩)))))
    · exact .inl rfl
  all_goals simp

/-- A write to CTRL is a soft reset or changes IRQ_EN and MR_ROUNDS, never to 0 (10_state.md R34). -/
theorem Block.writeCtrl_cases (b : Block) (v : Word32) :
    b.writeCtrl v = Block.reset ∨ ∃ e k, (k = b.mrRounds ∨ k ≠ 0) ∧ b.writeCtrl v = { b with irqEn := e, mrRounds := k } := by
  unfold Block.writeCtrl
  split_ifs with h h0
  · exact .inl rfl
  · exact .inr ⟨_, _, .inl rfl, rfl⟩
  · exact .inr ⟨_, _, .inr h0, rfl⟩

theorem Block.writeCmd_cases (b : Block) (v : Word32) :
    b.writeCmd v = { b with cmdOverrun := true } ∨ (b.busy = false ∧ b.writeCmd v = b.issue v) := by
  cases h : b.busy
  · exact .inr ⟨rfl, Block.writeCmd_idle h v⟩
  · exact .inl (Block.writeCmd_busy h v)

/-! ## Words of wide registers (20_memory.md R66) -/

theorem wordOf_toNat (v i : Nat) : (wordOf v i).toNat = v / 2 ^ (32 * i) % 2 ^ 32 := by
  simp [wordOf]

/-! ## Host variables (log 6) -/

theorem varsCanonical_tail {c : Nat × Nat} {l : List (Nat × Nat)} (h : varsCanonical (c :: l) = true) :
    varsCanonical l = true := by
  cases l with
  | nil => rfl
  | cons d r => simp only [varsCanonical, Bool.and_eq_true] at h; exact h.2

/-- A list is canonical when its head is not 0 and lies below every later number. -/
theorem varsCanonical_cons {c : Nat × Nat} : ∀ {l : List (Nat × Nat)}, varsCanonical l = true →
    c.2 ≠ 0 → (∀ d ∈ l, c.1 < d.1) → varsCanonical (c :: l) = true
  | [], _, h2, _ => by simpa [varsCanonical] using h2
  | d :: r, h, h2, h3 => by
    simp only [varsCanonical, Bool.and_eq_true, bne_iff_ne, decide_eq_true_eq]
    exact ⟨⟨h2, h3 d (by simp)⟩, h⟩

theorem varsCanonical_lt {c : Nat × Nat} : ∀ {l : List (Nat × Nat)}, varsCanonical (c :: l) = true →
    c.2 ≠ 0 ∧ ∀ d ∈ l, c.1 < d.1
  | [], h => by simpa [varsCanonical] using h
  | d :: r, h => by
    simp only [varsCanonical, Bool.and_eq_true, bne_iff_ne, decide_eq_true_eq] at h
    refine ⟨h.1.1, fun e he => ?_⟩
    rcases List.mem_cons.1 he with rfl | he
    · exact h.1.2
    · exact h.1.2.trans ((varsCanonical_lt h.2).2 e he)

/-- A number listed after a binding is the bound one or was listed before. -/
theorem varSet_keys {x v : Nat} : ∀ {l : List (Nat × Nat)} {d : Nat × Nat}, d ∈ varSet l x v → d.1 = x ∨ d ∈ l
  | [], d, h => by
    unfold varSet at h
    split_ifs at h <;> simp_all
  | c :: r, d, h => by
    unfold varSet at h
    split_ifs at h
    · exact .inr h
    · rcases List.mem_cons.1 h with rfl | h
      · exact .inl rfl
      · exact .inr h
    · exact .inr (List.mem_cons_of_mem _ h)
    · rcases List.mem_cons.1 h with rfl | h
      · exact .inl rfl
      · exact .inr (List.mem_cons_of_mem _ h)
    · rcases List.mem_cons.1 h with rfl | h
      · exact .inr (by simp)
      · exact (varSet_keys h).imp_right (List.mem_cons_of_mem _)

/-- Binding a variable keeps the canonical form. -/
theorem varSet_canonical {x v : Nat} : ∀ {l : List (Nat × Nat)}, varsCanonical l = true →
    varsCanonical (varSet l x v) = true
  | [], _ => by
    unfold varSet
    split_ifs with hv
    · rfl
    · simpa [varsCanonical] using hv
  | c :: r, h => by
    have ht := varsCanonical_tail h
    obtain ⟨hc, hlt⟩ := varsCanonical_lt h
    unfold varSet
    split_ifs with h1 hv h2 hv
    · exact h
    · refine varsCanonical_cons h hv fun d hd => ?_
      rcases List.mem_cons.1 hd with rfl | hd
      · exact h1
      · exact h1.trans (hlt d hd)
    · exact ht
    · exact varsCanonical_cons ht hv fun d hd => h2 ▸ hlt d hd
    · refine varsCanonical_cons (varSet_canonical ht) hc fun d hd => ?_
      rcases varSet_keys hd with he | hd
      · omega
      · exact hlt d hd

theorem varGet_eq_zero {z : Nat} : ∀ {l : List (Nat × Nat)}, (∀ d ∈ l, z < d.1) → varGet l z = 0
  | [], _ => rfl
  | e :: t, hl => by
    have := hl e (by simp)
    rw [varGet, if_neg (by omega)]
    exact varGet_eq_zero fun d hd => hl d (by simp [hd])

/-- Reading a bound variable gives the value bound, and no other variable changes. -/
theorem varGet_varSet {x v y : Nat} : ∀ {l : List (Nat × Nat)}, varsCanonical l = true →
    varGet (varSet l x v) y = if y = x then v else varGet l y
  | [], _ => by
    unfold varSet
    split_ifs with hv hy hy
    · simp [varGet, hv]
    · simp [varGet]
    · simp [varGet, hy]
    · simp [varGet, Ne.symm hy]
  | c :: r, h => by
    have ht := varsCanonical_tail h
    obtain ⟨hc, hlt⟩ := varsCanonical_lt h
    have ih := varGet_varSet (x := x) (v := v) (y := y) ht
    unfold varSet
    split_ifs with h1 hv hy hy h2 hv hy hy hy
    · subst hy
      rw [hv, varGet, if_neg (by omega)]
      exact varGet_eq_zero fun d hd => h1.trans (hlt d hd)
    · rfl
    · simp [varGet, hy]
    · rw [varGet, if_neg (Ne.symm hy)]
    · subst hy
      rw [hv]
      exact varGet_eq_zero fun d hd => h2 ▸ hlt d hd
    · rw [varGet, if_neg (by omega)]
    · simp [varGet, hy]
    · rw [varGet, varGet, if_neg (Ne.symm hy), if_neg (by omega)]
    · rw [varGet, if_neg (by omega), ih, if_pos hy]
    · rw [varGet, varGet, ih, if_neg hy]

end Sys2Proof.Machine
end

