-- ==== Sys2Proof/Laws/PerInstr.lean ====
section
/-! SUPPORT. Per-instruction families: FieldsRoundTrip, the fields of every well-formed instruction decode to it. -/

namespace Sys2Proof.Laws.FieldsRoundTrip

/-- Decoding the fields of a well-formed instruction gives it back (30_encoding.md R90, R95). -/
def Statement (i : Instr) : Prop :=
  i.wellFormed = true → decodeFields (encodeFields i) = some i

theorem nop : Statement .nop := fun _ => rfl

theorem modexp (rd ra rb rc : RegNum) : Statement (.modexp rd ra rb rc) := fun _ => rfl

theorem modmul (rd ra rb rc : RegNum) : Statement (.modmul rd ra rb rc) := fun _ => rfl

theorem mul (rd ra rb : RegNum) : Statement (.mul rd ra rb) := fun _ => rfl

theorem modinv (rd ra rc : RegNum) : Statement (.modinv rd ra rc) := fun _ => rfl

theorem gcd (rd ra rb : RegNum) : Statement (.gcd rd ra rb) := fun _ => rfl

theorem lcm (rd ra rb : RegNum) : Statement (.lcm rd ra rb) := fun _ => rfl

theorem carm (rd ra rb : RegNum) : Statement (.carm rd ra rb) := fun _ => rfl

theorem carmS (rd ra rb : RegNum) : Statement (.carmS rd ra rb) := fun _ => rfl

theorem lfunc (rd ra rc : RegNum) : Statement (.lfunc rd ra rc) := fun _ => rfl

theorem bitlen (rd ra : RegNum) : Statement (.bitlen rd ra) := fun _ => rfl

theorem primetest (rd ra : RegNum) : Statement (.primetest rd ra) := fun _ => rfl

theorem genprime (rd ra : RegNum) : Statement (.genprime rd ra) := fun _ => rfl

theorem randbelow (rd ra : RegNum) : Statement (.randbelow rd ra) := fun _ => rfl

theorem randbits (rd ra : RegNum) : Statement (.randbits rd ra) := fun _ => rfl

theorem keygen (ra : RegNum) : Statement (.keygen ra) := fun _ => rfl

theorem keygenS (ra : RegNum) : Statement (.keygenS ra) := fun _ => rfl

theorem keyloadPk (ra rb rc : RegNum) : Statement (.keyloadPk ra rb rc) := fun _ => rfl

theorem keyloadSk (rd ra rb rc : RegNum) : Statement (.keyloadSk rd ra rb rc) := fun _ => rfl

theorem keyget (rd : RegNum) (i : Fin 16) : Statement (.keyget rd i) := fun h => by
  have h : i.val ≤ 6 := by simpa [Instr.wellFormed] using h
  simp [encodeFields, fieldsOf, decodeFields, whenZero, h]

theorem keyclr : Statement .keyclr := fun _ => rfl

theorem encrypt (rd ra : RegNum) : Statement (.encrypt rd ra) := fun _ => rfl

theorem encryptZkp (rd ra rb : RegNum) : Statement (.encryptZkp rd ra rb) := fun _ => rfl

theorem encryptR (rd ra rb : RegNum) : Statement (.encryptR rd ra rb) := fun _ => rfl

theorem decrypt (rd ra : RegNum) : Statement (.decrypt rd ra) := fun _ => rfl

end Sys2Proof.Laws.FieldsRoundTrip
end

