-- ==== Sys2Proof/Laws/Decode.lean ====
section
/-! SUPPORT. The command word and its fields determine each other (30_encoding.md R90), what decodeFields answers, and
masking a word field by field (R94). -/

namespace Sys2Proof

theorem Fields.ofWord_toWord (f : Fields) : Fields.ofWord f.toWord = f := by
  cases f
  simp only [Fields.ofWord, Fields.toWord, Fields.mk.injEq]
  refine ⟨?_, ?_, ?_, ?_, ?_, ?_, ?_⟩ <;>
  · apply BitVec.eq_of_getLsbD_eq
    intro k hk
    simp only [BitVec.getLsbD_extractLsb', BitVec.getLsbD_append]
    interval_cases k <;> simp

theorem Fields.toWord_ofWord (w : Word32) : (Fields.ofWord w).toWord = w := by
  apply BitVec.eq_of_getLsbD_eq
  intro k hk
  simp only [Fields.ofWord, Fields.toWord, BitVec.getLsbD_append]
  interval_cases k <;> simp

/-- The decoder answers well-formed instructions only, and reads every field of them. -/
theorem decodeFields_eq_some {f : Fields} {i : Instr} (h : decodeFields f = some i) :
    i.wellFormed = true ∧ encodeFields i = f := by
  unfold decodeFields at h
  dsimp only at h
  obtain ⟨rsv, s, rc, rb, ra, rd, op⟩ := f
  dsimp only at h
  split at h
  all_goals try (split_ifs at h with hs)
  all_goals try unfold whenZero at h
  all_goals try (split_ifs at h with hz; cases h)
  all_goals try contradiction
  all_goals simp_all [Instr.wellFormed, encodeFields, fieldsOf]
  all_goals (apply BitVec.eq_of_toNat_eq; simp_all)

/-- The bitwise and of two words, field by field. -/
def Fields.and (f g : Fields) : Fields where
  rsv := f.rsv &&& g.rsv
  s   := f.s &&& g.s
  rc  := f.rc &&& g.rc
  rb  := f.rb &&& g.rb
  ra  := f.ra &&& g.ra
  rd  := f.rd &&& g.rd
  op  := f.op &&& g.op

theorem Fields.toWord_and (f g : Fields) : f.toWord &&& g.toWord = (f.and g).toWord := by
  apply BitVec.eq_of_getLsbD_eq
  intro k hk
  simp only [Fields.toWord, Fields.and, BitVec.getLsbD_and, BitVec.getLsbD_append]
  interval_cases k <;> simp

/-- A word's mask and match hold exactly when they hold on every field (30_encoding.md R94). -/
theorem and_eq_iff_fields (w m t : Word32) :
    w &&& m = t ↔ (Fields.ofWord w).and (Fields.ofWord m) = Fields.ofWord t := by
  constructor
  · rintro rfl
    rw [← Fields.ofWord_toWord (Fields.and _ _), ← Fields.toWord_and, Fields.toWord_ofWord, Fields.toWord_ofWord]
  · intro h
    rw [← Fields.toWord_ofWord t, ← h, ← Fields.toWord_and, Fields.toWord_ofWord, Fields.toWord_ofWord]

theorem rowOf_mem (i : Instr) : rowOf i ∈ opcodeRows := by
  cases i <;> simp [rowOf, opcodeRows]

/-- The opcode of an instruction's row. -/
theorem rowOf_op (i : Instr) : (rowOf i).2.extractLsb' 0 8 = (encodeFields i).op := by
  cases i
  case carmS => exact (by decide : (0x01000007 : Word32).extractLsb' 0 8 = 0x07)
  case keygenS => exact (by decide : (0x01000010 : Word32).extractLsb' 0 8 = 0x10)
  all_goals rfl

/-- An instruction's word matches its own row. -/
theorem encode_and_rowOf (i : Instr) : encode i &&& (rowOf i).1 = (rowOf i).2 := by
  rw [and_eq_iff_fields, encode, Fields.ofWord_toWord]
  cases i <;>
  · simp only [rowOf, encodeFields, fieldsOf, Fields.and, Fields.ofWord, Fields.mk.injEq]
    refine ⟨?_, ?_, ?_, ?_, ?_, ?_, ?_⟩ <;> simp

end Sys2Proof
end

