-- ==== Sys2Proof/Laws/Exec.lean ====
section
/-! SUPPORT. What a meaning can answer, one lemma per command, and exec_ends over all of them: a command ends with
its own writes or one of its codes, or its retry loop goes on; nothing else. -/

namespace Sys2Proof.Machine

/-- The moduli the Montgomery unit refuses (40_modexp_engine.md R120). -/
theorem badOddModulus_iff {m : Nat} : badOddModulus m = true ↔ m = 0 ∨ m % 2 = 0 := by
  simp [badOddModulus]

theorem writeFitting_fits {s : State} {t : Nat} (rd : RegNum) (h : t < 2 ^ s.cfg.wreg) :
    writeFitting s rd t = .ok (s.blk.setX rd t) := by
  unfold writeFitting
  rw [if_neg (by omega)]

theorem writeFitting_overflows {s : State} {t : Nat} (rd : RegNum) (h : 2 ^ s.cfg.wreg ≤ t) :
    writeFitting s rd t = .error .overflow := by
  unfold writeFitting
  rw [if_pos h]

/-- KEYGEN's bitLength checks with a latched command (45_key_management.md R192). -/
theorem badBitLength_iff {s : State} {l : Latch} (hl : s.blk.latch = some l) (bl : Nat) :
    badBitLength s bl = true ↔ bl % 2 = 1 ∨ bl < 4 ∨ bl < l.minBits.toNat ∨ s.cfg.keyBitsMax < bl := by
  simp [badBitLength, Block.latMinBits_some hl, or_assoc]

theorem writeFitting_endsWell {i : Instr} {s : State} {rd : RegNum} (hd : rd ∈ i.dests)
    (hc : ErrCode.overflow.code ∈ i.codes) (t : Nat) : EndsWell i s.blk (writeFitting s rd t) := by
  unfold writeFitting
  split_ifs
  · exact endsWell_error hc
  · exact endsWell_setX hd t

theorem exponentOf_endsWell {i : Instr} {s : State} {rd : RegNum} (hd : rd ∈ i.dests)
    (hr : ErrCode.range.code ∈ i.codes) (hc : ErrCode.overflow.code ∈ i.codes) (lam : Nat → Nat → Nat) (ra rb : RegNum) :
    EndsWell i s.blk (exponentOf lam rd ra rb s) := by
  unfold exponentOf
  dsimp only
  split_ifs
  · exact endsWell_error hr
  · exact writeFitting_endsWell hd hc _

theorem installResult_endsWell {i : Instr} {s : State} (hb : i.writesBank = true)
    {r : Except ErrCode KeyBank} (hr : ∀ e, r = .error e → e = .construction)
    (hc : ErrCode.construction.code ∈ i.codes) : EndsWell i s.blk (installResult s r) := by
  cases r with
  | error e => obtain rfl := hr e rfl; exact endsWell_error hc
  | ok k => exact ⟨rfl, fun _ _ => rfl, by simp [hb]⟩

theorem simpleKey_error {p q : Nat} {e : ErrCode} (h : simpleKey p q = .error e) : e = .construction := by
  unfold simpleKey at h
  dsimp only at h
  split_ifs at h
  cases h; rfl

theorem fullKey_error {p q g : Nat} {e : ErrCode} (h : fullKey p q g = .error e) : e = .construction := by
  unfold fullKey at h
  dsimp only at h
  split_ifs at h <;> cases h <;> rfl

theorem execNop_ends (s : State) : Ends .nop s (execNop s) :=
  ends_finish ⟨rfl, fun _ _ => rfl, fun _ => ⟨rfl, rfl, rfl⟩⟩

theorem execModexp_ends (rd ra rb rc : RegNum) (s : State) : Ends (.modexp rd ra rb rc) s (execModexp rd ra rb rc s) := by
  refine ends_finish ?_
  split_ifs
  · exact endsWell_error (by simp [Instr.codes, ErrCode.code])
  · exact endsWell_setX (by simp [Instr.dests]) _

theorem execModmul_ends (rd ra rb rc : RegNum) (s : State) : Ends (.modmul rd ra rb rc) s (execModmul rd ra rb rc s) := by
  refine ends_finish ?_
  split_ifs
  · exact endsWell_error (by simp [Instr.codes, ErrCode.code])
  · exact endsWell_setX (by simp [Instr.dests]) _

theorem execMul_ends (rd ra rb : RegNum) (s : State) : Ends (.mul rd ra rb) s (execMul rd ra rb s) :=
  ends_finish (writeFitting_endsWell (by simp [Instr.dests]) (by simp [Instr.codes, ErrCode.code]) _)

theorem execModinv_ends (rd ra rc : RegNum) (s : State) : Ends (.modinv rd ra rc) s (execModinv rd ra rc s) := by
  refine ends_finish ?_
  split_ifs
  · exact endsWell_error (by simp [Instr.codes, ErrCode.code])
  · exact endsWell_error (by simp [Instr.codes, ErrCode.code])
  · exact endsWell_setX (by simp [Instr.dests]) _

theorem execGcd_ends (rd ra rb : RegNum) (s : State) : Ends (.gcd rd ra rb) s (execGcd rd ra rb s) :=
  ends_finish (endsWell_setX (by simp [Instr.dests]) _)

theorem execLcm_ends (rd ra rb : RegNum) (s : State) : Ends (.lcm rd ra rb) s (execLcm rd ra rb s) :=
  ends_finish (writeFitting_endsWell (by simp [Instr.dests]) (by simp [Instr.codes, ErrCode.code]) _)

theorem execCarm_ends (rd ra rb : RegNum) (s : State) : Ends (.carm rd ra rb) s (execCarm rd ra rb s) :=
  ends_finish (exponentOf_endsWell (by simp [Instr.dests]) (by simp [Instr.codes, ErrCode.code])
    (by simp [Instr.codes, ErrCode.code]) _ _ _)

theorem execCarmS_ends (rd ra rb : RegNum) (s : State) : Ends (.carmS rd ra rb) s (execCarmS rd ra rb s) :=
  ends_finish (exponentOf_endsWell (by simp [Instr.dests]) (by simp [Instr.codes, ErrCode.code])
    (by simp [Instr.codes, ErrCode.code]) _ _ _)

theorem execLfunc_ends (rd ra rc : RegNum) (s : State) : Ends (.lfunc rd ra rc) s (execLfunc rd ra rc s) := by
  refine ends_finish ?_
  split_ifs
  · exact endsWell_error (by simp [Instr.codes, ErrCode.code])
  · exact endsWell_setX (by simp [Instr.dests]) _
  · exact endsWell_error (by simp [Instr.codes, ErrCode.code])

theorem execBitlen_ends (rd ra : RegNum) (s : State) : Ends (.bitlen rd ra) s (execBitlen rd ra s) :=
  ends_finish (endsWell_setX (by simp [Instr.dests]) _)

theorem execPrimetest_ends (rd ra : RegNum) (s : State) : Ends (.primetest rd ra) s (execPrimetest rd ra s) :=
  ends_drawn _ (endsWell_setX (by simp [Instr.dests]) _)

theorem execGenprime_ends (rd ra : RegNum) (s : State) : Ends (.genprime rd ra) s (execGenprime rd ra s) := by
  unfold execGenprime
  dsimp only
  split_ifs
  · exact ends_raise (by simp [Instr.codes, ErrCode.code])
  · split
    · exact ends_drawn _ (endsWell_setX (by simp [Instr.dests]) _)
    · exact .inl ⟨rfl, rfl⟩

theorem execRandbelow_ends (rd ra : RegNum) (s : State) : Ends (.randbelow rd ra) s (execRandbelow rd ra s) := by
  unfold execRandbelow
  dsimp only
  split_ifs
  · exact ends_raise (by simp [Instr.codes, ErrCode.code])
  · exact ends_drawn _ (endsWell_setX (by simp [Instr.dests]) _)

theorem execRandbits_ends (rd ra : RegNum) (s : State) : Ends (.randbits rd ra) s (execRandbits rd ra s) := by
  unfold execRandbits
  dsimp only
  split_ifs
  · exact ends_raise (by simp [Instr.codes, ErrCode.code])
  · exact ends_drawn _ (endsWell_setX (by simp [Instr.dests]) _)

theorem execKeygen_ends (ra : RegNum) (s : State) : Ends (.keygen ra) s (execKeygen ra s) := by
  unfold execKeygen
  dsimp only
  split_ifs
  · exact ends_raise (by simp [Instr.codes, ErrCode.code])
  · split
    · exact .inl ⟨rfl, rfl⟩
    · exact ends_drawn _ (installResult_endsWell rfl (fun _ => fullKey_error) (by simp [Instr.codes, ErrCode.code]))

theorem execKeygenS_ends (ra : RegNum) (s : State) : Ends (.keygenS ra) s (execKeygenS ra s) := by
  unfold execKeygenS
  dsimp only
  split_ifs
  · exact ends_raise (by simp [Instr.codes, ErrCode.code])
  · split
    · exact .inl ⟨rfl, rfl⟩
    · exact ends_drawn _ (installResult_endsWell rfl (fun _ => simpleKey_error) (by simp [Instr.codes, ErrCode.code]))

theorem execKeyloadPk_ends (ra rb rc : RegNum) (s : State) :
    Ends (.keyloadPk ra rb rc) s (execKeyloadPk ra rb rc s) := by
  refine ends_finish ?_
  split_ifs
  · exact endsWell_error (by simp [Instr.codes, ErrCode.code])
  · exact endsWell_error (by simp [Instr.codes, ErrCode.code])
  · exact endsWell_error (by simp [Instr.codes, ErrCode.code])
  · exact ⟨rfl, fun _ _ => rfl, nofun⟩

theorem execKeyloadSk_ends (rd ra rb rc : RegNum) (s : State) :
    Ends (.keyloadSk rd ra rb rc) s (execKeyloadSk rd ra rb rc s) := by
  refine ends_finish ?_
  split_ifs
  · exact endsWell_error (by simp [Instr.codes, ErrCode.code])
  · exact endsWell_error (by simp [Instr.codes, ErrCode.code])
  · exact endsWell_error (by simp [Instr.codes, ErrCode.code])
  · exact endsWell_error (by simp [Instr.codes, ErrCode.code])
  · exact endsWell_error (by simp [Instr.codes, ErrCode.code])
  · exact endsWell_error (by simp [Instr.codes, ErrCode.code])
  · exact ⟨rfl, fun _ _ => rfl, nofun⟩

/-- The key-bank indices are 0 to 6 (10_state.md R23). -/
theorem KeyBank.field_eq_none {k : KeyBank} : ∀ {i : Nat}, k.field i = none ↔ 6 < i
  | 0 | 1 | 2 | 3 | 4 | 5 | 6 => by simp [KeyBank.field]
  | n + 7 => by simp [KeyBank.field]

theorem execKeyget_ends (rd : RegNum) (i : Fin 16) (s : State) : Ends (.keyget rd i) s (execKeyget rd i s) := by
  refine ends_finish ?_
  split
  · exact endsWell_setX (by simp [Instr.dests]) _
  · rename_i h
    exact .inr ⟨by simpa [Instr.wellFormed] using KeyBank.field_eq_none.1 h, rfl⟩

theorem execKeyclr_ends (s : State) : Ends .keyclr s (execKeyclr s) :=
  ends_finish ⟨rfl, fun _ _ => rfl, nofun⟩

theorem execEncrypt_ends (rd ra : RegNum) (s : State) : Ends (.encrypt rd ra) s (execEncrypt rd ra s) := by
  unfold execEncrypt
  dsimp only
  split_ifs
  · exact ends_raise (by simp [Instr.codes, ErrCode.code])
  · exact ends_drawn _ (endsWell_setX (by simp [Instr.dests]) _)

theorem execEncryptZkp_ends (rd ra rb : RegNum) (s : State) :
    Ends (.encryptZkp rd ra rb) s (execEncryptZkp rd ra rb s) := by
  unfold execEncryptZkp
  dsimp only
  split_ifs
  · exact ends_raise (by simp [Instr.codes, ErrCode.code])
  · exact ends_raise (by simp [Instr.codes, ErrCode.code])
  · refine ends_drawn _ ⟨rfl, fun r hr => ?_, fun _ => ⟨rfl, rfl, rfl⟩⟩
    simp only [Instr.dests, List.mem_cons, List.not_mem_nil, or_false, not_or] at hr
    rw [Block.getX_setX_ne _ hr.2, Block.getX_setX_ne _ hr.1]

theorem execEncryptR_ends (rd ra rb : RegNum) (s : State) : Ends (.encryptR rd ra rb) s (execEncryptR rd ra rb s) := by
  refine ends_finish ?_
  split_ifs
  · exact endsWell_error (by simp [Instr.codes, ErrCode.code])
  · exact endsWell_error (by simp [Instr.codes, ErrCode.code])
  · exact endsWell_setX (by simp [Instr.dests]) _

theorem execDecrypt_ends (rd ra : RegNum) (s : State) : Ends (.decrypt rd ra) s (execDecrypt rd ra s) := by
  refine ends_finish ?_
  split_ifs
  · exact endsWell_error (by simp [Instr.codes, ErrCode.code])
  · exact endsWell_error (by simp [Instr.codes, ErrCode.code])
  · exact endsWell_error (by simp [Instr.codes, ErrCode.code])
  · exact endsWell_setX (by simp [Instr.dests]) _

/-- Every command, in every state, ends with its own writes or one of its codes, or its retry loop goes on. -/
theorem exec_ends (i : Instr) (s : State) : Ends i s (exec i s) := by
  cases i with
  | nop => exact execNop_ends s
  | modexp rd ra rb rc => exact execModexp_ends rd ra rb rc s
  | modmul rd ra rb rc => exact execModmul_ends rd ra rb rc s
  | mul rd ra rb => exact execMul_ends rd ra rb s
  | modinv rd ra rc => exact execModinv_ends rd ra rc s
  | gcd rd ra rb => exact execGcd_ends rd ra rb s
  | lcm rd ra rb => exact execLcm_ends rd ra rb s
  | carm rd ra rb => exact execCarm_ends rd ra rb s
  | carmS rd ra rb => exact execCarmS_ends rd ra rb s
  | lfunc rd ra rc => exact execLfunc_ends rd ra rc s
  | bitlen rd ra => exact execBitlen_ends rd ra s
  | primetest rd ra => exact execPrimetest_ends rd ra s
  | genprime rd ra => exact execGenprime_ends rd ra s
  | randbelow rd ra => exact execRandbelow_ends rd ra s
  | randbits rd ra => exact execRandbits_ends rd ra s
  | keygen ra => exact execKeygen_ends ra s
  | keygenS ra => exact execKeygenS_ends ra s
  | keyloadPk ra rb rc => exact execKeyloadPk_ends ra rb rc s
  | keyloadSk rd ra rb rc => exact execKeyloadSk_ends rd ra rb rc s
  | keyget rd i => exact execKeyget_ends rd i s
  | keyclr => exact execKeyclr_ends s
  | encrypt rd ra => exact execEncrypt_ends rd ra s
  | encryptZkp rd ra rb => exact execEncryptZkp_ends rd ra rb s
  | encryptR rd ra rb => exact execEncryptR_ends rd ra rb s
  | decrypt rd ra => exact execDecrypt_ends rd ra s

end Sys2Proof.Machine
end

