-- ==== Sys2Proof/Laws/Flags.lean ====
section
/-! SUPPORT. The fields of the register words of Machine/Flags.lean, each read back at its place. -/

namespace Sys2Proof.Machine

/-! ## STATUS (10_state.md R33) -/

theorem Block.statusWord_busy (b : Block) : b.statusWord.getLsbD 0 = b.busy := by
  simp only [Block.statusWord, bit, BitVec.getLsbD_append]
  simp
theorem Block.statusWord_done (b : Block) : b.statusWord.getLsbD 1 = b.done := by
  simp only [Block.statusWord, bit, BitVec.getLsbD_append]
  simp
theorem Block.statusWord_err (b : Block) : b.statusWord.getLsbD 2 = b.err := by
  simp only [Block.statusWord, bit, BitVec.getLsbD_append]
  simp
theorem Block.statusWord_cmdOverrun (b : Block) : b.statusWord.getLsbD 3 = b.cmdOverrun := by
  simp only [Block.statusWord, bit, BitVec.getLsbD_append]
  simp
theorem Block.statusWord_accessErr (b : Block) : b.statusWord.getLsbD 4 = b.accessErr := by
  simp only [Block.statusWord, bit, BitVec.getLsbD_append]
  simp
theorem Block.statusWord_reserved_low (b : Block) : b.statusWord.extractLsb' 5 3 = 0 := by
  apply BitVec.eq_of_getLsbD_eq
  intro k hk
  simp only [Block.statusWord, bit, BitVec.getLsbD_extractLsb', BitVec.getLsbD_append]
  interval_cases k <;> simp
theorem Block.statusWord_errCode (b : Block) : b.statusWord.extractLsb' 8 8 = b.errCode := by
  apply BitVec.eq_of_getLsbD_eq
  intro k hk
  simp only [Block.statusWord, bit, BitVec.getLsbD_extractLsb', BitVec.getLsbD_append]
  interval_cases k <;> simp
theorem Block.statusWord_pkValid (b : Block) : b.statusWord.getLsbD 16 = b.pkValid := by
  simp only [Block.statusWord, bit, BitVec.getLsbD_append]
  simp
theorem Block.statusWord_skValid (b : Block) : b.statusWord.getLsbD 17 = b.skValid := by
  simp only [Block.statusWord, bit, BitVec.getLsbD_append]
  simp
theorem Block.statusWord_reserved_high (b : Block) : b.statusWord.extractLsb' 18 14 = 0 := by
  apply BitVec.eq_of_getLsbD_eq
  intro k hk
  simp only [Block.statusWord, bit, BitVec.getLsbD_extractLsb', BitVec.getLsbD_append]
  interval_cases k <;> simp

/-! ## CTRL, WIN_SEL and PARAM (10_state.md R32, R34, R35) -/

theorem Block.ctrlWord_mrRounds (b : Block) : b.ctrlWord.extractLsb' 0 8 = b.mrRounds := by
  apply BitVec.eq_of_getLsbD_eq
  intro k hk
  simp only [Block.ctrlWord, bit, BitVec.getLsbD_extractLsb', BitVec.getLsbD_append]
  interval_cases k <;> simp
theorem Block.ctrlWord_irqEn (b : Block) : b.ctrlWord.getLsbD 8 = b.irqEn := by
  simp only [Block.ctrlWord, bit, BitVec.getLsbD_append]
  simp
theorem Block.ctrlWord_reserved (b : Block) : b.ctrlWord.extractLsb' 9 23 = 0 := by
  apply BitVec.eq_of_getLsbD_eq
  intro k hk
  simp only [Block.ctrlWord, bit, BitVec.getLsbD_extractLsb', BitVec.getLsbD_append]
  interval_cases k <;> simp

theorem Block.winSelWord_word (b : Block) : b.winSelWord.extractLsb' 0 16 = b.winWord := by
  apply BitVec.eq_of_getLsbD_eq
  intro k hk
  simp only [Block.winSelWord, bit, BitVec.getLsbD_extractLsb', BitVec.getLsbD_append]
  interval_cases k <;> simp
theorem Block.winSelWord_reg (b : Block) : b.winSelWord.extractLsb' 16 5 = b.winReg := by
  apply BitVec.eq_of_getLsbD_eq
  intro k hk
  simp only [Block.winSelWord, bit, BitVec.getLsbD_extractLsb', BitVec.getLsbD_append]
  interval_cases k <;> simp
theorem Block.winSelWord_reserved (b : Block) : b.winSelWord.extractLsb' 21 10 = 0 := by
  apply BitVec.eq_of_getLsbD_eq
  intro k hk
  simp only [Block.winSelWord, bit, BitVec.getLsbD_extractLsb', BitVec.getLsbD_append]
  interval_cases k <;> simp
theorem Block.winSelWord_autoinc (b : Block) : b.winSelWord.getLsbD 31 = b.winAuto := by
  simp only [Block.winSelWord, bit, BitVec.getLsbD_append]
  simp

theorem paramWord_nw (c : Config) : (paramWord c).extractLsb' 0 16 = BitVec.ofNat 16 c.nw := by
  apply BitVec.eq_of_getLsbD_eq
  intro k hk
  simp only [paramWord, BitVec.getLsbD_extractLsb', BitVec.getLsbD_append]
  interval_cases k <;> simp
theorem paramWord_nx (c : Config) : (paramWord c).extractLsb' 16 8 = 16 := by
  apply BitVec.eq_of_getLsbD_eq
  intro k hk
  simp only [paramWord, BitVec.getLsbD_extractLsb', BitVec.getLsbD_append]
  interval_cases k <;> simp
theorem paramWord_nk (c : Config) : (paramWord c).extractLsb' 24 8 = 7 := by
  apply BitVec.eq_of_getLsbD_eq
  intro k hk
  simp only [paramWord, BitVec.getLsbD_extractLsb', BitVec.getLsbD_append]
  interval_cases k <;> simp

end Sys2Proof.Machine
end

