-- ==== Sys2Proof/Laws/Prime.lean ====
section
/-! SUPPORT. The primality test and the retry loops: what splitTwos and a round compute, what a candidate is, and
that a loop that has ended gives the same result under any larger budget. -/

namespace Sys2Proof.Machine

/-- splitTwos finds n = 2^s · d with d odd, given enough fuel. -/
theorem splitTwos_spec : ∀ fuel n, 0 < n → n < 2 ^ fuel →
    n = 2 ^ (splitTwos fuel n).1 * (splitTwos fuel n).2 ∧ (splitTwos fuel n).2 % 2 = 1
  | 0, n, h0, h => by simp at h; omega
  | fuel + 1, n, h0, h => by
    rw [splitTwos]
    split_ifs with he
    · have hlt : n / 2 < 2 ^ fuel := by rw [pow_succ] at h; omega
      obtain ⟨h1, h2⟩ := splitTwos_spec fuel (n / 2) (by omega) hlt
      refine ⟨?_, h2⟩
      dsimp only
      rw [pow_succ, mul_right_comm, ← h1]
      omega
    · refine ⟨by simp, ?_⟩
      dsimp only; omega

theorem splitTwos_pos {fuel n : Nat} (hf : 0 < fuel) (he : n % 2 = 0) : 1 ≤ (splitTwos fuel n).1 := by
  obtain ⟨f, rfl⟩ : ∃ f, fuel = f + 1 := ⟨fuel - 1, by omega⟩
  simp [splitTwos, he]

theorem squaringsPass_iff (c : Nat) : ∀ k x, squaringsPass k x c = true ↔ ∃ j, 1 ≤ j ∧ j ≤ k ∧ x ^ 2 ^ j % c = c - 1
  | 0, x => by simp [squaringsPass]
  | k + 1, x => by
    have ih := squaringsPass_iff c k (x * x % c)
    have hs : ∀ j, (x * x % c) ^ 2 ^ j % c = x ^ 2 ^ (j + 1) % c := fun j => by
      rw [← Nat.pow_mod, pow_succ' 2 j, pow_mul, pow_two]
    simp only [hs] at ih
    simp only [squaringsPass, Bool.or_eq_true, beq_iff_eq, ih]
    constructor
    · rintro (h | ⟨j, h1, h2, h3⟩)
      · exact ⟨1, le_rfl, by omega, by rw [pow_one, pow_two]; exact h⟩
      · exact ⟨j + 1, by omega, by omega, h3⟩
    · rintro ⟨j, h1, h2, h3⟩
      rcases Nat.lt_or_ge 1 j with hj | hj
      · exact .inr ⟨j - 1, by omega, by omega, by rw [Nat.sub_add_cancel h1]; exact h3⟩
      · obtain rfl : j = 1 := by omega
        left; rw [pow_one, pow_two] at h3; exact h3

/-- A round passes base a when a^d is 1, or one of a^d, a^(2d), …, a^(2^(s−1)·d) is c − 1 (R152). -/
theorem roundPasses_iff (c s d a : Nat) (hs : 1 ≤ s) :
    roundPasses c s d a = true ↔ a ^ d % c = 1 ∨ ∃ j, j < s ∧ a ^ (2 ^ j * d) % c = c - 1 := by
  have hp : ∀ j, (a ^ d % c) ^ 2 ^ j % c = a ^ (2 ^ j * d) % c := fun j => by
    rw [← Nat.pow_mod, ← pow_mul, mul_comm]
  simp only [roundPasses, Bool.or_eq_true, beq_iff_eq, squaringsPass_iff, powmod_eq, hp]
  constructor
  · rintro ((h | h) | ⟨j, h1, h2, h3⟩)
    · exact .inl h
    · exact .inr ⟨0, by omega, by simpa using h⟩
    · exact .inr ⟨j, by omega, h3⟩
  · rintro (h | ⟨j, h1, h2⟩)
    · exact .inl (.inl h)
    · rcases Nat.eq_zero_or_pos j with rfl | hj
      · exact .inl (.inr (by simpa using h2))
      · exact .inr ⟨j, hj, by omega, h2⟩

/-- A candidate of width w is odd and has exactly w bits (R155). -/
theorem candidate_spec {w : Nat} (hw : 2 ≤ w) (en : Entropy) :
    2 ^ (w - 1) ≤ (candidate w en).1 ∧ (candidate w en).1 < 2 ^ w ∧ (candidate w en).1 % 2 = 1 := by
  have hpos : 0 < 2 ^ w := by positivity
  have hd := (draw_mem (show 0 ≤ 2 ^ w - 1 by omega) en).2
  have hw1 : (1 : Nat) < 2 ^ w := Nat.one_lt_two_pow (by omega)
  have hlt : 2 ^ (w - 1) < 2 ^ w := Nat.pow_lt_pow_right (by omega) (by omega)
  refine ⟨?_, ?_, ?_⟩
  · exact Nat.right_le_or.trans Nat.left_le_or
  · exact Nat.or_lt_two_pow (Nat.or_lt_two_pow (by omega) hlt) hw1
  · have : ((candidate w en).1).testBit 0 = true := by simp [candidate]
    simpa [Nat.testBit_zero] using this

/-- What a prime search that has ended returns: a candidate of width w that passed the test (R156). -/
theorem genPrime_spec {w k : Nat} : ∀ {budget : Nat} {en : Entropy} {c : Nat} {en' : Entropy},
    genPrime budget w k en = some (c, en') →
    ∃ e₀ e₁, (c, e₁) = candidate w e₀ ∧ millerRabin c k e₁ = (true, en')
  | 0, _, _, _, h => by simp [genPrime] at h
  | budget + 1, en, c, en', h => by
    rw [genPrime] at h
    split_ifs at h with ht
    · obtain ⟨rfl, rfl⟩ : (candidate w en).1 = c ∧ _ := by simpa using h
      exact ⟨en, _, rfl, Prod.ext ht rfl⟩
    · exact genPrime_spec h

/-- A prime search that has ended gives the same result under one more candidate, hence under any larger budget. -/
theorem genPrime_succ {w k : Nat} : ∀ {budget : Nat} {en : Entropy} {r : Nat × Entropy},
    genPrime budget w k en = some r → genPrime (budget + 1) w k en = some r
  | 0, _, _, h => by simp [genPrime] at h
  | budget + 1, en, r, h => by
    rw [genPrime] at h ⊢
    split_ifs at h ⊢ with ht
    · exact h
    · exact genPrime_succ h

theorem primePair_spec {budget bl k : Nat} : ∀ {tries : Nat} {en : Entropy} {p q : Nat} {en' : Entropy},
    primePair budget tries bl k en = some ((p, q), en') →
    bitWidth (p * q) = bl ∧ ∃ e₀ e₁, genPrime budget (bl / 2) k e₀ = some (p, e₁) ∧
      genPrime budget (bl / 2) k e₁ = some (q, en')
  | 0, _, _, _, _, h => by simp [primePair] at h
  | tries + 1, en, p, q, en', h => by
    rw [primePair] at h
    split at h
    · simp at h
    · rename_i p' en1 hp
      split at h
      · simp at h
      · rename_i q' en2 hq
        split_ifs at h with hb
        · obtain ⟨⟨rfl, rfl⟩, rfl⟩ : (p' = p ∧ q' = q) ∧ en2 = en' := by simpa using h
          exact ⟨hb, en, en1, hp, hq⟩
        · exact primePair_spec h

/-- The two primes of a pair: odd, of width bl / 2 each, with a product of width bl (R194). -/
theorem primePair_bounds {budget tries bl k : Nat} {en : Entropy} {p q : Nat} {en' : Entropy} (hbl : 4 ≤ bl)
    (h : primePair budget tries bl k en = some ((p, q), en')) :
    (2 ^ (bl / 2 - 1) ≤ p ∧ p < 2 ^ (bl / 2) ∧ p % 2 = 1) ∧ (2 ^ (bl / 2 - 1) ≤ q ∧ q < 2 ^ (bl / 2) ∧ q % 2 = 1) ∧
      2 ^ (bl - 1) ≤ p * q ∧ p * q < 2 ^ bl := by
  obtain ⟨hw, e₀, e₁, hp, hq⟩ := primePair_spec h
  obtain ⟨a₀, a₁, ha, -⟩ := genPrime_spec hp
  obtain ⟨b₀, b₁, hb, -⟩ := genPrime_spec hq
  have hcp := candidate_spec (show 2 ≤ bl / 2 by omega) a₀
  have hcq := candidate_spec (show 2 ≤ bl / 2 by omega) b₀
  rw [← ha] at hcp
  rw [← hb] at hcq
  exact ⟨hcp, hcq, (bitWidth_eq_iff (by omega)).1 hw⟩

end Sys2Proof.Machine
end

