-- ==== Sys2Proof/Laws/Step.lean ====
section
/-! SUPPORT. What one step can do, said once: a power-on reset, one host operation, or one step of the engine. -/

namespace Sys2Proof.Machine

/-- One host operation touches the block by one window access at most, its own pc, and at most one variable. -/
theorem hostStep_cases {s t : State} (h : hostStep s = .next t) :
    ∃ b hst, t = { s with blk := b, host := hst } ∧ hst.prog = s.host.prog ∧
      (b = s.blk ∨ (∃ w off, b = (s.blk.readReg s.cfg w off).2) ∨ ∃ w off v, b = s.blk.writeReg s.cfg w off v) ∧
      (hst.vars = s.host.vars ∨ ∃ x v, hst.vars = varSet s.host.vars x v) := by
  unfold hostStep at h
  split at h
  · cases h
    exact ⟨s.blk, s.host, rfl, rfl, .inl rfl, .inl rfl⟩
  · rename_i w off dst _
    unfold hostRead State.busRead at h
    cases ho : windowOffset s.cfg (s.cfg.mmioBase + off) with
    | none => rw [ho] at h; simp at h
    | some o =>
      rw [ho] at h
      cases h
      exact ⟨_, _, rfl, rfl, .inr (.inl ⟨w, o, rfl⟩), .inr ⟨dst, _, rfl⟩⟩
  · rename_i w off v _
    unfold hostWrite State.busWrite at h
    cases ho : windowOffset s.cfg (s.cfg.mmioBase + off) with
    | none => rw [ho] at h; simp at h
    | some o =>
      rw [ho] at h
      cases h
      exact ⟨_, _, rfl, rfl, .inr (.inr ⟨w, o, _, rfl⟩), .inl rfl⟩
  · unfold hostPoll State.busRead at h
    cases ho : windowOffset s.cfg (s.cfg.mmioBase + 0x10) with
    | none => rw [ho] at h; simp at h
    | some o =>
      rw [ho] at h
      simp only [Option.map_some] at h
      split_ifs at h <;> cases h
      · exact ⟨_, s.host, rfl, rfl, .inr (.inl ⟨.bits32, o, rfl⟩), .inl rfl⟩
      · exact ⟨_, _, rfl, rfl, .inr (.inl ⟨.bits32, o, rfl⟩), .inl rfl⟩
  · cases h
    exact ⟨s.blk, _, rfl, rfl, .inl rfl, .inr ⟨_, _, rfl⟩⟩
  · cases h
    refine ⟨s.blk, _, rfl, ?_, .inl rfl, .inl ?_⟩ <;> split_ifs <;> rfl

/-- An engine step does nothing with an empty latch, raises ERR_ILLEGAL for a word no row matches, and runs any other
command (30_encoding.md R103, R104). -/
theorem engineStep_cases (s : State) :
    (s.blk.latch = none ∧ engineStep s = .next s) ∨ ∃ l, s.blk.latch = some l ∧
      ((decode l.word = none ∧ engineStep s = .next (s.raiseError .illegal)) ∨
        ∃ i, decode l.word = some i ∧ engineStep s = exec i s) := by
  unfold engineStep
  cases hl : s.blk.latch with
  | none => exact .inl ⟨rfl, rfl⟩
  | some l =>
    refine .inr ⟨l, rfl, ?_⟩
    cases hd : decode l.word with
    | none => exact .inl ⟨rfl, by simp [hd]⟩
    | some i => exact .inr ⟨i, rfl, by simp [hd]⟩

/-- A word that decodes matches its instruction's own row, and that row's opcode is the word's. -/
theorem decode_some_row {w : Word32} {i : Instr} (h : decode w = some i) :
    rowMatches w (rowOf i) = true ∧ (rowOf i).2.extractLsb' 0 8 = w.extractLsb' 0 8 := by
  obtain ⟨hw, he⟩ := decodeFields_eq_some h
  obtain rfl : encode i = w := by rw [encode, he, Fields.toWord_ofWord]
  have hf : Fields.ofWord (encode i) = encodeFields i := by rw [encode, Fields.ofWord_toWord]
  constructor
  · simp only [rowMatches, encode_and_rowOf, beq_self_eq_true, Bool.true_and, Bool.or_eq_true, bne_iff_ne,
      decide_eq_true_eq]
    cases i
    case keyget rd k =>
      right
      have h2 : (Fields.ofWord (encode (.keyget rd k))).ra = BitVec.ofFin k := by rw [hf]; rfl
      simp only [Fields.ofWord] at h2
      rw [h2]; simpa [Instr.wellFormed] using hw
    all_goals left; simp [rowOf]
  · have hop : (encode i).extractLsb' 0 8 = (encodeFields i).op := congrArg Fields.op hf
    exact (rowOf_op i).trans hop.symm

/-- A command's ERR_ILLEGAL, from the rows of its opcode (30_encoding.md R93, R94, R103); the premise holds by rfl. -/
theorem State.othersIllegal (s : State) {op : BitVec 8} {rows : List (Word32 × Word32)}
    (h : (opcodeRows.all fun row => row.2.extractLsb' 0 8 != op || rows.contains row) = true) :
    s.OthersIllegal op rows := by
  intro l hl hop hno
  simp only [List.all_eq_true, Bool.or_eq_true, bne_iff_ne, List.contains_iff_mem] at h
  have hd : decode l.word = none := by
    by_contra hc
    obtain ⟨i, hi⟩ := Option.ne_none_iff_exists'.1 hc
    obtain ⟨hm, he⟩ := decode_some_row hi
    rw [hno _ ((h _ (rowOf_mem i)).resolve_left (not_not.2 (he.trans hop)))] at hm
    cases hm
  simp [engineStep, hl, hd, State.raiseError_eq_failed, ErrCode.code]

/-- A command's meaning always answers a next state: the block never stops. -/
theorem exec_next (i : Instr) (s : State) : ∃ t, exec i s = .next t := by
  rcases exec_ends i s with ⟨-, h⟩ | ⟨en, c, h, -⟩
  · exact ⟨_, h⟩
  · exact ⟨_, h⟩

theorem engineStep_next (s : State) : ∃ t, engineStep s = .next t := by
  rcases engineStep_cases s with ⟨-, h⟩ | ⟨l, -, ⟨-, h⟩ | ⟨i, -, h⟩⟩
  · exact ⟨_, h⟩
  · exact ⟨_, h⟩
  · rw [h]; exact exec_next i s

/-- An engine step of a latched command completes it, or the retry loop of a command that has one goes on. -/
theorem engineStep_latched {s t : State} {l : Latch} (hl : s.blk.latch = some l) (h : engineStep s = .next t) :
    (t = s.goOn ∧ ∃ i, decode l.word = some i ∧ i.loops = true) ∨ (t.blk.latch = none ∧ t.blk.done = true) := by
  rcases engineStep_cases s with ⟨hn, -⟩ | ⟨l', hl', ⟨-, he⟩ | ⟨i, hd, he⟩⟩
  · simp [hl] at hn
  · rw [h] at he; cases he; exact .inr ⟨rfl, rfl⟩
  · obtain rfl : l = l' := by simpa [hl] using hl'
    rcases exec_ends i s with ⟨hL, h'⟩ | ⟨en, c, h', -⟩ <;> rw [h, h'] at he <;> cases he
    · exact .inl ⟨rfl, i, hd, hL⟩
    · right; cases c <;> exact ⟨rfl, rfl⟩

/-- A step is one event of s with the scheduler moved on. -/
theorem step_cases {s t : State} (h : step s = .next t) :
    ∃ sc, t = { s with sched := sc }.powerOnReset ∨ hostStep { s with sched := sc } = .next t ∨
      engineStep { s with sched := sc } = .next t := by
  obtain ⟨sc, hsc⟩ := s.nextEvent_frame
  refine ⟨sc, ?_⟩
  rw [step, hsc] at h
  cases he : s.nextEvent.1 <;> rw [he] at h
  · exact .inr (.inl h)
  · exact .inr (.inr h)
  · exact .inl (by cases h; rfl)

end Sys2Proof.Machine
end

