-- ==== Sys2Proof/Tests/Slice0.lean ====
section
/-! SUPPORT. The model's own tests: ill-formed terms, decoding of words written out bit by bit from 30_encoding.md R90
and R95, single steps on the vectors of 95_test_vectors.md, and a witness for the hypotheses of every statement that
has some. Every expected result is the spec's. -/

namespace Sys2Proof.Tests

open Sys2Proof.Machine

/-! ## Small states -/

/-- Reset with some operand registers set, MR_ROUNDS = 1, MINBITS = 8 and the coming draws fixed. -/
def machine (xs : List (RegNum × Nat)) (draws : List Nat) : State :=
  { State.reset with
    blk := { xs.foldl (fun b p => b.setX p.1 p.2) Block.reset with mrRounds := 1, minBits := 8 }
    entropy := { answers := draws, ix := 0 } }

/-- 95_test_vectors.md, key A (simple variant) and key F (full variant). -/
def keyA : KeyBank := { n := 143, n2 := 20449, g := 144, lambda := 120, mu := 87, p := 11, q := 13 }
def keyF : KeyBank := { n := 143, n2 := 20449, g := 7453, lambda := 60, mu := 56, p := 11, q := 13 }

/-- A key pair in the bank; "PK only" is key A without its private part. -/
def holding (k : KeyBank) (s : State) : State := { s with blk := s.blk.installKey k }
def pkOnly (s : State) : State :=
  { s with blk := { s.blk with key := { KeyBank.empty with n := 143, n2 := 20449, g := 144 }, pkValid := true } }

/-- The command issued. -/
def issued (w : Word32) (s : State) : State := { s with blk := s.blk.issue w }

/-- The state after the step that runs the command word w, if there is one. -/
def after (w : Nat) (s : State) : Option State :=
  match step (s.withFetchWord 32 w) with
  | .next t => some t
  | _ => none

/-- X[r] and the STATUS word after the command. -/
def result (w : Nat) (s : State) (r : RegNum) : Option (Nat × Word32) :=
  (after w s).map fun t => (t.blk.getX r, t.blk.statusWord)

/-- The key bank and the STATUS word after the command. -/
def bank (w : Nat) (s : State) : Option (KeyBank × Word32) :=
  (after w s).map fun t => (t.blk.key, t.blk.statusWord)

/-! ## WellFormed refuses an ill-formed term; the decoder refuses its word (R93) -/

theorem test_keyget_index_7_ill_formed : (Instr.keyget 5 7).wellFormed = false := by decide
theorem test_keyget_index_15_ill_formed : (Instr.keyget 5 15).wellFormed = false := by decide
theorem test_keyget_index_6_well_formed : (Instr.keyget 5 6).wellFormed = true := by decide

/-! ## Decoding: RSV, S, RC, RB, RA, RD, OP written out (R90, R95) -/

theorem test_decode_nop : decode 0b0000000_0_0000_0000_0000_0000_00000000 = some .nop := by decide
theorem test_decode_modexp :
    decode 0b0000000_0_0011_0010_0001_0100_00000001 = some (.modexp 4 1 2 3) := by decide
theorem test_decode_modmul :
    decode 0b0000000_0_1110_1101_1100_1111_00000010 = some (.modmul 15 12 13 14) := by decide
theorem test_decode_mul : decode 0b0000000_0_0000_0010_0001_0011_00000011 = some (.mul 3 1 2) := by decide
theorem test_decode_modinv : decode 0b0000000_0_0011_0000_1011_1100_00000100 = some (.modinv 12 11 3) := by decide
theorem test_decode_gcd : decode 0b0000000_0_0000_0010_0001_0101_00000101 = some (.gcd 5 1 2) := by decide
theorem test_decode_lcm : decode 0b0000000_0_0000_1010_1001_1000_00000110 = some (.lcm 8 9 10) := by decide
theorem test_decode_carm : decode 0b0000000_0_0000_0010_0001_0110_00000111 = some (.carm 6 1 2) := by decide
theorem test_decode_carmS : decode 0b0000000_1_0000_0010_0001_0110_00000111 = some (.carmS 6 1 2) := by decide
theorem test_decode_lfunc : decode 0b0000000_0_0011_0000_1010_1011_00001000 = some (.lfunc 11 10 3) := by decide
theorem test_decode_bitlen : decode 0b0000000_0_0000_0000_0001_0010_00001001 = some (.bitlen 2 1) := by decide
theorem test_decode_primetest : decode 0b0000000_0_0000_0000_0001_0010_00001010 = some (.primetest 2 1) := by decide
theorem test_decode_genprime : decode 0b0000000_0_0000_0000_0001_0010_00001011 = some (.genprime 2 1) := by decide
theorem test_decode_randbelow : decode 0b0000000_0_0000_0000_0001_0010_00001100 = some (.randbelow 2 1) := by decide
theorem test_decode_randbits : decode 0b0000000_0_0000_0000_0001_0010_00001101 = some (.randbits 2 1) := by decide
theorem test_decode_keygen : decode 0b0000000_0_0000_0000_0001_0000_00010000 = some (.keygen 1) := by decide
theorem test_decode_keygenS : decode 0b0000000_1_0000_0000_0001_0000_00010000 = some (.keygenS 1) := by decide
theorem test_decode_keyloadPk :
    decode 0b0000000_0_1001_0100_0011_0000_00010001 = some (.keyloadPk 3 4 9) := by decide
theorem test_decode_keyloadSk :
    decode 0b0000000_0_0010_0001_1100_0101_00010010 = some (.keyloadSk 5 12 1 2) := by decide
theorem test_decode_keyget : decode 0b0000000_0_0000_0000_0001_1110_00010011 = some (.keyget 14 1) := by decide
theorem test_decode_keyclr : decode 0b0000000_0_0000_0000_0000_0000_00010100 = some .keyclr := by decide
theorem test_decode_encrypt : decode 0b0000000_0_0000_0000_0001_0010_00100000 = some (.encrypt 2 1) := by decide
theorem test_decode_encryptZkp :
    decode 0b0000000_0_0000_0010_0001_0011_00100001 = some (.encryptZkp 3 1 2) := by decide
theorem test_decode_encryptR :
    decode 0b0000000_0_0000_0010_0001_0011_00100010 = some (.encryptR 3 1 2) := by decide
theorem test_decode_decrypt : decode 0b0000000_0_0000_0000_1111_0000_00110000 = some (.decrypt 0 15) := by decide

/-- VD-2 to VD-9, VD-11, VD-12. -/
theorem test_decode_illegal :
    [0x00000100, 0x0000000E, 0x000000FF, 0x80321001, 0x02000000, 0x01021003, 0x00121003, 0x00321004, 0x00007513,
      0x01001110].map (decode ·) = List.replicate 10 none := by decide

/-! ## One step of each command, on the spec's vectors -/

/-- VD-1, VD-2. -/
theorem test_nop : bank 0x00000000 (machine [] []) = some (KeyBank.empty, 0x00000002) := by decide
theorem test_nop_rd_illegal : bank 0x00000100 (machine [] []) = some (KeyBank.empty, 0x00000106) := by decide
/-- V40-1, V40-6. -/
theorem test_modexp : result 0x00321001 (machine [(1, 4), (2, 13), (3, 497)] []) 0 = some (445, 0x00000002) := by decide
theorem test_modexp_even :
    result 0x00321001 (machine [(1, 4), (2, 13), (3, 8)] []) 0 = some (0, 0x00000306) := by decide
/-- V40-10, V40-12. -/
theorem test_modmul : result 0x00321002 (machine [(1, 7), (2, 8), (3, 11)] []) 0 = some (1, 0x00000002) := by decide
theorem test_modmul_even :
    result 0x00321002 (machine [(1, 7), (2, 8), (3, 10)] []) 0 = some (0, 0x00000306) := by decide
/-- V40-14, V40-15. -/
theorem test_mul : result 0x00021003 (machine [(1, 2 ^ 64), (2, 2 ^ 63)] []) 0 = some (2 ^ 127, 0x00000002) := by decide
theorem test_mul_overflow :
    result 0x00021003 (machine [(1, 2 ^ 64), (2, 2 ^ 64)] []) 0 = some (0, 0x00000706) := by decide
/-- V41-2, V41-5. -/
theorem test_modinv : result 0x00301004 (machine [(1, 263), (3, 143)] []) 0 = some (87, 0x00000002) := by decide
theorem test_modinv_none : result 0x00301004 (machine [(1, 11), (3, 143)] []) 0 = some (0, 0x00000406) := by decide
/-- V41-8, V41-9. -/
theorem test_gcd : result 0x00021005 (machine [(1, 12), (2, 18)] []) 0 = some (6, 0x00000002) := by decide
theorem test_gcd_zeros : result 0x00021005 (machine [] []) 0 = some (0, 0x00000002) := by decide
/-- V43-1, V43-3. -/
theorem test_lcm : result 0x00021006 (machine [(1, 10), (2, 12)] []) 0 = some (60, 0x00000002) := by decide
theorem test_lcm_overflow :
    result 0x00021006 (machine [(1, 2 ^ 127), (2, 2 ^ 127 - 1)] []) 0 = some (0, 0x00000706) := by decide
/-- V43-5, V43-7. -/
theorem test_carm : result 0x00021007 (machine [(1, 11), (2, 13)] []) 0 = some (60, 0x00000002) := by decide
theorem test_carm_zero : result 0x00021007 (machine [(1, 0), (2, 13)] []) 0 = some (0, 0x00000606) := by decide
/-- V43-6, V43-11. -/
theorem test_carmS : result 0x01021007 (machine [(1, 11), (2, 13)] []) 0 = some (120, 0x00000002) := by decide
theorem test_carmS_overflow :
    result 0x01021007 (machine [(1, 2 ^ 64 + 1), (2, 2 ^ 64 + 1)] []) 0 = some (0, 0x00000706) := by decide
/-- V44-1, V44-2. -/
theorem test_lfunc : result 0x00301008 (machine [(1, 3290), (3, 143)] []) 0 = some (23, 0x00000002) := by decide
theorem test_lfunc_inexact : result 0x00301008 (machine [(1, 145), (3, 143)] []) 0 = some (0, 0x00000506) := by decide
/-- V42-4, V42-5. -/
theorem test_bitlen : result 0x00001009 (machine [(1, 143)] []) 0 = some (8, 0x00000002) := by decide
theorem test_bitlen_power : result 0x00001009 (machine [(1, 256)] []) 0 = some (9, 0x00000002) := by decide
/-- VR-5 (a composite passes one round), V42-12. -/
theorem test_primetest : result 0x0000100A (machine [(1, 2047)] [2]) 0 = some (1, 0x00000002) := by decide
theorem test_primetest_composite : result 0x0000100A (machine [(1, 561)] [2]) 0 = some (0, 0x00000002) := by decide
/-- V42-19; V42-24: no candidate has passed yet, so BUSY stays 1. -/
theorem test_genprime : result 0x0000100B (machine [(1, 4)] [0, 2, 2, 2]) 0 = some (11, 0x00000002) := by decide
theorem test_genprime_goes_on :
    result 0x0000100B { machine [(1, 4)] [0, 2, 0, 2] with loopBudget := 2 } 0 = some (0, 0x00000001) := by decide
/-- V42-25, V42-27. -/
theorem test_randbelow : result 0x0000100C (machine [(1, 143)] [2]) 0 = some (2, 0x00000002) := by decide
theorem test_randbelow_zero : result 0x0000100C (machine [] []) 0 = some (0, 0x00000606) := by decide
/-- V42-28, V42-30. -/
theorem test_randbits : result 0x0000100D (machine [(1, 8)] [165]) 0 = some (165, 0x00000002) := by decide
theorem test_randbits_wide : result 0x0000100D (machine [(1, 129)] []) 0 = some (0, 0x00000606) := by decide
/-- V45-5, V45-6. -/
theorem test_keygen : bank 0x00001010 (machine [(1, 8)] [2, 2, 5, 2, 2, 3]) = some (keyF, 0x00030002) := by decide
theorem test_keygen_alpha_zero :
    bank 0x00001010 (machine [(1, 8)] [2, 2, 5, 2, 0, 3]) = some (KeyBank.empty, 0x00000B06) := by decide
/-- V45-2, V45-15. -/
theorem test_keygenS :
    bank 0x01001010 (machine [(1, 8)] [2, 2, 2, 2, 2, 2, 5, 2]) = some (keyA, 0x00030002) := by decide
theorem test_keygenS_wide : bank 0x01001010 (machine [(1, 66)] []) = some (KeyBank.empty, 0x00000A06) := by decide
/-- V45-16, V45-17. -/
theorem test_keyloadPk : bank 0x00321011 (holding keyF (machine [(1, 143), (2, 20449), (3, 144)] [])) =
    some ((pkOnly (machine [] [])).blk.key, 0x00010002) := by decide
theorem test_keyloadPk_square :
    bank 0x00321011 (machine [(1, 143), (2, 20448), (3, 144)] []) = some (KeyBank.empty, 0x00000B06) := by decide
/-- V45-23, V45-24. -/
theorem test_keyloadSk : bank 0x00432112 (pkOnly (machine [(1, 120), (2, 87), (3, 11), (4, 13)] [])) =
    some (keyA, 0x00030002) := by decide
theorem test_keyloadSk_no_key :
    bank 0x00432112 (machine [(1, 120), (2, 87), (3, 11), (4, 13)] []) = some (KeyBank.empty, 0x00000806) := by decide
/-- V45-32, V45-33. -/
theorem test_keyget : result 0x00001513 (holding keyA (machine [] [])) 5 = some (20449, 0x00030002) := by decide
theorem test_keyget_7 : result 0x00007513 (holding keyA (machine [] [])) 5 = some (0, 0x00030106) := by decide
/-- V45-34. -/
theorem test_keyclr : bank 0x00000014 (holding keyA (machine [] [])) = some (KeyBank.empty, 0x00000002) := by decide
/-- V46-1, V46-4. -/
theorem test_encrypt :
    result 0x00001020 (holding keyA (machine [(1, 42)] [2])) 0 = some (12955, 0x00030002) := by decide
theorem test_encrypt_no_key : result 0x00001020 (machine [(1, 42)] []) 0 = some (0, 0x00000806) := by decide
/-- V46-6, VD-13. -/
theorem test_encryptZkp : (after 0x00021121 (holding keyA (machine [(1, 42)] [142]))).map
    (fun t => (t.blk.getX 1, t.blk.getX 2)) = some (14442, 142) := by decide
theorem test_encryptZkp_same : result 0x00001021 (machine [] []) 0 = some (0, 0x00000206) := by decide
/-- V46-16, V46-11. -/
theorem test_encryptR : result 0x00021022 (holding keyF (machine [(1, 42), (2, 2)] [])) 0 =
    some (15776, 0x00030002) := by decide
theorem test_encryptR_not_unit : result 0x00021022 (holding keyA (machine [(1, 5), (2, 11)] [])) 0 =
    some (0, 0x00030906) := by decide
/-- V47-13, V47-12. -/
theorem test_decrypt : result 0x00001030 (holding keyF (machine [(1, 15776)] [])) 0 = some (42, 0x00030002) := by decide
theorem test_decrypt_not_unit : result 0x00001030 (holding keyA (machine [(1, 4114)] [])) 0 =
    some (0, 0x00030506) := by decide

/-! ## The register window (V-MMIO) and the lifecycle (V-RST); MMIO_BASE is 0 -/

/-- The state after a 32-bit write, and the word a 32-bit read returns with the STATUS word after it. -/
def wr (off : Nat) (v : Word32) (s : State) : State := (s.busWrite .bits32 off v).getD s
def rd (off : Nat) (s : State) : Option (Word32 × Word32) :=
  (s.busRead .bits32 off).map fun p => (p.1, p.2.blk.statusWord)

/-- VM-2. -/
theorem test_param : rd 0x04 State.reset = some (0x07100004, 0) := by decide
/-- VM-7. -/
theorem test_ctrl_zero_rounds : rd 0x08 (wr 0x08 0 (wr 0x08 0x00000105 State.reset)) = some (0x00000005, 0) := by decide
/-- VM-8. -/
theorem test_id_write_refused : rd 0x00 (wr 0x00 0x12345678 State.reset) = some (0x5041494C, 0x00000010) := by decide
/-- VM-9, VM-11. -/
theorem test_misaligned : rd 0x02 State.reset = some (0, 0x00000010) := by decide
theorem test_reserved_offset : rd 0x20 State.reset = some (0, 0x00000010) := by decide
/-- VM-13. -/
theorem test_window_wrap :
    let s := wr 0x1C 0xAAAAAAAA (wr 0x18 0x80010003 State.reset)
    s.blk.winSelWord = 0x80010000 ∧ s.blk.getX 1 = 0xAAAAAAAA * 2 ^ 96 := by decide
/-- VM-15, VM-16. -/
theorem test_window_key_read :
    rd 0x1C (wr 0x18 0x00100000 (holding keyA State.reset)) = some (0x0000008F, 0x00030000) := by decide
theorem test_window_key_write_refused :
    let s := wr 0x1C 5 (wr 0x18 0x00100000 (holding keyA State.reset))
    s.blk.key = keyA ∧ s.blk.statusWord = 0x00030010 := by decide
/-- VM-19. -/
theorem test_window_one_word :
    (wr 0x1C 0 (wr 0x18 0x00020001 (machine [(2, 2 ^ 128 - 1)] []))).blk.getX 2 =
      0xFFFFFFFFFFFFFFFF00000000FFFFFFFF := by decide
/-- VM-20: the interrupt after a NOP with IRQ_EN, and after the acknowledgement. -/
theorem test_irq : (after 0 (wr 0x08 0x00000100 State.reset)).map (fun t => (t.blk.irq, t.acknowledge.blk.irq)) =
    some (true, false) := by decide
/-- VM-21, VR-2. -/
theorem test_soft_reset :
    (wr 0x08 0x80000000 (issued 0x0000100B (wr 0x0C 8 (machine [(1, 4)] [])))).blk = Block.reset := by decide
/-- VR-3. -/
theorem test_overrun :
    let s := wr 0x14 0 (issued 0x0000100B (machine [] []))
    s.blk.cmd = 0x0000100B ∧ s.blk.statusWord = 0x00000009 := by decide
/-- VR-4. -/
theorem test_window_busy : rd 0x1C (issued 0 (machine [] [])) = some (0, 0x00000011) := by decide
/-- P1, operation 0: WIN_SEL of LOAD x1. -/
theorem test_host_write :
    hostStep { State.reset with host := { prog := [.wr .bits32 0x18 (.lit 0x80010000)], pc := 0, vars := [] } } =
      .next { wr 0x18 0x80010000 State.reset with
        host := { prog := [.wr .bits32 0x18 (.lit 0x80010000)], pc := 1, vars := [] } } := rfl
/-- R42. -/
theorem test_reset_status : State.reset.blk.statusWord = 0 ∧ State.reset.blk.ctrlWord = 0x40 := by decide

/-! ## Witnesses: each statement's hypotheses, clause by clause, hold of a concrete state and operands -/

theorem witness_DecodeOfEncodeIsTheInstruction :
    (Instr.keyget 15 6).wellFormed = true ∧ (Instr.modexp 15 15 15 15).wellFormed = true := by decide

theorem witness_EncodeOfDecodeIsTheWord : decode 0x00FFFF01 = some (.modexp 15 15 15 15) := by decide

/-- An accepted word, the largest index KEYGET's row accepts, and a latched word no row matches. -/
theorem witness_DecodeMatchesTheMaskMatchRows :
    rowMatches 0x00006513 (0xFFFF00FF, 0x00000013) = true ∧ (0x00006513 : Word32) &&& 0xFFFF00FF = 0x00000013 ∧
    (issued 0x00007513 State.reset).blk.latch.map Latch.word = some 0x00007513 ∧
    (opcodeRows.all fun row => !rowMatches 0x00007513 row) = true := by decide

/-- The ends of each range of R96. -/
theorem witness_UnassignedOpcodesCompleteIllegal :
    (issued 0x0000000E State.reset).blk.latch.isSome = true ∧
    [0x0E, 0x0F, 0x15, 0x1F, 0x23, 0x2F, 0x31, 0xFF].map (fun w => ((w : Word32).extractLsb' 0 8).toNat) =
      [0x0E, 0x0F, 0x15, 0x1F, 0x23, 0x2F, 0x31, 0xFF] := by decide

/-- For every assigned opcode a latched word with RSV bit 31 set is matched by no row. -/
theorem witness_OthersIllegal :
    ([0x00, 0x01, 0x02, 0x03, 0x04, 0x05, 0x06, 0x07, 0x08, 0x09, 0x0A, 0x0B, 0x0C, 0x0D, 0x10, 0x11, 0x12, 0x13, 0x14,
      0x20, 0x21, 0x22, 0x30].all fun op => opcodeRows.all fun row =>
        !rowMatches (0x80000000 ||| op) row && (0x80000000 ||| op : Word32).extractLsb' 0 8 == op.setWidth 8) = true ∧
    (issued 0x80000001 State.reset).blk.latch.isSome = true := ⟨rfl, rfl⟩

/-- The three events, and an engine step with a decodable word, an illegal word and no word. -/
theorem witness_StepRunsTheDecodedCommand :
    (State.nextEvent { State.reset with sched := { events := [.engine], ix := 0 } }).1 = .engine ∧
    (State.nextEvent { State.reset with sched := { events := [.host], ix := 0 } }).1 = .host ∧
    (State.nextEvent { State.reset with sched := { events := [.powerOn], ix := 0 } }).1 = .powerOn ∧
    (issued 0 State.reset).blk.latch.map Latch.word = some 0 ∧ decode 0 = some .nop ∧
    (issued 0xFF State.reset).blk.latch.map Latch.word = some 0xFF ∧ decode 0xFF = none ∧
    State.reset.blk.latch = none := by decide

theorem witness_ModexpWritesThePower :
    (machine [(3, 1)] []).blk.getX 3 % 2 = 1 ∧ (machine [] []).blk.getX 3 = 0 ∧
    (machine [(3, 2)] []).blk.getX 3 % 2 = 0 := by decide
theorem witness_ModmulWritesTheProduct :
    (machine [(3, 1)] []).blk.getX 3 % 2 = 1 ∧ (machine [] []).blk.getX 3 = 0 ∧
    (machine [(3, 2)] []).blk.getX 3 % 2 = 0 := by decide

/-- The products 2^WREG − 1 and 2^WREG. -/
theorem witness_MulWritesOrOverflows :
    (machine [(1, 2 ^ 128 - 1), (2, 1)] []).blk.getX 1 * (machine [(1, 2 ^ 128 - 1), (2, 1)] []).blk.getX 2 <
      2 ^ State.reset.cfg.wreg ∧
    2 ^ State.reset.cfg.wreg ≤
      (machine [(1, 2 ^ 64), (2, 2 ^ 64)] []).blk.getX 1 * (machine [(1, 2 ^ 64), (2, 2 ^ 64)] []).blk.getX 2 := by decide

theorem witness_ModinvWritesTheInverse :
    (machine [(1, 3)] []).blk.getX 3 = 0 ∧
    (0 < (machine [(3, 7)] []).blk.getX 3 ∧
      Nat.gcd ((machine [(3, 7)] []).blk.getX 1 % (machine [(3, 7)] []).blk.getX 3)
        ((machine [(3, 7)] []).blk.getX 3) ≠ 1) ∧
    (0 < (machine [(1, 5), (3, 1)] []).blk.getX 3 ∧
      Nat.gcd ((machine [(1, 5), (3, 1)] []).blk.getX 1 % (machine [(1, 5), (3, 1)] []).blk.getX 3)
        ((machine [(1, 5), (3, 1)] []).blk.getX 3) = 1) := by decide

theorem witness_GcdWritesTheGreatestCommonDivisor :
    (machine [] []).blk.getX 1 = 0 ∧ (machine [] []).blk.getX 2 = 0 ∧ 5 ∣ (machine [(1, 10), (2, 5)] []).blk.getX 1 ∧
    5 ∣ (machine [(1, 10), (2, 5)] []).blk.getX 2 := by decide

theorem witness_LcmWritesOrOverflows :
    Nat.lcm 10 12 < 2 ^ State.reset.cfg.wreg ∧ 2 ^ State.reset.cfg.wreg ≤ Nat.lcm (2 ^ 127) (2 ^ 127 - 1) := by decide

/-- p = 0, q = 0, and with both positive a fitting and an overflowing exponent of each variant. -/
theorem witness_CarmWritesTheExponent :
    (machine [(2, 13)] []).blk.getX 1 = 0 ∧ (machine [(1, 11)] []).blk.getX 2 = 0 ∧
    0 < (machine [(1, 1)] []).blk.getX 1 ∧ Nat.lcm (11 - 1) (13 - 1) < 2 ^ State.reset.cfg.wreg ∧
    2 ^ State.reset.cfg.wreg ≤ Nat.lcm (2 ^ 127 - 1) (2 ^ 127 + 1 - 1) ∧
    (11 - 1) * (13 - 1) < 2 ^ State.reset.cfg.wreg ∧
    2 ^ State.reset.cfg.wreg ≤ (2 ^ 64 + 1 - 1) * (2 ^ 64 + 1 - 1) := by decide

theorem witness_LfuncIsExactOrFails :
    (machine [(1, 5)] []).blk.getX 3 = 0 ∧
    (0 < (machine [(3, 143)] []).blk.getX 3 ∧ (machine [(3, 143)] []).blk.getX 1 = 0) ∧
    (0 < (machine [(1, 145), (3, 143)] []).blk.getX 3 ∧
      ((machine [(1, 145), (3, 143)] []).blk.getX 1 - 1) % (machine [(1, 145), (3, 143)] []).blk.getX 3 ≠ 0) ∧
    (0 < (machine [(1, 1), (3, 143)] []).blk.getX 3 ∧
      (machine [(1, 1), (3, 143)] []).blk.getX 1 = 1 + 0 * (machine [(1, 1), (3, 143)] []).blk.getX 3) := by decide

theorem witness_BitlenWritesTheWidth :
    (machine [] []).blk.getX 1 = 0 ∧ 0 < (machine [(1, 1)] []).blk.getX 1 := by decide

theorem witness_PrimetestWritesTheTestResult :
    (issued 0x0000100A (machine [(1, 9)] [2])).blk.latch =
      some { word := 0x0000100A, rounds := 1, minBits := 8 } := by decide

/-- c = 0, 1, 2, 3, 4, and c = 9 = 1 + 2^3 · 1 with a passing base 8 and a failing base 2. -/
theorem witness_MillerRabinFollowsTheProcedure :
    1 < 2 ∧ 4 % 2 = 0 ∧ 5 ≤ 9 ∧ 9 % 2 = 1 ∧ 9 - 1 = 2 ^ 3 * 1 ∧ 1 % 2 = 1 ∧
    (draw 2 7 { answers := [3], ix := 0 }).1 = 3 ∧ ¬ (3 ^ 1 % 9 = 1 ∨ ∃ j, j < 3 ∧ 3 ^ (2 ^ j * 1) % 9 = 9 - 1) ∧
    5 ≤ 5 ∧ 5 - 1 = 2 ^ 2 * 1 ∧ (draw 2 3 { answers := [2], ix := 0 }).1 = 2 ∧ 1 < 2 ∧ 2 ^ (2 ^ 1 * 1) % 5 = 5 - 1 := by
  decide

theorem witness_PrimesPassUnderEveryDraw : Nat.Prime 2 ∧ Nat.Prime 5 ∧ Nat.Prime 65537 := by norm_num

/-- Widths 1 and 129 refused, 2 and 128 accepted, a search that has ended and one that has not. -/
theorem witness_GenprimeWritesThePrimeFound :
    (issued 0x0000100B (machine [(1, 4)] [0, 2, 2, 2])).blk.latch.isSome = true ∧ (machine [(1, 1)] []).blk.getX 1 < 2 ∧
    State.reset.cfg.wreg < (machine [(1, 129)] []).blk.getX 1 ∧ 2 ≤ (machine [(1, 2)] []).blk.getX 1 ∧
    (machine [(1, 128)] []).blk.getX 1 ≤ State.reset.cfg.wreg ∧
    genPrime 64 4 1 { answers := [0, 2, 2, 2], ix := 0 } = some (11, { answers := [], ix := 0 }) ∧
    genPrime 2 4 1 { answers := [0, 2, 0, 2], ix := 0 } = none := by decide

/-- R156's example, u = 0 (9 fails base 2) and then u = 2 (11 passes it); width 2 gives 3. A pair of 8 bits: 11 · 11 = 121
is too narrow and is drawn again, 11 · 13 = 143 is returned; p or q not found in one candidate. -/
theorem witness_SearchesFollowTheRetryLoops :
    (draw 0 (2 ^ 4 - 1) { answers := [0, 2], ix := 0 }) = (0, { answers := [2], ix := 0 }) ∧
    (millerRabin (0 ||| 2 ^ (4 - 1) ||| 1) 1 { answers := [2], ix := 0 }).1 = false ∧
    (draw 0 (2 ^ 4 - 1) { answers := [2, 2], ix := 0 }) = (2, { answers := [2], ix := 0 }) ∧
    (millerRabin (2 ||| 2 ^ (4 - 1) ||| 1) 1 { answers := [2], ix := 0 }).1 = true ∧
    genPrime 1 2 1 { answers := [0], ix := 0 } = some (3, { answers := [], ix := 0 }) ∧
    4 ≤ 8 ∧ genPrime 1 4 1 { answers := [0, 2], ix := 0 } = none ∧
    genPrime 1 4 1 { answers := [2, 2, 0, 2], ix := 0 } = some (11, { answers := [0, 2], ix := 0 }) ∧
    genPrime 1 4 1 { answers := [2, 2, 5, 2], ix := 0 } = some (11, { answers := [5, 2], ix := 0 }) ∧
    genPrime 1 4 1 { answers := [5, 2], ix := 0 } = some (13, { answers := [], ix := 0 }) ∧
    11 * 11 < 2 ^ (8 - 1) ∧ 2 ^ (8 - 1) ≤ 11 * 13 ∧ 11 * 13 < 2 ^ 8 ∧
    primePair 2 2 8 1 { answers := [2, 2, 2, 2, 2, 2, 5, 2], ix := 0 } =
      some ((11, 13), { answers := [], ix := 0 }) := by decide

theorem witness_LargerBudgetSameResult :
    2 ≤ 3 ∧ genPrime 2 4 1 { answers := [0, 2, 2, 2], ix := 0 } = some (11, { answers := [], ix := 0 }) ∧
    primePair 2 2 8 1 { answers := [2, 2, 2, 2, 2, 2, 5, 2], ix := 0 } =
      some ((11, 13), { answers := [], ix := 0 }) := by decide

theorem witness_EndingLoopCompletes :
    (issued 0x0000100B (machine [(1, 4)] [0, 2, 2, 2])).blk.latch.isSome = true ∧
    2 ≤ (machine [(1, 4)] []).blk.getX 1 ∧ (machine [(1, 4)] []).blk.getX 1 ≤ State.reset.cfg.wreg ∧
    genPrime 2 4 1 (issued 0x0000100B (machine [(1, 4)] [0, 2, 2, 2])).entropy =
      some (11, { answers := [], ix := 0 }) ∧
    (issued 0x01001010 (machine [(1, 8)] [0, 2, 2, 2, 5, 2])).blk.latch =
      some { word := 0x01001010, rounds := 1, minBits := 8 } ∧
    ¬ (8 % 2 = 1 ∨ 8 < 4 ∨ 8 < (8 : Word32).toNat ∨ State.reset.cfg.keyBitsMax < 8) ∧
    primePair 2 1 8 1 (issued 0x01001010 (machine [(1, 8)] [0, 2, 2, 2, 5, 2])).entropy =
      some ((11, 13), { answers := [], ix := 0 }) := by decide

theorem witness_RandbelowDrawsBelowTheBound :
    (machine [] []).blk.getX 1 = 0 ∧ 0 < (machine [(1, 1)] []).blk.getX 1 ∧ 142 < (machine [(1, 143)] [142]).blk.getX 1 ∧
    (machine [(1, 143)] [142]).entropy.answers = 142 :: [] := by decide

theorem witness_RandbitsDrawsWBits :
    State.reset.cfg.wreg < (machine [(1, 129)] []).blk.getX 1 ∧
    (machine [(1, 128)] []).blk.getX 1 ≤ State.reset.cfg.wreg ∧
    255 < 2 ^ (machine [(1, 8)] [255]).blk.getX 1 ∧ (machine [(1, 8)] [255]).entropy.answers = 255 :: [] := by decide

/-- Bit lengths 7, 2, 6 (below MINBITS 8) and 66 refused; 8 accepted, with a search that has ended and one that has
not; gcd(λ, n) is 1 for 11 and 13, and 5 for 25 (which passes base 7) and 31. -/
theorem witness_KeygenSInstallsTheSimpleKey :
    (issued 0x01001010 (machine [(1, 8)] [0, 2, 2, 2, 5, 2])).blk.latch =
      some { word := 0x01001010, rounds := 1, minBits := 8 } ∧
    7 % 2 = 1 ∧ 2 < 4 ∧ 6 < (8 : Word32).toNat ∧ State.reset.cfg.keyBitsMax < 66 ∧
    ¬ (8 % 2 = 1 ∨ 8 < 4 ∨ 8 < (8 : Word32).toNat ∨ State.reset.cfg.keyBitsMax < 8) ∧
    primePair 64 64 8 1 { answers := [0, 2, 2, 2, 5, 2], ix := 0 } = some ((11, 13), { answers := [], ix := 0 }) ∧
    primePair 1 1 8 1 { answers := [0, 2], ix := 0 } = none ∧
    Nat.gcd ((11 - 1) * (13 - 1)) (11 * 13) = 1 ∧
    primePair 64 64 10 1 { answers := [25, 7, 31, 2], ix := 0 } = some ((25, 31), { answers := [], ix := 0 }) ∧
    Nat.gcd ((25 - 1) * (31 - 1)) (25 * 31) ≠ 1 := by decide

/-- As for KEYGEN.S; V45-5 completes, V45-6 (L = 0), V45-8 (x = 0) and V45-9 (not
exact) raise the error. -/
theorem witness_KeygenInstallsTheFullKey :
    (issued 0x00001010 (machine [(1, 8)] [2, 2, 5, 2, 2, 3])).blk.latch =
      some { word := 0x00001010, rounds := 1, minBits := 8 } ∧
    ¬ (8 % 2 = 1 ∨ 8 < 4 ∨ 8 < (8 : Word32).toNat ∨ State.reset.cfg.keyBitsMax < 8) ∧
    primePair 64 64 8 1 { answers := [2, 2, 5, 2, 2, 3], ix := 0 } = some ((11, 13), { answers := [2, 3], ix := 0 }) ∧
    primePair 1 1 8 1 { answers := [0, 2], ix := 0 } = none ∧
    ((7453 : Nat) : Int) = ((2 : Int) * 143 - 1) % 20449 * ((3 ^ 143 % 20449 : Nat) : Int) % 20449 ∧
    1 ≤ 7453 ^ 60 % 20449 ∧ (7453 ^ 60 % 20449 - 1) % 143 = 0 ∧ Nat.gcd ((7453 ^ 60 % 20449 - 1) / 143) 143 = 1 ∧
    ((12315 : Nat) : Int) = ((0 : Int) * 143 - 1) % 20449 * ((3 ^ 143 % 20449 : Nat) : Int) % 20449 ∧
    Nat.gcd ((12315 ^ 60 % 20449 - 1) / 143) 143 ≠ 1 ∧
    ((0 : Nat) : Int) = ((2 : Int) * 143 - 1) % 20449 * ((0 ^ 143 % 20449 : Nat) : Int) % 20449 ∧
    0 ^ 60 % 20449 = 0 ∧
    ((3380 : Nat) : Int) = ((2 : Int) * 143 - 1) % 20449 * ((13 ^ 143 % 20449 : Nat) : Int) % 20449 ∧
    (3380 ^ 60 % 20449 - 1) % 143 ≠ 0 := by decide

theorem witness_SimpleVariantNeverFailsOnPrimes :
    badBitLength (issued 0x01001010 (machine [(1, 8)] [0, 2, 2, 2, 5, 2])) 8 = false ∧
    primePair 64 64 8 1 { answers := [0, 2, 2, 2, 5, 2], ix := 0 } = some ((11, 13), { answers := [], ix := 0 }) ∧
    primePair 64 64 8 1 { answers := [5, 2, 5, 2], ix := 0 } = some ((13, 13), { answers := [], ix := 0 }) := by decide
theorem witness_primes_11_13 : Nat.Prime 11 ∧ Nat.Prime 13 := by norm_num

/-- V45-16 meets every condition; n = 2, n even, n2 not n², g = n2, and g = 0 each break one. -/
theorem witness_KeyloadPkInstallsOrRefuses :
    (3 ≤ 143 ∧ 143 % 2 = 1 ∧ 20449 = 143 * 143 ∧ 144 < 20449 ∧ Nat.gcd 144 143 = 1) ∧
    (3 ≤ 3 ∧ 3 % 2 = 1 ∧ 9 = 3 * 3 ∧ 1 < 9 ∧ Nat.gcd 1 3 = 1) ∧ ¬ 3 ≤ 2 ∧ ¬ 144 % 2 = 1 ∧ ¬ 20448 = 143 * 143 ∧
    ¬ 20449 < 20449 ∧ ¬ Nat.gcd 0 143 = 1 := by decide

/-- No public key; V45-23 meets every condition; V45-31, V45-28 and V45-25 each break one. -/
theorem witness_KeyloadSkInstallsOrRefuses :
    (machine [] []).blk.pkValid = false ∧ (pkOnly (machine [] [])).blk.pkValid = true ∧
    (11 * 13 = 143 ∧ 120 = (11 - 1) * (13 - 1) ∧ 87 < 143 ∧ 1 ≤ 144 ^ 120 % 20449 ∧ (144 ^ 120 % 20449 - 1) % 143 = 0 ∧
      87 * ((144 ^ 120 % 20449 - 1) / 143) % 143 = 1) ∧
    ¬ (240 = (11 - 1) * (13 - 1) ∨ 240 = Nat.lcm (11 - 1) (13 - 1)) ∧ ¬ 143 < 143 ∧
    ¬ 86 * ((144 ^ 120 % 20449 - 1) / 143) % 143 = 1 := by decide

theorem witness_KeygetCopiesTheField :
    (issued 0x00007513 State.reset).blk.latch.isSome = true ∧ (0x00007513 : Word32).extractLsb' 0 8 = 0x13 ∧
    7 ≤ ((0x00007513 : Word32).extractLsb' 12 4).toNat := by decide

theorem witness_EncryptWritesTheCiphertext :
    (machine [] []).blk.pkValid = false ∧ (holding keyA (machine [] [2])).blk.pkValid = true ∧
    3 ≤ (holding keyA (machine [] [2])).blk.key.n ∧ 142 ≤ (holding keyA (machine [] [142])).blk.key.n - 1 ∧
    (holding keyA (machine [] [142])).entropy.answers = 142 :: [] := by decide

theorem witness_EncryptZkpWritesCiphertextAndRandomness :
    (0 : RegNum) ≠ 2 ∧ (machine [] []).blk.pkValid = false ∧ (holding keyA (machine [] [2])).blk.pkValid = true ∧
    3 ≤ (holding keyA (machine [] [2])).blk.key.n ∧ 2 ≤ 2 ∧ 2 ≤ (holding keyA (machine [] [2])).blk.key.n - 1 ∧
    (holding keyA (machine [] [2])).entropy.answers = 2 :: [] := by decide

/-- r = 0, r = n and r = 11 are refused; r = n − 1 is not. -/
theorem witness_EncryptRWritesTheCiphertext :
    (machine [] []).blk.pkValid = false ∧ (holding keyA (machine [] [])).blk.pkValid = true ∧
    (holding keyA (machine [] [])).blk.getX 2 = 0 ∧ keyA.n ≤ 143 ∧ Nat.gcd 11 keyA.n ≠ 1 ∧
    ¬ (142 = 0 ∨ keyA.n ≤ 142 ∨ Nat.gcd 142 keyA.n ≠ 1) := by decide

/-- c = n2 refused; c = 0 (x = 0) and c = 4114 not exact; c = n2 − 1 decrypts. -/
theorem witness_DecryptWritesThePlaintext :
    (pkOnly (machine [] [])).blk.skValid = false ∧ (holding keyA (machine [] [])).blk.skValid = true ∧
    keyA.n2 ≤ 20449 ∧ 0 ^ keyA.lambda % keyA.n2 = 0 ∧ (4114 ^ keyA.lambda % keyA.n2 - 1) % keyA.n ≠ 0 ∧
    20448 < keyA.n2 ∧ 1 ≤ 20448 ^ keyA.lambda % keyA.n2 ∧ (20448 ^ keyA.lambda % keyA.n2 - 1) % keyA.n = 0 := by decide

/-- A running command that ends in an error; the frames' hypotheses. -/
theorem witness_ErrorWritesOnlyStatus :
    let s := issued 0x00321001 (machine [(1, 4)] [])
    (Instr.modexp 0 1 2 3).wellFormed = true ∧ s.blk.busy = true ∧
    (match exec (.modexp 0 1 2 3) s with | .next t => t.blk.err && !t.blk.busy | _ => false) = true := by decide
theorem witness_OnlyDestinationRegistersChange :
    (∃ t, exec (.encryptZkp 0 1 2) (holding keyA (machine [(1, 42)] [2])) = .next t) ∧
    (1 : RegNum) ∉ (Instr.encryptZkp 0 1 2).dests := ⟨exec_next _ _, by decide⟩
theorem witness_OnlyKeyCommandsChangeTheBank :
    (∃ t, exec (.keyget 0 1) (holding keyA (machine [] [])) = .next t) ∧ (Instr.keyget 0 1).writesBank = false :=
  ⟨exec_next _ _, by decide⟩
theorem witness_CommandsLeaveHostRegistersAlone :
    ∃ t, exec (.keygen 1) (issued 0x00001010 (machine [(1, 8)] [2, 2, 5, 2, 2, 3])) = .next t := exec_next _ _
theorem witness_RunningCommandIgnoresPolicyWrites :
    (issued 0x0000100A (machine [(1, 2047)] [2])).blk.latch = some { word := 0x0000100A, rounds := 1, minBits := 8 } ∧
    ∃ t, exec (.primetest 0 1) (issued 0x0000100A (machine [(1, 2047)] [2])) = .next t := ⟨by decide, exec_next _ _⟩

theorem witness_CmdWriteIssuesOrOverruns :
    State.reset.blk.latch = none ∧ (issued 0 State.reset).blk.latch.isSome = true := by decide

theorem witness_CtrlReadsWritesAndSoftResets :
    (0x80000105 : Word32).getLsbD 31 = true ∧ (0x00000105 : Word32).getLsbD 31 = false ∧
    (0x00000105 : Word32).extractLsb' 0 8 ≠ 0 ∧ (0x00000100 : Word32).getLsbD 31 = false ∧
    (0x00000100 : Word32).extractLsb' 0 8 = 0 := by decide

theorem witness_PlainRegistersReadAndWrite :
    State.reset.cfg.Valid ∧ ({ keyBitsMax := 65536, mmioBase := 64 } : Config).Valid := by decide

theorem witness_RefusedAccessSetsAccessErrOnly :
    AccessWidth.bits8 ≠ .bits32 ∧ 63 < 64 ∧ 2 % 4 ≠ 0 ∧ 0x20 ≤ 0x20 ∧ 0x3C < 64 := by decide

/-- Busy, REG 23, WORD = NW; an operand register and each key-bank field with WORD = NW − 1. -/
theorem witness_WindowReadReturnsTheWord :
    (issued 0 State.reset).blk.latch ≠ none ∧ 22 < (wr 0x18 0x00170000 State.reset).blk.winReg.toNat ∧
    State.reset.cfg.nw ≤ (wr 0x18 0x00000004 State.reset).blk.winWord.toNat ∧
    (wr 0x18 0x000F0003 State.reset).blk.latch = none ∧
    (wr 0x18 0x000F0003 State.reset).blk.winWord.toNat < State.reset.cfg.nw ∧
    (15 : RegNum).val = (wr 0x18 0x000F0003 State.reset).blk.winReg.toNat ∧
    [0x00100003, 0x00110003, 0x00120003, 0x00130003, 0x00140003, 0x00150003, 0x00160003].map
      (fun v => (wr 0x18 v State.reset).blk.winReg.toNat) = [16, 17, 18, 19, 20, 21, 22] := by decide

theorem witness_WindowWriteReplacesTheWord :
    (issued 0 State.reset).blk.latch ≠ none ∧ 15 < (wr 0x18 0x00100000 State.reset).blk.winReg.toNat ∧
    State.reset.cfg.nw ≤ (wr 0x18 0x00000004 State.reset).blk.winWord.toNat ∧
    (wr 0x18 0x000F0003 State.reset).blk.latch = none ∧
    (wr 0x18 0x000F0003 State.reset).blk.winWord.toNat < State.reset.cfg.nw ∧
    (15 : RegNum).val = (wr 0x18 0x000F0003 State.reset).blk.winReg.toNat := by decide

theorem witness_ReplacedWordReadsBackOthersKept : 0 ≠ 3 ∧ 3 < 4 ∧ 2 ^ 128 - 1 < 2 ^ (32 * 4) := by decide

/-- A host write while a command runs. -/
def pollingHost : HostState :=
  { prog := [.wr .bits32 0x1C (.lit 5), .rd .bits32 0x10 0, .poll, .branch (.var 0) 7, .compute 1 (.lit 2),
      .rd .bits32 64 0, .wr .bits32 64 (.lit 0)], pc := 0, vars := [] }

theorem witness_HostCannotDisturbKeyOrRunningCommand :
    (issued 0 { State.reset with host := pollingHost }).blk.busy = true ∧
    ∃ t, hostStep (issued 0 { State.reset with host := pollingHost }) = .next t := ⟨by decide, _, rfl⟩

theorem witness_ResetStateAndAbort : (0x80000000 : Word32).getLsbD 31 = true := by decide

theorem witness_InterruptFollowsDoneAndEnable :
    (issued 0 State.reset).blk.busy = true ∧
    (match exec .nop (issued 0 State.reset) with | .next t => !t.blk.busy | _ => false) = true ∧
    (match engineStep (issued 0x00000100 State.reset) with | .next t => !t.blk.busy | _ => false) = true ∧
    (issued 0x00000100 State.reset).blk.latch.map Latch.word = some 0x00000100 ∧ decode 0x00000100 = none ∧
    (0x00000100 : Word32).getLsbD 8 = true ∧ (0x00000100 : Word32).getLsbD 31 = false ∧
    (0x00000002 : Word32).getLsbD 1 = true ∧ (0x00000040 : Word32).getLsbD 8 = false ∧ State.reset.blk.busy = false ∧
    (State.reset.busWrite .bits32 0x08 0x00000100).isSome = true ∧
    (State.reset.busWrite .bits32 0x10 0x00000002).isSome = true ∧
    (State.reset.busWrite .bits32 0x14 0x00000000).isSome = true ∧
    (State.reset.busWrite .bits32 0x08 0x00000040).isSome = true := by decide

/-- One operation of each form, accesses in and outside the window, and the end of the program. -/
theorem witness_HostOperationsMoveThePc :
    pollingHost.prog[0]? = some (.wr .bits32 0x1C (.lit 5)) ∧ pollingHost.prog[1]? = some (.rd .bits32 0x10 0) ∧
    pollingHost.prog[2]? = some .poll ∧ pollingHost.prog[3]? = some (.branch (.var 0) 7) ∧
    pollingHost.prog[4]? = some (.compute 1 (.lit 2)) ∧ pollingHost.prog[5]? = some (.rd .bits32 64 0) ∧
    pollingHost.prog[6]? = some (.wr .bits32 64 (.lit 0)) ∧ pollingHost.prog[7]? = none ∧
    (State.reset.busRead .bits32 0x10).isSome = true ∧ (State.reset.busWrite .bits32 0x1C 5).isSome = true ∧
    State.reset.blk.latch = none ∧ (issued 0 State.reset).blk.latch ≠ none := by decide

theorem witness_WindowProgramsNeverStop :
    { State.reset with host := { prog := [.rd .bits32 63 0, .wr .bits8 0 (.lit 1), .poll], pc := 0, vars := [] } }.HostSafe := by
  unfold State.HostSafe; decide

/-! ### A weakly fair run -/

/-- The state after one step, if there is one. -/
def nextOf (s : State) : State :=
  match step s with
  | .next t => t
  | _ => s

/-- NOP loaded after reset, and then whatever events come; there is no host program. -/
def nopRun : Nat → State
  | 0 => State.reset.withFetchWord 32 0
  | n + 1 => nextOf (nopRun n)

/-- Without a host program a step gives a next state, and a latch once empty stays empty. -/
theorem idle_step {s : State} (hp : s.host.prog = []) :
    step s = .next (nextOf s) ∧ (nextOf s).host.prog = [] ∧ (s.blk.latch = none → (nextOf s).blk.latch = none) := by
  obtain ⟨sc, hsc⟩ := s.nextEvent_frame
  have hh : hostStep { s with sched := sc } = .next { s with sched := sc } := by simp [hostStep, hp]
  obtain ⟨t, ht⟩ : ∃ t, step s = .next t := by
    rw [step, hsc]
    cases s.nextEvent.1
    · exact ⟨_, hh⟩
    · exact engineStep_next _
    · exact ⟨_, rfl⟩
  rw [nextOf, ht]
  refine ⟨rfl, ?_⟩
  obtain ⟨sc, rfl | h | h⟩ := step_cases ht
  · exact ⟨hp, fun _ => rfl⟩
  · rw [show hostStep { s with sched := sc } = .next { s with sched := sc } by simp [hostStep, hp]] at h
    cases h; exact ⟨hp, id⟩
  · rcases engineStep_cases { s with sched := sc } with ⟨-, he⟩ | ⟨l, hl, he⟩
    · rw [h] at he; cases he; exact ⟨hp, id⟩
    · refine ⟨?_, fun hn => by rw [hl] at hn; cases hn⟩
      rcases he with ⟨-, he⟩ | ⟨i, -, he⟩
      · rw [h] at he; cases he; exact hp
      · rcases exec_ends i { s with sched := sc } with ⟨-, h'⟩ | ⟨en, c, h', -⟩ <;> rw [h, h'] at he <;> cases he
        · exact hp
        · cases c <;> exact hp

theorem nopRun_prog : ∀ n, (nopRun n).host.prog = []
  | 0 => rfl
  | n + 1 => (idle_step (nopRun_prog n)).2.1

theorem nopRun_idle : ∀ n, (nopRun (n + 1)).blk.latch = none
  | 0 => rfl
  | n + 1 => (idle_step (nopRun_prog (n + 1))).2.2 (nopRun_idle n)

/-- An illegal word; a command without a loop; GENPRIME refused for its width, and with a width and draws that end its
loop; KEYGEN refused for its bit length, and with draws that end its loop; and a weakly fair run in which NOP's completion
step is enabled at the start. -/
theorem witness_FairRunsCompleteEnabledCommands :
    decode 0x00000100 = none ∧ decode 0x00000000 = some .nop ∧ Instr.nop.loops = false ∧
    decode 0x0000100B = some (.genprime 0 1) ∧ (machine [(1, 1)] []).blk.getX 1 < 2 ∧
    2 ≤ (machine [(1, 4)] []).blk.getX 1 ∧ (machine [(1, 4)] []).blk.getX 1 ≤ State.reset.cfg.wreg ∧
    genPrime 2 4 1 { answers := [0, 2, 2, 2], ix := 0 } = some (11, { answers := [], ix := 0 }) ∧
    decode 0x00001010 = some (.keygen 1) ∧ decode 0x01001010 = some (.keygenS 1) ∧ 7 % 2 = 1 ∧
    ¬ (8 % 2 = 1 ∨ 8 < 4 ∨ 8 < (8 : Word32).toNat ∨ State.reset.cfg.keyBitsMax < 8) ∧
    primePair 2 1 8 1 { answers := [0, 2, 2, 2, 5, 2], ix := 0 } = some ((11, 13), { answers := [], ix := 0 }) ∧
    IsRun nopRun ∧ WeaklyFair nopRun ∧ (nopRun 0).CompletionEnabled := by
  refine ⟨by decide, by decide, rfl, by decide, by decide, by decide, by decide, by decide, by decide, by decide,
    rfl, by decide, by decide, fun n => (idle_step (nopRun_prog n)).1, fun n h => ?_, rfl, 0, _, rfl, rfl⟩
  have hb := (h (n + 1) (Nat.le_succ n)).1
  simp [Block.busy, nopRun_idle n] at hb

theorem witness_InvariantHoldsAtReset : Config.example64.Valid := by decide

/-! ### States inside the invariant -/

theorem keyA_public : keyA.PublicOk := ⟨by decide, by decide, by decide, by decide, by decide⟩
theorem keyA_private : keyA.PrivateOk :=
  ⟨by decide, .inl (by decide), by decide, by decide, by decide, by decide⟩

/-- Key A in the bank, a command latched, the engine next. -/
def running : State :=
  (holding keyA (machine [(1, 42), (2, 2)] [])).withFetchWord 32 0x00021022

theorem running_steps : ∃ t, step running = .next t := ⟨_, rfl⟩

theorem witness_StepKeepsTheKeyBankInvariant : running.blk.KeyInv ∧ ∃ t, step running = .next t :=
  ⟨⟨fun _ => keyA_public, fun _ => ⟨rfl, keyA_private⟩, nofun, nofun⟩, running_steps⟩

theorem witness_StepKeepsTheWholeInvariant : running.Inv ∧ ∃ t, step running = .next t :=
  ⟨⟨by decide, ⟨by decide, by decide, by decide, by decide, by decide, by decide, by decide, by decide⟩,
    witness_StepKeepsTheKeyBankInvariant.1, ⟨by decide, by decide, by decide⟩,
    ⟨by decide, fun l h => by cases h; decide⟩, by decide⟩, running_steps⟩

/-- m = 42 and r = 2, and the ends m = 142, r = 142. -/
theorem witness_DecryptInvertsEncrypt :
    running.blk.pkValid = true ∧ running.blk.skValid = true ∧ running.blk.key = keyA ∧ keyA.PublicOk ∧ keyA.PrivateOk ∧
    keyA.p.Prime ∧ keyA.q.Prime ∧ keyA.p ≠ keyA.q ∧ running.blk.getX 1 < keyA.n ∧ 0 < running.blk.getX 2 ∧
    running.blk.getX 2 < keyA.n ∧ Nat.gcd (running.blk.getX 2) keyA.n = 1 ∧ Nat.gcd 142 keyA.n = 1 ∧
    ∃ t, exec (.encryptR 0 1 2) running = .next t :=
  ⟨by decide, by decide, by decide, keyA_public, keyA_private, witness_primes_11_13.1, witness_primes_11_13.2, by decide,
    by decide, by decide, by decide, by decide, by decide, exec_next _ _⟩

/-- V47-8 and V47-9: the ciphertexts of 5 and 7 with r = 3 and 5, and the modulus n2. -/
theorem witness_CiphertextsAddAndScale :
    let s := holding keyA (machine [(1, 16428), (2, 10135), (3, 20449)] [])
    s.blk.skValid = true ∧ s.blk.key = keyA ∧ Nat.gcd 3 keyA.n = 1 ∧ Nat.gcd 5 keyA.n = 1 ∧
    s.blk.getX 1 = keyA.g ^ 5 % keyA.n2 * (3 ^ keyA.n % keyA.n2) % keyA.n2 ∧
    s.blk.getX 2 = keyA.g ^ 7 % keyA.n2 * (5 ^ keyA.n % keyA.n2) % keyA.n2 ∧ s.blk.getX 3 = keyA.n2 ∧
    (∃ t, exec (.modmul 0 1 2 3) s = .next t) ∧ ∃ t, exec (.modexp 0 1 2 3) s = .next t :=
  ⟨by decide, by decide, by decide, by decide, by decide, by decide, by decide, exec_next _ _, exec_next _ _⟩

end Sys2Proof.Tests
end

section
/-! SUPPORT. The refused accesses and the data window of 20_memory.md R63 to R70, and the statements about them. -/

namespace Sys2Proof.Machine

/-! ## Refused accesses (R63, R64) -/

/-- An access that reaches no register reads 0 and is refused. -/
theorem Block.readReg_unmapped (c : Config) (b : Block) {w : AccessWidth} {off : Nat} (h : accessed w off = none) :
    b.readReg c w off = (0, b.refuseAccess) := by
  simp [Block.readReg, h]

/-- A write that reaches no register is refused. -/
theorem Block.writeReg_unmapped (c : Config) (b : Block) {w : AccessWidth} {off : Nat} (v : Word32)
    (h : accessed w off = none) : b.writeReg c w off v = b.refuseAccess := by
  simp [Block.writeReg, h]

/-- A write to ID or PARAM is refused at every width: at 32 bits by R63, else by its width. -/
theorem Block.writeReg_readOnly (c : Config) (b : Block) (w : AccessWidth) {off : Nat} (v : Word32)
    (h : off = 0x00 ∨ off = 0x04) : b.writeReg c w off v = b.refuseAccess := by
  by_cases hw : w = .bits32
  · rcases h with rfl | rfl <;> subst hw <;> rfl
  · exact b.writeReg_unmapped c v (accessed_eq_none (.inl hw))

/-- Settles O46: the access reaches no register (`accessed_eq_none`), or it is a write to ID or PARAM. -/
theorem refusedAccessSetsAccessErrOnly : Obligations.RefusedAccessSetsAccessErrOnly := by
  intro s w off v hoff
  rw [State.busRead_add s w hoff, State.busWrite_add s w v hoff]
  constructor
  · intro h
    rw [Block.readReg_unmapped _ _ (accessed_eq_none h)]
    rfl
  · intro h
    have refused : s.blk.writeReg s.cfg w off v = s.blk.refuseAccess := by
      by_cases hro : off = 0x00 ∨ off = 0x04
      · exact s.blk.writeReg_readOnly s.cfg w v hro
      · exact s.blk.writeReg_unmapped s.cfg v (accessed_eq_none (by tauto))
    rw [refused]
    rfl

/-! ## What the window selects (R67 to R69) -/

/-- The window is closed by a running command and by a word beyond the register. -/
theorem Block.window_closed_iff (c : Config) (b : Block) :
    (b.busy ∨ c.nw ≤ b.winWord.toNat) ↔ ¬ (b.latch = none ∧ b.winWord.toNat < c.nw) := by
  simp [Block.busy, Option.isSome_iff_ne_none, imp_iff_not_or]

theorem Block.advanceWord_eq (c : Config) (b : Block) :
    b.advanceWord c = { b with
      winWord := if b.winAuto = true then BitVec.ofNat 16 ((b.winWord.toNat + 1) % c.nw) else b.winWord } := by
  unfold Block.advanceWord
  split_ifs <;> rfl

@[simp] theorem Block.wide_operand (b : Block) (x : RegNum) : b.wide x.val = some (b.getX x) := by
  simp [Block.wide]

@[simp] theorem Block.wide_key (b : Block) (i : Nat) : b.wide (16 + i) = b.key.field i := by
  simp [Block.wide]

theorem Block.wide_eq_none (b : Block) {r : Nat} (h : 22 < r) : b.wide r = none := by
  rw [show r = 16 + (r - 16) by omega, Block.wide_key, KeyBank.field_eq_none]
  omega

/-! ## The window read (R67) -/

/-- A 32-bit read at 0x1C is the window read. -/
theorem State.busRead_window (s : State) :
    s.busRead .bits32 (s.cfg.mmioBase + 0x1C) =
      some ((s.blk.readWindow s.cfg).1, { s with blk := (s.blk.readWindow s.cfg).2 }) :=
  State.busRead_add s .bits32 (by decide)

theorem Block.readWindow_refused (c : Config) (b : Block)
    (h : b.latch ≠ none ∨ 22 < b.winReg.toNat ∨ c.nw ≤ b.winWord.toNat) :
    b.readWindow c = (0, b.refuseAccess) := by
  unfold Block.readWindow
  split_ifs with hclosed
  · rfl
  · obtain ⟨hl, hi⟩ := not_not.1 (mt (b.window_closed_iff c).2 hclosed)
    have hr : 22 < b.winReg.toNat := by
      rcases h with h | h | h
      · exact absurd hl h
      · exact h
      · exact absurd hi (by omega)
    rw [b.wide_eq_none hr]

theorem Block.readWindow_open {c : Config} {b : Block} {v : Nat} (hl : b.latch = none) (hi : b.winWord.toNat < c.nw)
    (hv : b.wide b.winReg.toNat = some v) : b.readWindow c = (wordOf v b.winWord.toNat, b.advanceWord c) := by
  rw [Block.readWindow, if_neg (fun h => (b.window_closed_iff c).1 h ⟨hl, hi⟩), hv]

/-- An accepted window read on the bus, whichever register it selects. -/
theorem State.busRead_window_open {s : State} {v : Nat} (hopen : s.blk.latch = none ∧ s.blk.winWord.toNat < s.cfg.nw)
    (hv : s.blk.wide s.blk.winReg.toNat = some v) :
    s.busRead .bits32 (s.cfg.mmioBase + 0x1C) =
      some (wordOf v s.blk.winWord.toNat, { s with blk := s.blk.advanceWord s.cfg }) := by
  rw [State.busRead_window, Block.readWindow_open hopen.1 hopen.2 hv]

/-- Settles O47: every accepted read is `State.busRead_window_open` for the register `Block.wide` selects. -/
theorem windowReadReturnsTheWord : Obligations.WindowReadReturnsTheWord := by
  intro s r i open_ got
  have accepted : open_ → ∀ v, s.blk.wide r = some v → got v := fun h v hv => by
    change _ = some (wordOf v i, _)
    rw [State.busRead_window_open h hv, Block.advanceWord_eq]
  have field : open_ → ∀ j v, r = 16 + j → s.blk.key.field j = some v → got v := fun h j v hr hv =>
    accepted h v (by rw [hr, Block.wide_key, hv])
  refine ⟨fun h => ?_, fun h x hx => accepted h _ (hx ▸ s.blk.wide_operand x),
    fun h hr => field h 0 _ hr rfl, fun h hr => field h 1 _ hr rfl, fun h hr => field h 2 _ hr rfl,
    fun h hr => field h 3 _ hr rfl, fun h hr => field h 4 _ hr rfl, fun h hr => field h 5 _ hr rfl,
    fun h hr => field h 6 _ hr rfl⟩
  rw [State.busRead_window, Block.readWindow_refused _ _ h]
  rfl

/-! ## The window write (R68) -/

/-- A 32-bit write at 0x1C is the window write. -/
theorem State.busWrite_window (s : State) (u : Word32) :
    s.busWrite .bits32 (s.cfg.mmioBase + 0x1C) u = some { s with blk := s.blk.writeWindow s.cfg u } :=
  State.busWrite_add s .bits32 u (by decide)

theorem Block.writeWindow_refused (c : Config) (b : Block) (u : Word32)
    (h : b.latch ≠ none ∨ 15 < b.winReg.toNat ∨ c.nw ≤ b.winWord.toNat) :
    b.writeWindow c u = b.refuseAccess := by
  unfold Block.writeWindow
  split_ifs with hr hclosed
  · rfl
  · obtain ⟨hl, hi⟩ := not_not.1 (mt (b.window_closed_iff c).2 hclosed)
    rcases h with h | h | h
    · exact absurd hl h
    · exact absurd hr (by omega)
    · exact absurd hi (by omega)
  · rfl

theorem Block.writeWindow_open {c : Config} {b : Block} {x : RegNum} (u : Word32) (hl : b.latch = none)
    (hi : b.winWord.toNat < c.nw) (hx : x.val = b.winReg.toNat) :
    b.writeWindow c u = (b.setX x (replaceWord (b.getX x) b.winWord.toNat u)).advanceWord c := by
  have hr : b.winReg.toNat < 16 := hx ▸ x.isLt
  obtain rfl : x = ⟨b.winReg.toNat, hr⟩ := Fin.ext hx
  rw [Block.writeWindow, dif_pos hr, if_neg (fun h => (b.window_closed_iff c).1 h ⟨hl, hi⟩)]

/-- Settles O48: the cases are `Block.writeWindow_refused` and `Block.writeWindow_open`. -/
theorem windowWriteReplacesTheWord : Obligations.WindowWriteReplacesTheWord := by
  intro s u r i
  rw [State.busWrite_window]
  constructor
  · intro h
    rw [Block.writeWindow_refused _ _ _ h]
    rfl
  · intro hl hi x hx
    rw [Block.writeWindow_open u hl hi hx, Block.advanceWord_eq, replaceWord, wordOf_toNat]
    rfl

end Sys2Proof.Machine
end

section
/-! SUPPORT. The mask and match rows of 30_encoding.md R94 to R96 and the write to CMD (R101, R102), and the statements
about them. -/

namespace Sys2Proof

/-! ## The rows of the opcode map (R94, R95) -/

/-- A row accepts only words whose fields decode: it fixes the opcode and zeroes every field its command does not use,
and KEYGET's row bounds the index. -/
theorem decodeFields_isSome_of_row {f : Fields} {row : Word32 × Word32} (hrow : row ∈ opcodeRows)
    (hfields : f.and (Fields.ofWord row.1) = Fields.ofWord row.2) (hindex : row.2 ≠ 0x00000013 ∨ f.ra.toNat ≤ 6) :
    (decodeFields f).isSome = true := by
  have ones₇ (x : BitVec 7) : x &&& 127#7 = x := BitVec.and_allOnes
  have ones₁ (x : BitVec 1) : x &&& 1#1 = x := BitVec.and_allOnes
  have ones₄ (x : BitVec 4) : x &&& 15#4 = x := BitVec.and_allOnes
  have ones₈ (x : BitVec 8) : x &&& 255#8 = x := BitVec.and_allOnes
  obtain ⟨rsv, s, rc, rb, ra, rd, op⟩ := f
  fin_cases hrow
  all_goals
    simp [Fields.and, Fields.ofWord, ones₇, ones₁, ones₄, ones₈] at hfields
    simp [decodeFields, whenZero, hfields]
  -- KEYGET's row is the one left
  simpa using hindex

theorem decode_isSome_of_rowMatches {w : Word32} {row : Word32 × Word32} (hrow : row ∈ opcodeRows)
    (h : rowMatches w row = true) : (decode w).isSome = true := by
  simp only [rowMatches, Bool.and_eq_true, Bool.or_eq_true, beq_iff_eq, bne_iff_ne, decide_eq_true_eq] at h
  exact decodeFields_isSome_of_row hrow ((and_eq_iff_fields ..).1 h.1) h.2

/-- Every row's mask covers OP and S, and its match has no other bit set: a word that matches it has these as its own. -/
theorem row_match_eq {w : Word32} {row : Word32 × Word32} (hrow : row ∈ opcodeRows) (h : w &&& row.1 = row.2) :
    row.2 = w &&& 0x010000FF := by
  have covered : ∀ row ∈ opcodeRows, row.1 &&& 0x010000FF = 0x010000FF ∧ row.2 &&& 0x010000FF = row.2 := by
    simp [opcodeRows]
  obtain ⟨hmask, hmatch⟩ := covered row hrow
  rw [← hmatch, ← h, BitVec.and_assoc, hmask]

/-- The match column of the opcode map names each row once. -/
theorem opcodeRows_match_nodup : (opcodeRows.map Prod.snd).Nodup := by
  decide

theorem row_unique {w : Word32} {r₁ r₂ : Word32 × Word32} (h₁ : r₁ ∈ opcodeRows) (h₂ : r₂ ∈ opcodeRows)
    (hw₁ : w &&& r₁.1 = r₁.2) (hw₂ : w &&& r₂.1 = r₂.2) : r₁ = r₂ :=
  List.inj_on_of_nodup_map opcodeRows_match_nodup h₁ h₂ ((row_match_eq h₁ hw₁).trans (row_match_eq h₂ hw₂).symm)

end Sys2Proof

namespace Sys2Proof.Machine

/-- Settles O3: the rows are read field by field (`decodeFields_isSome_of_row`) and told apart by OP and S
(`row_match_eq`); with every row excluded, `State.othersIllegal` has no premise left. -/
theorem decodeMatchesTheMaskMatchRows : Obligations.DecodeMatchesTheMaskMatchRows := by
  have own_row (w : Word32) (i : Instr) (h : decode w = some i) : rowOf i ∈ opcodeRows ∧ rowMatches w (rowOf i) = true :=
    ⟨rowOf_mem i, (decode_some_row h).1⟩
  refine ⟨fun w => ⟨fun h => ?_, fun ⟨_, hrow, h⟩ => decode_isSome_of_rowMatches hrow h⟩, own_row,
    fun w r₁ h₁ r₂ h₂ => row_unique h₁ h₂, fun s l hl hno => ?_⟩
  · obtain ⟨i, hi⟩ := Option.isSome_iff_exists.1 h
    exact ⟨rowOf i, own_row w i hi⟩
  · exact s.othersIllegal (rows := opcodeRows) (List.all_eq_true.2 fun row hrow => by simp [hrow]) l hl rfl hno

/-- No row has an opcode that R96 lists. -/
theorem opcodeRows_assigned : ∀ row ∈ opcodeRows,
    let op := (row.2.extractLsb' 0 8).toNat
    ¬ (op = 0x0E ∨ op = 0x0F ∨ (0x15 ≤ op ∧ op ≤ 0x1F) ∨ (0x23 ≤ op ∧ op ≤ 0x2F) ∨ 0x31 ≤ op) := by
  simp [opcodeRows]

/-- Settles O4: `State.othersIllegal` with no row, for `opcodeRows_assigned` leaves none of that opcode. -/
theorem unassignedOpcodesCompleteIllegal : Obligations.UnassignedOpcodesCompleteIllegal := by
  intro s l hl hop
  refine State.othersIllegal s (rows := []) ?_ l hl rfl (by simp)
  simp only [List.all_eq_true, Bool.or_eq_true, bne_iff_ne]
  exact fun row hrow => .inl fun heq => opcodeRows_assigned row hrow (heq ▸ hop)

/-- A 32-bit write at 0x14 is the write to CMD. -/
theorem State.busWrite_cmd (s : State) (v : Word32) :
    s.busWrite .bits32 (s.cfg.mmioBase + 0x14) v = some { s with blk := s.blk.writeCmd v } :=
  State.busWrite_add s .bits32 v (by decide)

/-- Settles O42: the cases are `Block.writeCmd_idle` and `Block.writeCmd_busy`. -/
theorem cmdWriteIssuesOrOverruns : Obligations.CmdWriteIssuesOrOverruns := by
  intro s v
  rw [State.busWrite_cmd]
  constructor
  · intro hl
    rw [Block.writeCmd_idle (by simp [Block.busy, hl])]
    rfl
  · intro l hl
    rw [Block.writeCmd_busy (by simp [Block.busy, hl])]

end Sys2Proof.Machine
end

section
/-! SUPPORT. A running command does not see later policy writes (30_encoding.md R106), and the statement about it. -/

namespace Sys2Proof.Machine

/-! ## Policy writes (10_state.md R34, R37) -/

/-- What the host may write to CTRL and MINBITS. -/
structure Policy where
  rounds  : BitVec 8
  irqEn   : Bool
  minBits : Word32

/-- The block with the policy registers holding p. -/
def Block.withPolicy (p : Policy) (b : Block) : Block :=
  { b with mrRounds := p.rounds, irqEn := p.irqEn, minBits := p.minBits }

def State.withPolicy (p : Policy) (s : State) : State :=
  { s with blk := s.blk.withPolicy p }

/-- The same end of a command's pseudocode, its writes made in the block with the policy p. -/
def CmdResult.withPolicy (p : Policy) : CmdResult → CmdResult :=
  Except.map (Block.withPolicy p)

def Result.withPolicy (p : Policy) : Result → Result
  | .next s => .next (s.withPolicy p)
  | .fault f => .fault f
  | .refused e => .refused e

section
variable {p : Policy} {s : State}

/-! ## What a command reads -/

@[simp] theorem State.getX_withPolicy (r : RegNum) : (s.withPolicy p).blk.getX r = s.blk.getX r := rfl
@[simp] theorem State.key_withPolicy : (s.withPolicy p).blk.key = s.blk.key := rfl
@[simp] theorem State.entropy_withPolicy : (s.withPolicy p).entropy = s.entropy := rfl
@[simp] theorem State.loopBudget_withPolicy : (s.withPolicy p).loopBudget = s.loopBudget := rfl

/-- With a full latch the rounds of a test are the latched ones. -/
theorem State.latRounds_withPolicy {l : Latch} (hl : s.blk.latch = some l) :
    (s.withPolicy p).blk.latRounds = s.blk.latRounds := by
  rw [Block.latRounds_some hl, Block.latRounds_some (b := (s.withPolicy p).blk) hl]

/-- With a full latch KEYGEN's checks read the latched MINBITS. -/
theorem badBitLength_withPolicy {l : Latch} (hl : s.blk.latch = some l) (bl : Nat) :
    badBitLength (s.withPolicy p) bl = badBitLength s bl := by
  rw [Bool.eq_iff_iff, badBitLength_iff hl, badBitLength_iff (s := s.withPolicy p) hl]
  rfl

/-! ## How a command ends

A branch of the two runs has one condition, up to `rfl`, for no condition reads a policy register. -/

theorem CmdResult.withPolicy_ite {c : Prop} [Decidable c] {r₁ r₁' r₂ r₂' : CmdResult}
    (h₁ : r₁' = CmdResult.withPolicy p r₁) (h₂ : r₂' = CmdResult.withPolicy p r₂) :
    (if c then r₁' else r₂') = CmdResult.withPolicy p (if c then r₁ else r₂) := by
  rw [h₁, h₂, apply_ite (CmdResult.withPolicy p)]

theorem writeFitting_withPolicy (rd : RegNum) (t : Nat) :
    writeFitting (s.withPolicy p) rd t = CmdResult.withPolicy p (writeFitting s rd t) :=
  CmdResult.withPolicy_ite rfl rfl

theorem exponentOf_withPolicy (lam : Nat → Nat → Nat) (rd ra rb : RegNum) :
    exponentOf lam rd ra rb (s.withPolicy p) = CmdResult.withPolicy p (exponentOf lam rd ra rb s) :=
  CmdResult.withPolicy_ite rfl (writeFitting_withPolicy ..)

theorem installResult_withPolicy (k : Except ErrCode KeyBank) :
    installResult (s.withPolicy p) k = CmdResult.withPolicy p (installResult s k) := by
  cases k <;> rfl

theorem Result.withPolicy_ite {c : Prop} [Decidable c] {r₁ r₁' r₂ r₂' : Result}
    (h₁ : r₁' = Result.withPolicy p r₁) (h₂ : r₂' = Result.withPolicy p r₂) :
    (if c then r₁' else r₂') = Result.withPolicy p (if c then r₁ else r₂) := by
  rw [h₁, h₂, apply_ite (Result.withPolicy p)]

theorem next_finish_withPolicy {c c' : CmdResult} (h : c' = CmdResult.withPolicy p c) :
    .next ((s.withPolicy p).finish c') = Result.withPolicy p (.next (s.finish c)) := by
  cases c <;> exact h ▸ rfl

theorem next_finishDrawn_withPolicy {c c' : CmdResult} (en : Entropy) (h : c' = CmdResult.withPolicy p c) :
    .next ((s.withPolicy p).finishDrawn en c') = Result.withPolicy p (.next (s.finishDrawn en c)) := by
  cases c <;> exact h ▸ rfl

/-! ## The commands that read the latch -/

variable {l : Latch} (hl : s.blk.latch = some l)
include hl

theorem execPrimetest_withPolicy (rd ra : RegNum) :
    execPrimetest rd ra (s.withPolicy p) = Result.withPolicy p (execPrimetest rd ra s) := by
  simp only [execPrimetest, State.latRounds_withPolicy hl]
  exact next_finishDrawn_withPolicy _ rfl

theorem execGenprime_withPolicy (rd ra : RegNum) :
    execGenprime rd ra (s.withPolicy p) = Result.withPolicy p (execGenprime rd ra s) := by
  simp only [execGenprime, State.latRounds_withPolicy hl, State.getX_withPolicy, State.entropy_withPolicy,
    State.loopBudget_withPolicy]
  refine Result.withPolicy_ite rfl ?_
  cases genPrime s.loopBudget (s.blk.getX ra) s.blk.latRounds s.entropy with
  | none => rfl
  | some found => exact next_finishDrawn_withPolicy _ rfl

theorem execKeygen_withPolicy (ra : RegNum) :
    execKeygen ra (s.withPolicy p) = Result.withPolicy p (execKeygen ra s) := by
  simp only [execKeygen, State.latRounds_withPolicy hl, badBitLength_withPolicy hl, State.getX_withPolicy,
    State.entropy_withPolicy, State.loopBudget_withPolicy]
  refine Result.withPolicy_ite rfl ?_
  cases primePair s.loopBudget s.loopBudget (s.blk.getX ra) s.blk.latRounds s.entropy with
  | none => rfl
  | some found => exact next_finishDrawn_withPolicy _ (installResult_withPolicy _)

theorem execKeygenS_withPolicy (ra : RegNum) :
    execKeygenS ra (s.withPolicy p) = Result.withPolicy p (execKeygenS ra s) := by
  simp only [execKeygenS, State.latRounds_withPolicy hl, badBitLength_withPolicy hl, State.getX_withPolicy,
    State.entropy_withPolicy, State.loopBudget_withPolicy]
  refine Result.withPolicy_ite rfl ?_
  cases primePair s.loopBudget s.loopBudget (s.blk.getX ra) s.blk.latRounds s.entropy with
  | none => rfl
  | some found => exact next_finishDrawn_withPolicy _ (installResult_withPolicy _)

end

/-- A command with a full latch ends alike under other policy values, and leaves them as they are (R106). -/
theorem exec_withPolicy (i : Instr) {s : State} (p : Policy) {l : Latch} (hl : s.blk.latch = some l) :
    exec i (s.withPolicy p) = Result.withPolicy p (exec i s) := by
  cases i with
  | nop => exact next_finish_withPolicy rfl
  | modexp rd ra rb rc => exact next_finish_withPolicy (CmdResult.withPolicy_ite rfl rfl)
  | modmul rd ra rb rc => exact next_finish_withPolicy (CmdResult.withPolicy_ite rfl rfl)
  | mul rd ra rb => exact next_finish_withPolicy (writeFitting_withPolicy ..)
  | modinv rd ra rc =>
    exact next_finish_withPolicy (CmdResult.withPolicy_ite rfl (CmdResult.withPolicy_ite rfl rfl))
  | gcd rd ra rb => exact next_finish_withPolicy rfl
  | lcm rd ra rb => exact next_finish_withPolicy (writeFitting_withPolicy ..)
  | carm rd ra rb => exact next_finish_withPolicy (exponentOf_withPolicy ..)
  | carmS rd ra rb => exact next_finish_withPolicy (exponentOf_withPolicy ..)
  | lfunc rd ra rc =>
    exact next_finish_withPolicy (CmdResult.withPolicy_ite rfl (CmdResult.withPolicy_ite rfl rfl))
  | bitlen rd ra => exact next_finish_withPolicy rfl
  | primetest rd ra => exact execPrimetest_withPolicy hl rd ra
  | genprime rd ra => exact execGenprime_withPolicy hl rd ra
  | randbelow rd ra => exact Result.withPolicy_ite rfl (next_finishDrawn_withPolicy _ rfl)
  | randbits rd ra => exact Result.withPolicy_ite rfl (next_finishDrawn_withPolicy _ rfl)
  | keygen ra => exact execKeygen_withPolicy hl ra
  | keygenS ra => exact execKeygenS_withPolicy hl ra
  | keyloadPk ra rb rc =>
    exact next_finish_withPolicy
      (CmdResult.withPolicy_ite rfl (CmdResult.withPolicy_ite rfl (CmdResult.withPolicy_ite rfl rfl)))
  | keyloadSk rd ra rb rc =>
    exact next_finish_withPolicy
      (CmdResult.withPolicy_ite rfl (CmdResult.withPolicy_ite rfl (CmdResult.withPolicy_ite rfl
        (CmdResult.withPolicy_ite rfl (CmdResult.withPolicy_ite rfl (CmdResult.withPolicy_ite rfl rfl))))))
  | keyget rd k =>
    simp only [exec, execKeyget, State.key_withPolicy]
    refine next_finish_withPolicy ?_
    cases s.blk.key.field k <;> rfl
  | keyclr => exact next_finish_withPolicy rfl
  | encrypt rd ra => exact Result.withPolicy_ite rfl (next_finishDrawn_withPolicy _ rfl)
  | encryptZkp rd ra rb =>
    exact Result.withPolicy_ite rfl (Result.withPolicy_ite rfl (next_finishDrawn_withPolicy _ rfl))
  | encryptR rd ra rb =>
    exact next_finish_withPolicy (CmdResult.withPolicy_ite rfl (CmdResult.withPolicy_ite rfl rfl))
  | decrypt rd ra =>
    exact next_finish_withPolicy
      (CmdResult.withPolicy_ite rfl (CmdResult.withPolicy_ite rfl (CmdResult.withPolicy_ite rfl rfl)))

/-- Settles O41: it is `exec_withPolicy` for the values the statement puts into the registers. -/
theorem runningCommandIgnoresPolicyWrites : Obligations.RunningCommandIgnoresPolicyWrites := by
  intro i s t l r e m hl h
  have hp := exec_withPolicy i ⟨r, e, m⟩ hl
  rw [h] at hp
  exact hp

end Sys2Proof.Machine
end

section
/-! SUPPORT. The modular exponentiation engine (40_modexp_engine.md R121 to R125), and the statements about MODEXP,
MODMUL and MUL. -/

namespace Sys2Proof.Machine

/-! ## How a checked result ends the command (R120, R125) -/

/-- Behind the modulus check of R120, an odd modulus lets the result be written. -/
theorem State.finish_oddModulus (s : State) (rd : RegNum) (v : Nat) {m : Nat} (h : m % 2 = 1) :
    s.finish (if badOddModulus m then .error .modulus else .ok (s.blk.setX rd v)) = s.wrote s.entropy rd v := by
  have hodd : ¬ badOddModulus m = true := by
    rw [badOddModulus_iff]
    omega
  rw [if_neg hodd, State.finish_ok, State.commit_setX]

/-- A modulus that the check of R120 refuses ends the command in ERR_MODULUS. -/
theorem State.finish_refusedModulus (s : State) (b : Block) {m : Nat} (h : m = 0 ∨ m % 2 = 0) :
    s.finish (if badOddModulus m then .error .modulus else .ok b) = s.failed 0x03 := by
  rw [if_pos (badOddModulus_iff.2 h), State.finish_error, State.raiseError_eq_failed, ErrCode.code]

/-- A value below 2^WREG is written. -/
theorem State.finish_writeFitting_fits {s : State} {t : Nat} (rd : RegNum) (h : t < 2 ^ s.cfg.wreg) :
    s.finish (writeFitting s rd t) = s.wrote s.entropy rd t := by
  rw [writeFitting_fits rd h, State.finish_ok, State.commit_setX]

/-- A value from 2^WREG on ends the command in ERR_OVERFLOW. -/
theorem State.finish_writeFitting_overflows {s : State} {t : Nat} (rd : RegNum) (h : 2 ^ s.cfg.wreg ≤ t) :
    s.finish (writeFitting s rd t) = s.failed 0x07 := by
  rw [writeFitting_overflows rd h, State.finish_error, State.raiseError_eq_failed, ErrCode.code]

/-! ## The commands -/

/-- MODEXP's meaning, with the engine's square-and-multiply replaced by the power it computes (R121). -/
theorem exec_modexp (rd ra rb rc : RegNum) (s : State) :
    exec (.modexp rd ra rb rc) s = .next (s.finish (
      if badOddModulus (s.blk.getX rc) then .error .modulus
      else .ok (s.blk.setX rd (s.blk.getX ra ^ s.blk.getX rb % s.blk.getX rc)))) := by
  rw [← powmod_eq]
  rfl

theorem exec_modmul (rd ra rb rc : RegNum) (s : State) :
    exec (.modmul rd ra rb rc) s = .next (s.finish (
      if badOddModulus (s.blk.getX rc) then .error .modulus
      else .ok (s.blk.setX rd (s.blk.getX ra * s.blk.getX rb % s.blk.getX rc)))) := rfl

theorem exec_mul (rd ra rb : RegNum) (s : State) :
    exec (.mul rd ra rb) s = .next (s.finish (writeFitting s rd (s.blk.getX ra * s.blk.getX rb))) := rfl

/-- Settles O8: `exec_modexp` under either outcome of the modulus check. -/
theorem modexpWritesThePower : Obligations.ModexpWritesThePower := by
  intro rd ra rb rc s a e m
  refine ⟨encode_and_rowOf (.modexp rd ra rb rc), s.othersIllegal rfl, fun hodd => ?_, fun hbad => ?_⟩
  · rw [exec_modexp, s.finish_oddModulus rd _ hodd]
  · rw [exec_modexp, s.finish_refusedModulus _ hbad]

/-- Settles O9: `exec_modmul` under either outcome of the modulus check. -/
theorem modmulWritesTheProduct : Obligations.ModmulWritesTheProduct := by
  intro rd ra rb rc s m
  refine ⟨encode_and_rowOf (.modmul rd ra rb rc), s.othersIllegal rfl, fun hodd => ?_, fun hbad => ?_⟩
  · rw [exec_modmul, s.finish_oddModulus rd _ hodd]
  · rw [exec_modmul, s.finish_refusedModulus _ hbad]

/-- Settles O10: `exec_mul`, its product on either side of 2^WREG. -/
theorem mulWritesOrOverflows : Obligations.MulWritesOrOverflows := by
  intro rd ra rb s t
  refine ⟨encode_and_rowOf (.mul rd ra rb), s.othersIllegal rfl, fun hfits => ?_, fun hover => ?_⟩
  · rw [exec_mul, State.finish_writeFitting_fits rd hfits]
  · rw [exec_mul, State.finish_writeFitting_overflows rd hover]

end Sys2Proof.Machine
end

section
/-! SUPPORT. The modular inverse unit (41_inverse_unit.md R140 to R143), and the statements about MODINV and GCD. -/

namespace Sys2Proof.Machine

/-! ## How a command without draws ends (R104, R105) -/

/-- A result that is written ends the command without error. -/
theorem State.finish_setX (s : State) (rd : RegNum) (v : Nat) :
    s.finish (.ok (s.blk.setX rd v)) = s.wrote s.entropy rd v := by
  rw [State.finish_ok, State.commit_setX]

/-- An error ends the command with its code and nothing written. -/
theorem State.finish_error_eq_failed (s : State) (e : ErrCode) : s.finish (.error e) = s.failed e.code := by
  rw [State.finish_error, State.raiseError_eq_failed]

/-! ## The commands -/

/-- MODINV checks the modulus, then whether an inverse exists, and only then writes (R141). -/
theorem exec_modinv (rd ra rc : RegNum) (s : State) :
    exec (.modinv rd ra rc) s = .next (s.finish (
      if s.blk.getX rc = 0 then .error .modulus
      else if Nat.gcd (s.blk.getX ra % s.blk.getX rc) (s.blk.getX rc) ≠ 1 then .error .noInverse
      else .ok (s.blk.setX rd (invmod (s.blk.getX ra) (s.blk.getX rc))))) := rfl

theorem exec_gcd (rd ra rb : RegNum) (s : State) :
    exec (.gcd rd ra rb) s = .next (s.wrote s.entropy rd (Nat.gcd (s.blk.getX ra) (s.blk.getX rb))) := by
  rw [← State.finish_setX]
  rfl

/-- Settles O11: `exec_modinv` under each outcome of its two checks; what it writes behind both is the inverse by
`invmod_spec`. -/
theorem modinvWritesTheInverse : Obligations.ModinvWritesTheInverse := by
  intro rd ra rc s a m
  refine ⟨encode_and_rowOf (.modinv rd ra rc), s.othersIllegal rfl, fun hzero => ?_, fun hpos hgcd => ?_,
    fun hpos hgcd => ?_⟩
  · rw [exec_modinv, if_pos hzero, State.finish_error_eq_failed, ErrCode.code]
  · rw [exec_modinv, if_neg hpos.ne', if_pos hgcd, State.finish_error_eq_failed, ErrCode.code]
  · obtain ⟨hlt, hinv⟩ := invmod_spec hpos hgcd
    refine ⟨invmod a m, hlt, hinv, ?_⟩
    rw [exec_modinv, if_neg hpos.ne', if_neg (not_not.2 hgcd), State.finish_setX]

/-- Settles O12: the d of the statement is the `Nat.gcd` that `exec_gcd` writes. -/
theorem gcdWritesTheGreatestCommonDivisor : Obligations.GcdWritesTheGreatestCommonDivisor := by
  intro rd ra rb s a b
  exact ⟨encode_and_rowOf (.gcd rd ra rb), s.othersIllegal rfl, Nat.gcd a b, Nat.gcd_dvd_left a b,
    Nat.gcd_dvd_right a b, fun _ => Nat.dvd_gcd, fun ha hb => Nat.gcd_eq_zero_iff.2 ⟨ha, hb⟩, exec_gcd rd ra rb s⟩

end Sys2Proof.Machine
end

section
/-! SUPPORT. The prime test and bit counter unit (42_prime_bitcount.md R151, R152), and the statements about BITLEN and
the Miller–Rabin procedure. -/

namespace Sys2Proof.Machine

/-! ## The bit counter (R151) -/

theorem one_le_bitWidth {x : Nat} (hx : 0 < x) : 1 ≤ bitWidth x := by
  simp [bitWidth, hx.ne']

theorem exec_bitlen (rd ra : RegNum) (s : State) :
    exec (.bitlen rd ra) s = .next (s.wrote s.entropy rd (bitWidth (s.blk.getX ra))) := by
  rw [← State.finish_setX]
  rfl

/-- Settles O16: the width that `exec_bitlen` writes is the one of `bitWidth_eq_iff`. -/
theorem bitlenWritesTheWidth : Obligations.BitlenWritesTheWidth := by
  intro rd ra s
  refine ⟨encode_and_rowOf (.bitlen rd ra), s.othersIllegal rfl, bitWidth (s.blk.getX ra), exec_bitlen rd ra s,
    fun hzero => ?_, fun hpos => ?_⟩
  · rw [hzero, bitWidth_zero]
  · have hw := one_le_bitWidth hpos
    exact ⟨hw, (bitWidth_eq_iff hw).1 rfl⟩

/-! ## The Miller–Rabin test (R152) -/

/-- The s and d of n = 2^s · d with d odd are the ones that `splitTwos` finds, for n has only one such pair. -/
theorem splitTwos_eq {fuel n s d : Nat} (h0 : 0 < n) (hfuel : n < 2 ^ fuel) (hn : n = 2 ^ s * d) (hd : d % 2 = 1) :
    splitTwos fuel n = (s, d) := by
  obtain ⟨hfound, hodd⟩ := splitTwos_spec fuel n h0 hfuel
  rw [← Nat.maxPowDvdDiv_of_pow_mul_eq h0.ne' hn.symm (by omega),
    Nat.maxPowDvdDiv_of_pow_mul_eq h0.ne' hfound.symm (by omega)]

theorem millerRabin_of_lt_two {c : Nat} (k : Nat) (en : Entropy) (h : c < 2) : millerRabin c k en = (false, en) :=
  if_pos h

theorem millerRabin_two_or_three {c : Nat} (k : Nat) (en : Entropy) (h : c = 2 ∨ c = 3) :
    millerRabin c k en = (true, en) := by
  rw [millerRabin, if_neg (by omega), if_pos h]

theorem millerRabin_even {c : Nat} (k : Nat) (en : Entropy) (h4 : 4 ≤ c) (heven : c % 2 = 0) :
    millerRabin c k en = (false, en) := by
  rw [millerRabin, if_neg (by omega), if_neg (by omega), if_pos heven]

/-- For odd c from 5 on the test is its rounds, with the s and d of c − 1 = 2^s · d. -/
theorem millerRabin_odd {c s d : Nat} (k : Nat) (en : Entropy) (h5 : 5 ≤ c) (hodd : c % 2 = 1)
    (hsd : c - 1 = 2 ^ s * d) (hd : d % 2 = 1) : millerRabin c k en = testRounds k c s d en := by
  have hfuel : c - 1 < 2 ^ bitWidth c := (Nat.sub_le c 1).trans_lt (lt_two_pow_bitWidth c)
  rw [millerRabin, if_neg (by omega), if_neg (by omega), if_neg (by omega), splitTwos_eq (by omega) hfuel hsd hd]

/-- Settles O18: for odd c from 5 on, `millerRabin_odd` turns the test into its rounds, and `roundPasses_iff` says when
one passes. -/
theorem millerRabinFollowsTheProcedure : Obligations.MillerRabinFollowsTheProcedure := by
  intro c k en
  refine ⟨millerRabin_of_lt_two k en, millerRabin_two_or_three k en, millerRabin_even k en, ?_⟩
  intro s d h5 hodd hsd hd a passes
  have hs : 1 ≤ s := Nat.one_le_iff_ne_zero.2 fun hzero => by
    rw [hzero, pow_zero, one_mul] at hsd
    omega
  have hpass : roundPasses c s d a.1 = true ↔ passes := roundPasses_iff c s d a.1 hs
  simp only [millerRabin_odd _ _ h5 hodd hsd hd]
  exact ⟨rfl, fun h => if_pos (hpass.2 h), fun h => if_neg (mt hpass.1 h)⟩

end Sys2Proof.Machine
end

section
/-! SUPPORT. The Carmichael / lcm computer (43_carmichael_lcm.md R170 to R173), and the statements about LCM, CARM and
CARM.S. -/

namespace Sys2Proof.Machine

/-! ## LCM (R171) -/

/-- R10 tells a zero operand apart, and the quotient gives 0 there by itself. -/
theorem lcm_eq_ite (a b : Nat) : Nat.lcm a b = if a = 0 ∨ b = 0 then 0 else a * b / Nat.gcd a b := by
  split_ifs with hzero
  · exact Nat.lcm_eq_zero_iff.2 hzero
  · rfl

/-- LCM's meaning, with R10's text for the least common multiple. -/
theorem exec_lcm (rd ra rb : RegNum) (s : State) :
    exec (.lcm rd ra rb) s = .next (s.finish (writeFitting s rd (
      if s.blk.getX ra = 0 ∨ s.blk.getX rb = 0 then 0
      else s.blk.getX ra * s.blk.getX rb / Nat.gcd (s.blk.getX ra) (s.blk.getX rb)))) := by
  rw [← lcm_eq_ite]
  rfl

/-- Settles O13: `exec_lcm`, its multiple on either side of 2^WREG. -/
theorem lcmWritesOrOverflows : Obligations.LcmWritesOrOverflows := by
  intro rd ra rb s a b t
  refine ⟨encode_and_rowOf (.lcm rd ra rb), s.othersIllegal rfl, fun hfits => ?_, fun hover => ?_⟩
  · rw [exec_lcm, State.finish_writeFitting_fits rd hfits]
  · rw [exec_lcm, State.finish_writeFitting_overflows rd hover]

/-! ## The decryption exponent, by either function (R172, R173) -/

theorem exponentOf_of_zero {lam : Nat → Nat → Nat} {rd ra rb : RegNum} {s : State}
    (h : s.blk.getX ra = 0 ∨ s.blk.getX rb = 0) : exponentOf lam rd ra rb s = .error .range :=
  if_pos h

theorem exponentOf_of_pos {lam : Nat → Nat → Nat} {rd ra rb : RegNum} {s : State}
    (hp : 0 < s.blk.getX ra) (hq : 0 < s.blk.getX rb) :
    exponentOf lam rd ra rb s = writeFitting s rd (lam (s.blk.getX ra) (s.blk.getX rb)) :=
  if_neg (not_or.2 ⟨hp.ne', hq.ne'⟩)

/-- A zero operand ends the command in ERR_RANGE. -/
theorem State.finish_exponentOf_zero {lam : Nat → Nat → Nat} {rd ra rb : RegNum} {s : State}
    (h : s.blk.getX ra = 0 ∨ s.blk.getX rb = 0) : s.finish (exponentOf lam rd ra rb s) = s.failed 0x06 := by
  rw [exponentOf_of_zero h, State.finish_error_eq_failed, ErrCode.code]

/-- An exponent below 2^WREG is written. -/
theorem State.finish_exponentOf_fits {lam : Nat → Nat → Nat} {rd ra rb : RegNum} {s : State}
    (hp : 0 < s.blk.getX ra) (hq : 0 < s.blk.getX rb)
    (hfits : lam (s.blk.getX ra) (s.blk.getX rb) < 2 ^ s.cfg.wreg) :
    s.finish (exponentOf lam rd ra rb s) = s.wrote s.entropy rd (lam (s.blk.getX ra) (s.blk.getX rb)) := by
  rw [exponentOf_of_pos hp hq, State.finish_writeFitting_fits rd hfits]

/-- An exponent from 2^WREG on ends the command in ERR_OVERFLOW. -/
theorem State.finish_exponentOf_overflows {lam : Nat → Nat → Nat} {rd ra rb : RegNum} {s : State}
    (hp : 0 < s.blk.getX ra) (hq : 0 < s.blk.getX rb)
    (hover : 2 ^ s.cfg.wreg ≤ lam (s.blk.getX ra) (s.blk.getX rb)) :
    s.finish (exponentOf lam rd ra rb s) = s.failed 0x07 := by
  rw [exponentOf_of_pos hp hq, State.finish_writeFitting_overflows rd hover]

/-! ## CARM and CARM.S (R173) -/

theorem exec_carm (rd ra rb : RegNum) (s : State) :
    exec (.carm rd ra rb) s = .next (s.finish (exponentOf carm rd ra rb s)) := rfl

theorem exec_carmS (rd ra rb : RegNum) (s : State) :
    exec (.carmS rd ra rb) s = .next (s.finish (exponentOf phi rd ra rb s)) := rfl

/-- Settles O14: the three ends of `exponentOf`, for the λ of CARM (`carm`) and the one of CARM.S (`phi`). -/
theorem carmWritesTheExponent : Obligations.CarmWritesTheExponent := by
  intro rd ra rb s p q lam lamS
  refine ⟨encode_and_rowOf (.carm rd ra rb), encode_and_rowOf (.carmS rd ra rb), s.othersIllegal rfl,
    fun hzero => ⟨?_, ?_⟩, fun hp hq => ⟨fun hfits => ?_, fun hover => ?_, fun hfits => ?_, fun hover => ?_⟩⟩
  · rw [exec_carm, State.finish_exponentOf_zero hzero]
  · rw [exec_carmS, State.finish_exponentOf_zero hzero]
  · rw [exec_carm, State.finish_exponentOf_fits hp hq hfits, carm]
  · rw [exec_carm, State.finish_exponentOf_overflows hp hq hover]
  · rw [exec_carmS, State.finish_exponentOf_fits hp hq hfits, phi]
  · rw [exec_carmS, State.finish_exponentOf_overflows hp hq hover]

end Sys2Proof.Machine
end

section
/-! SUPPORT. The L-function (44_l_function.md R180, R181), and the statement about LFUNC. -/

namespace Sys2Proof.Machine

/-! ## Where L is defined, and its value there (R180) -/

/-- L has no value at 0 and where the division leaves a remainder. -/
theorem not_lExact_of_inexact {x n : Nat} (h : x = 0 ∨ (x - 1) % n ≠ 0) : ¬ lExact x n = true := by
  rw [lExact_iff]
  rintro ⟨hx, hdiv⟩
  rcases h with hzero | hrem
  · exact absurd hzero (Nat.one_le_iff_ne_zero.1 hx)
  · exact hrem hdiv

theorem lExact_one_add_mul (k n : Nat) : lExact (1 + k * n) n = true := by
  rw [lExact_iff, Nat.add_sub_cancel_left]
  exact ⟨Nat.le_add_right 1 _, Nat.mul_mod_left k n⟩

theorem lFun_one_add_mul (k : Nat) {n : Nat} (hn : 0 < n) : lFun (1 + k * n) n = k := by
  rw [lFun, Nat.add_sub_cancel_left, Nat.mul_div_cancel k hn]

/-! ## LFUNC (R181) -/

/-- LFUNC checks n, then whether L is exact, and only then writes. -/
theorem exec_lfunc (rd ra rc : RegNum) (s : State) :
    exec (.lfunc rd ra rc) s = .next (s.finish (
      if s.blk.getX rc = 0 then .error .modulus
      else if lExact (s.blk.getX ra) (s.blk.getX rc) then
        .ok (s.blk.setX rd (lFun (s.blk.getX ra) (s.blk.getX rc)))
      else .error .lNotExact)) := rfl

/-- Settles O15: `exec_lfunc` under each outcome of its two checks; at x = 1 + k · n what it writes is k by
`lFun_one_add_mul`. -/
theorem lfuncIsExactOrFails : Obligations.LfuncIsExactOrFails := by
  intro rd ra rc s x n
  refine ⟨encode_and_rowOf (.lfunc rd ra rc), s.othersIllegal rfl, fun hzero => ?_, fun hpos hinexact => ?_,
    fun hpos k hx => ?_⟩
  · rw [exec_lfunc, if_pos hzero, State.finish_error_eq_failed, ErrCode.code]
  · rw [exec_lfunc, if_neg hpos.ne', if_neg (not_lExact_of_inexact hinexact), State.finish_error_eq_failed, ErrCode.code]
  · have hexact : lExact x n = true := hx ▸ lExact_one_add_mul k n
    have hvalue : lFun x n = k := hx ▸ lFun_one_add_mul k hpos
    rw [exec_lfunc, if_neg hpos.ne', if_pos hexact, State.finish_setX, hvalue]

end Sys2Proof.Machine
end

section
/-! SUPPORT. The key sequencer without key generation (45_key_management.md R191, R199 to R205), and the statements
about NOP, KEYLOAD.PK, KEYLOAD.SK, KEYGET and KEYCLR. -/

namespace Sys2Proof.Machine

/-- Committing a block that differs from s's in the key bank and the valid bits. -/
theorem State.commit_bank (s : State) (k : KeyBank) (pk sk : Bool) :
    s.commit { s.blk with key := k, pkValid := pk, skValid := sk } = s.done s.blk.x k pk sk s.entropy := rfl

/-! ## NOP and KEYCLR (R191, R205) -/

theorem exec_nop (s : State) :
    exec .nop s = .next (s.done s.blk.x s.blk.key s.blk.pkValid s.blk.skValid s.entropy) := rfl

theorem exec_keyclr (s : State) : exec .keyclr s = .next (s.done s.blk.x KeyBank.empty false false s.entropy) := rfl

/-- Settles O7: the two commands have no operand field, so each encodes to one word, and no check, so each has one
outcome. -/
theorem nopAndKeyclrComplete : Obligations.NopAndKeyclrComplete :=
  ⟨rfl, rfl, fun s => ⟨s.othersIllegal rfl, s.othersIllegal rfl, exec_nop s, exec_keyclr s⟩⟩

/-! ## KEYLOAD.PK (R199) -/

/-- KEYLOAD.PK's checks in their order, all of them with the same error. -/
theorem exec_keyloadPk (ra rb rc : RegNum) (s : State) :
    exec (.keyloadPk ra rb rc) s = .next (s.finish (
      if (s.blk.getX ra < 3 ∨ s.blk.getX ra % 2 = 0) ∨ s.blk.getX rb ≠ s.blk.getX ra * s.blk.getX ra ∨
          s.blk.getX rb ≤ s.blk.getX rc ∨ Nat.gcd (s.blk.getX rc) (s.blk.getX ra) ≠ 1 then .error .construction
      else .ok { s.blk with
        key := { KeyBank.empty with n := s.blk.getX ra, n2 := s.blk.getX rb, g := s.blk.getX rc }
        pkValid := true
        skValid := false })) := by
  simp only [exec, execKeyloadPk, ite_or]

/-- What KEYLOAD.PK's checks refuse is what breaks a condition of R25 on the public part. -/
theorem publicKey_refused_iff {n n2 g : Nat} :
    (n < 3 ∨ n % 2 = 0) ∨ n2 ≠ n * n ∨ n2 ≤ g ∨ Nat.gcd g n ≠ 1 ↔
      ¬ (3 ≤ n ∧ n % 2 = 1 ∧ n2 = n * n ∧ g < n2 ∧ Nat.gcd g n = 1) := by
  omega

/-- Settles O29: `exec_keyloadPk` on either side of `publicKey_refused_iff`. -/
theorem keyloadPkInstallsOrRefuses : Obligations.KeyloadPkInstallsOrRefuses := by
  intro ra rb rc s n n2 g ok
  refine ⟨encode_and_rowOf (.keyloadPk ra rb rc), s.othersIllegal rfl, fun hok => ?_, fun hbad => ?_⟩
  · rw [exec_keyloadPk, if_neg (publicKey_refused_iff.not_left.2 hok), State.finish_ok, State.commit_bank,
      KeyBank.empty]
  · rw [exec_keyloadPk, if_pos (publicKey_refused_iff.2 hbad), State.finish_error_eq_failed, ErrCode.code]

/-! ## KEYLOAD.SK (R201) -/

/-- KEYLOAD.SK looks for the public key first; all its further checks have the same error. The engine's
square-and-multiply is replaced by the power it computes. -/
theorem exec_keyloadSk (rd ra rb rc : RegNum) (s : State) :
    exec (.keyloadSk rd ra rb rc) s = .next (s.finish (
      if !s.blk.pkValid then .error .noKey
      else if s.blk.getX rb * s.blk.getX rc ≠ s.blk.key.n ∨
          (s.blk.getX rd ≠ phi (s.blk.getX rb) (s.blk.getX rc) ∧ s.blk.getX rd ≠ carm (s.blk.getX rb) (s.blk.getX rc)) ∨
          s.blk.key.n ≤ s.blk.getX ra ∨
          (!lExact (s.blk.key.g ^ s.blk.getX rd % s.blk.key.n2) s.blk.key.n) = true ∨
          s.blk.getX ra * lFun (s.blk.key.g ^ s.blk.getX rd % s.blk.key.n2) s.blk.key.n % s.blk.key.n ≠ 1 then
        .error .construction
      else .ok { s.blk with
        key := { s.blk.key with
          lambda := s.blk.getX rd, mu := s.blk.getX ra, p := s.blk.getX rb, q := s.blk.getX rc }
        skValid := true })) := by
  simp only [exec, execKeyloadSk, powmod_eq, ite_or]

/-- What KEYLOAD.SK's checks refuse is what breaks a condition of R25 on the private part, x being g^λ mod n2. -/
theorem privateKey_refused_iff {n lam mu p q x : Nat} :
    p * q ≠ n ∨ (lam ≠ phi p q ∧ lam ≠ carm p q) ∨ n ≤ mu ∨ (!lExact x n) = true ∨ mu * lFun x n % n ≠ 1 ↔
      ¬ (p * q = n ∧ (lam = (p - 1) * (q - 1) ∨ lam = Nat.lcm (p - 1) (q - 1)) ∧ mu < n ∧
        1 ≤ x ∧ (x - 1) % n = 0 ∧ mu * ((x - 1) / n) % n = 1) := by
  have hexact : (!lExact x n) = true ↔ ¬ (1 ≤ x ∧ (x - 1) % n = 0) := by
    rw [← lExact_iff, Bool.not_eq_true', Bool.not_eq_true]
  rw [hexact, phi, carm, lFun]
  omega

/-- Settles O30: `exec_keyloadSk` without a public key, and with one on either side of `privateKey_refused_iff`. -/
theorem keyloadSkInstallsOrRefuses : Obligations.KeyloadSkInstallsOrRefuses := by
  intro rd ra rb rc s lam mu p q k x ok
  refine ⟨encode_and_rowOf (.keyloadSk rd ra rb rc), s.othersIllegal rfl, fun hno => ?_, fun hpk hok => ?_,
    fun hpk hbad => ?_⟩
  · rw [exec_keyloadSk, if_pos (by rw [hno]; rfl), State.finish_error_eq_failed, ErrCode.code]
  · rw [exec_keyloadSk, if_neg (by simp [hpk]), if_neg (privateKey_refused_iff.not_left.2 hok), State.finish_ok,
      State.commit_bank, hpk]
  · rw [exec_keyloadSk, if_neg (by simp [hpk]), if_pos (privateKey_refused_iff.2 hbad), State.finish_error_eq_failed,
      ErrCode.code]

/-! ## KEYGET (R203) -/

/-- An index that has a field copies it, whatever the valid bits are. -/
theorem exec_keyget {rd : RegNum} {i : Fin 16} {s : State} {v : Nat} (h : s.blk.key.field i = some v) :
    exec (.keyget rd i) s = .next (s.wrote s.entropy rd v) := by
  rw [← State.finish_setX]
  simp only [exec, execKeyget, h]

/-- KEYGET's row matches no word whose index is beyond 6 (30_encoding.md R94). -/
theorem rowMatches_keyget_eq_false {w : Word32} (h : 7 ≤ (w.extractLsb' 12 4).toNat) :
    rowMatches w (0xFFFF00FF, 0x00000013) = false := by
  have hindex : ¬ (w.extractLsb' 12 4).toNat ≤ 6 := by omega
  simp only [rowMatches, decide_eq_false hindex, bne_self_eq_false, Bool.or_false, Bool.and_false]

/-- Settles O31: the seven indices are those of `KeyBank.field`, each an instance of `exec_keyget`; beyond them no row
of the opcode is left. -/
theorem keygetCopiesTheField : Obligations.KeygetCopiesTheField := by
  intro rd s
  have others : s.OthersIllegal 0x13 [(0xFFFF00FF, 0x00000013)] := s.othersIllegal rfl
  refine ⟨fun i => encode_and_rowOf (.keyget rd i), others, exec_keyget rfl, exec_keyget rfl, exec_keyget rfl,
    exec_keyget rfl, exec_keyget rfl, exec_keyget rfl, exec_keyget rfl, fun l hl hop hindex => ?_⟩
  exact others l hl hop (List.forall_mem_singleton.2 (rowMatches_keyget_eq_false hindex))

end Sys2Proof.Machine
end

section
/-! SUPPORT. The Paillier encryptor (46_encryptor.md R220 to R225), and the statement about ENCRYPT.R. -/

namespace Sys2Proof.Machine

/-- Enc with the engine's square-and-multiply replaced by the powers it computes (R220). -/
theorem KeyBank.enc_eq (k : KeyBank) (m r : Nat) :
    k.enc m r = k.g ^ m % k.n2 * (r ^ k.n % k.n2) % k.n2 := by
  rw [KeyBank.enc, powmod_eq, powmod_eq]

/-- ENCRYPT.R looks for the public key, then whether r is a unit below n, and only then writes; it takes no draw
(R225). -/
theorem exec_encryptR (rd ra rb : RegNum) (s : State) :
    exec (.encryptR rd ra rb) s = .next (s.finish (
      if !s.blk.pkValid then .error .noKey
      else if s.blk.getX rb = 0 ∨ s.blk.key.n ≤ s.blk.getX rb ∨ Nat.gcd (s.blk.getX rb) s.blk.key.n ≠ 1 then
        .error .precondition
      else .ok (s.blk.setX rd (s.blk.key.enc (s.blk.getX ra) (s.blk.getX rb))))) := rfl

/-- Settles O34: `exec_encryptR` under each outcome of its two checks; what it writes behind both is the product of
powers by `KeyBank.enc_eq`. -/
theorem encryptRWritesTheCiphertext : Obligations.EncryptRWritesTheCiphertext := by
  intro rd ra rb s k m r bad
  refine ⟨encode_and_rowOf (.encryptR rd ra rb), s.othersIllegal rfl, fun hno => ?_, fun hpk hbad => ?_,
    fun hpk hunit => ?_⟩
  · rw [exec_encryptR, if_pos (by rw [hno]; rfl), State.finish_error_eq_failed, ErrCode.code]
  · rw [exec_encryptR, if_neg (by simp [hpk]), if_pos hbad, State.finish_error_eq_failed, ErrCode.code]
  · rw [exec_encryptR, if_neg (by simp [hpk]), if_neg hunit, State.finish_setX, KeyBank.enc_eq]

end Sys2Proof.Machine
end

section
/-! SUPPORT. The Paillier decryptor (47_decryptor.md R240, R241), and the statement about DECRYPT. -/

namespace Sys2Proof.Machine

/-- DECRYPT looks for the private key, then at the ciphertext's range, then whether L is exact, and only then writes
(R241). The engine's square-and-multiply is replaced by the power it computes. -/
theorem exec_decrypt (rd ra : RegNum) (s : State) :
    exec (.decrypt rd ra) s = .next (s.finish (
      if !s.blk.skValid then .error .noKey
      else if s.blk.key.n2 ≤ s.blk.getX ra then .error .range
      else if !lExact (s.blk.getX ra ^ s.blk.key.lambda % s.blk.key.n2) s.blk.key.n then .error .lNotExact
      else .ok (s.blk.setX rd
        (lFun (s.blk.getX ra ^ s.blk.key.lambda % s.blk.key.n2) s.blk.key.n * s.blk.key.mu % s.blk.key.n)))) := by
  simp only [exec, execDecrypt, powmod_eq]

/-- Settles O35: `exec_decrypt` under each outcome of its three checks; `lExact_iff` and `not_lExact_of_inexact` decide
the last one. -/
theorem decryptWritesThePlaintext : Obligations.DecryptWritesThePlaintext := by
  intro rd ra s k c x
  refine ⟨encode_and_rowOf (.decrypt rd ra), s.othersIllegal rfl, fun hno => ?_, fun hsk hlarge => ?_,
    fun hsk hlt hinexact => ?_, fun hsk hlt hpos hdiv => ?_⟩
  · rw [exec_decrypt, if_pos (by rw [hno]; rfl), State.finish_error_eq_failed, ErrCode.code]
  · rw [exec_decrypt, if_neg (by simp [hsk]), if_pos hlarge, State.finish_error_eq_failed, ErrCode.code]
  · have hrefused : (!lExact x k.n) = true := by simpa using not_lExact_of_inexact hinexact
    rw [exec_decrypt, if_neg (by simp [hsk]), if_neg hlt.not_ge, if_pos hrefused, State.finish_error_eq_failed,
      ErrCode.code]
  · have hexact : ¬ (!lExact x k.n) = true := by simpa using (lExact_iff x k.n).2 ⟨hpos, hdiv⟩
    rw [exec_decrypt, if_neg (by simp [hsk]), if_neg hlt.not_ge, if_neg hexact, State.finish_setX, lFun]

end Sys2Proof.Machine
end

section
/-! SUPPORT. The interrupt output (60_exceptions.md R256): what irq is after each update of the block, and the statement
about it. -/

namespace Sys2Proof.Machine

/-! ## irq after the block's updates -/

theorem Block.irq_iff (b : Block) : b.irq = true ↔ b.irqEn = true ∧ b.done = true := by
  rw [Block.irq, Bool.and_eq_true]

@[simp] theorem Block.irq_complete (b : Block) (err : Bool) (code : BitVec 8) : (b.complete err code).irq = b.irqEn :=
  Bool.and_true b.irqEn

@[simp] theorem Block.irq_issue (b : Block) (v : Word32) : (b.issue v).irq = false :=
  Bool.and_false b.irqEn

@[simp] theorem Block.irq_reset : Block.reset.irq = false := rfl

/-- Writing 1 to DONE lowers irq. -/
theorem Block.irq_writeStatus {v : Word32} (b : Block) (hv : v.getLsbD 1 = true) : (b.writeStatus v).irq = false := by
  rw [Block.irq, Block.writeStatus_done, hv, Bool.not_true, Bool.and_false, Bool.and_false]

/-- A CTRL write that is no soft reset puts its bit 8 in IRQ_EN and leaves DONE. -/
theorem Block.irq_writeCtrl {v : Word32} (b : Block) (hv : v.getLsbD 31 = false) :
    (b.writeCtrl v).irq = (v.getLsbD 8 && b.done) := by
  rw [Block.writeCtrl, if_neg (Bool.eq_false_iff.1 hv)]
  rfl

/-- A CTRL write with bit 8 clear lowers irq, as a soft reset (R291) or by disabling it. -/
theorem Block.irq_writeCtrl_disable {v : Word32} (b : Block) (hv : v.getLsbD 8 = false) :
    (b.writeCtrl v).irq = false := by
  cases hreset : v.getLsbD 31
  · rw [b.irq_writeCtrl hreset, hv, Bool.false_and]
  · rw [Block.writeCtrl, if_pos hreset, Block.irq_reset]

/-! ## irq after a completion -/

/-- Neither an error nor a command's own writes touch IRQ_EN, so its completion makes irq IRQ_EN. -/
theorem EndsWell.irq_finish {i : Instr} {s : State} {c : CmdResult} (h : EndsWell i s.blk c) :
    (s.finish c).blk.irq = s.blk.irqEn := by
  cases c with
  | error e => exact s.blk.irq_complete true e.code
  | ok b =>
    have hen : b.irqEn = s.blk.irqEn := by rw [h.only]
    rw [State.finish_ok, State.commit_blk, Block.irq_complete, hen]

/-- A command that leaves a busy block idle has ended: a loop that goes on leaves it busy. -/
theorem exec_completion_irq {i : Instr} {s t : State} (hbusy : s.blk.busy = true) (h : exec i s = .next t)
    (hidle : t.blk.busy = false) : t.blk.irq = s.blk.irqEn := by
  rcases exec_ends i s with ⟨-, hgo⟩ | ⟨en, c, hend, hwell⟩
  · obtain rfl := Host.Outcome.next.inj (h.symm.trans hgo)
    rw [State.goOn_blk, hbusy] at hidle
    cases hidle
  · obtain rfl := Host.Outcome.next.inj (h.symm.trans hend)
    rw [State.finishDrawn_blk, hwell.irq_finish]

/-- A latched word that no row matches raises ERR_ILLEGAL (30_encoding.md R103). -/
theorem engineStep_illegal {s : State} {l : Latch} (hl : s.blk.latch = some l) (hd : decode l.word = none) :
    engineStep s = .next (s.raiseError .illegal) := by
  simp [engineStep, hl, hd]

theorem engineStep_completion_irq {s t : State} (hbusy : s.blk.busy = true) (h : engineStep s = .next t)
    (hidle : t.blk.busy = false) : t.blk.irq = s.blk.irqEn := by
  obtain ⟨l, hl⟩ := s.blk.busy_iff.1 hbusy
  rcases engineStep_cases s with ⟨hn, -⟩ | ⟨-, -, ⟨-, hill⟩ | ⟨i, -, hrun⟩⟩
  · rw [hn] at hl
    cases hl
  · obtain rfl := Host.Outcome.next.inj (h.symm.trans hill)
    rw [State.raiseError_blk, Block.irq_complete]
  · exact exec_completion_irq hbusy (hrun ▸ h) hidle

/-! ## The host's writes (20_memory.md R62) -/

/-- A 32-bit write at 0x08 is the write to CTRL. -/
theorem State.busWrite_ctrl (s : State) (v : Word32) :
    s.busWrite .bits32 (s.cfg.mmioBase + 0x08) v = some { s with blk := s.blk.writeCtrl v } :=
  State.busWrite_add s .bits32 v (by decide)

/-- A 32-bit write at 0x10 is the write to STATUS. -/
theorem State.busWrite_status (s : State) (v : Word32) :
    s.busWrite .bits32 (s.cfg.mmioBase + 0x10) v = some { s with blk := s.blk.writeStatus v } :=
  State.busWrite_add s .bits32 v (by decide)

/-- Settles O52: the completions are `exec_completion_irq` and `engineStep_completion_irq`, the host's writes the
`irq` lemmas of the block update each one makes. -/
theorem interruptFollowsDoneAndEnable : Obligations.InterruptFollowsDoneAndEnable := by
  intro s
  refine ⟨s.blk.irq_iff, fun i t => exec_completion_irq, fun t => engineStep_completion_irq, fun l hl hd => ?illegal,
    fun v t hen hrst hw => ?enable, fun v t hv hw => ?clearDone, fun v t hidle hw => ?issue, fun v t hv hw => ?disable,
    Block.irq_reset⟩
  case illegal => exact ⟨_, engineStep_illegal hl hd, rfl, s.blk.irq_complete true _⟩
  case enable =>
    obtain rfl := Option.some.inj ((s.busWrite_ctrl v).symm.trans hw)
    rw [s.blk.irq_writeCtrl hrst, hen, Bool.true_and]
  case clearDone =>
    obtain rfl := Option.some.inj ((s.busWrite_status v).symm.trans hw)
    exact s.blk.irq_writeStatus hv
  case issue =>
    obtain rfl := Option.some.inj ((s.busWrite_cmd v).symm.trans hw)
    rw [Block.writeCmd_idle hidle, Block.irq_issue]
  case disable =>
    obtain rfl := Option.some.inj ((s.busWrite_ctrl v).symm.trans hw)
    exact s.blk.irq_writeCtrl_disable hv

end Sys2Proof.Machine
end

section
/-! SUPPORT. The command word and its command determine each other (30_encoding.md R90 to R95), a step runs the latched
command, and the statements about encoding and stepping. -/

namespace Sys2Proof

/-! ## Encoding and decoding (R90, R95) -/

/-- Every well-formed instruction's fields decode to it: the family of Laws/PerInstr.lean. -/
theorem decodeFields_encodeFields (i : Instr) : Laws.FieldsRoundTrip.Statement i := by
  cases i with
  | nop => exact Laws.FieldsRoundTrip.nop
  | modexp rd ra rb rc => exact Laws.FieldsRoundTrip.modexp rd ra rb rc
  | modmul rd ra rb rc => exact Laws.FieldsRoundTrip.modmul rd ra rb rc
  | mul rd ra rb => exact Laws.FieldsRoundTrip.mul rd ra rb
  | modinv rd ra rc => exact Laws.FieldsRoundTrip.modinv rd ra rc
  | gcd rd ra rb => exact Laws.FieldsRoundTrip.gcd rd ra rb
  | lcm rd ra rb => exact Laws.FieldsRoundTrip.lcm rd ra rb
  | carm rd ra rb => exact Laws.FieldsRoundTrip.carm rd ra rb
  | carmS rd ra rb => exact Laws.FieldsRoundTrip.carmS rd ra rb
  | lfunc rd ra rc => exact Laws.FieldsRoundTrip.lfunc rd ra rc
  | bitlen rd ra => exact Laws.FieldsRoundTrip.bitlen rd ra
  | primetest rd ra => exact Laws.FieldsRoundTrip.primetest rd ra
  | genprime rd ra => exact Laws.FieldsRoundTrip.genprime rd ra
  | randbelow rd ra => exact Laws.FieldsRoundTrip.randbelow rd ra
  | randbits rd ra => exact Laws.FieldsRoundTrip.randbits rd ra
  | keygen ra => exact Laws.FieldsRoundTrip.keygen ra
  | keygenS ra => exact Laws.FieldsRoundTrip.keygenS ra
  | keyloadPk ra rb rc => exact Laws.FieldsRoundTrip.keyloadPk ra rb rc
  | keyloadSk rd ra rb rc => exact Laws.FieldsRoundTrip.keyloadSk rd ra rb rc
  | keyget rd k => exact Laws.FieldsRoundTrip.keyget rd k
  | keyclr => exact Laws.FieldsRoundTrip.keyclr
  | encrypt rd ra => exact Laws.FieldsRoundTrip.encrypt rd ra
  | encryptZkp rd ra rb => exact Laws.FieldsRoundTrip.encryptZkp rd ra rb
  | encryptR rd ra rb => exact Laws.FieldsRoundTrip.encryptR rd ra rb
  | decrypt rd ra => exact Laws.FieldsRoundTrip.decrypt rd ra

theorem decode_encode {i : Instr} (h : i.wellFormed = true) : decode (encode i) = some i := by
  rw [decode, encode, Fields.ofWord_toWord, decodeFields_encodeFields i h]

/-- Settles O1: the word gives its fields back, and they decode field by field. -/
theorem decodeOfEncodeIsTheInstruction : Obligations.DecodeOfEncodeIsTheInstruction :=
  fun _ => decode_encode

/-- Settles O2: the decoder reads every field (`decodeFields_eq_some`), and the fields are the whole word. -/
theorem encodeOfDecodeIsTheWord : Obligations.EncodeOfDecodeIsTheWord := by
  intro w i h
  obtain ⟨hwf, hfields⟩ := decodeFields_eq_some h
  refine ⟨hwf, ?_⟩
  rw [encode, hfields, Fields.toWord_ofWord]

/-- Settles O5: the words are fixed, and the decoder computes. -/
theorem exampleWordsDecodeAsWritten : Obligations.ExampleWordsDecodeAsWritten := by
  unfold Obligations.ExampleWordsDecodeAsWritten
  decide

end Sys2Proof

namespace Sys2Proof.Machine

/-! ## A step (20_memory.md R75, 30_encoding.md R103) -/

theorem engineStep_idle {s : State} (hl : s.blk.latch = none) : engineStep s = .next s := by
  simp [engineStep, hl]

theorem engineStep_command {s : State} {l : Latch} {i : Instr} (hl : s.blk.latch = some l)
    (hd : decode l.word = some i) : engineStep s = exec i s := by
  simp [engineStep, hl, hd]

/-- The step after the model's own load is the engine's, and finds the word as an issue latches it (log 8). -/
theorem step_withFetchWord {w : Word32} {i : Instr} (s : State) (hd : decode w = some i) :
    step (s.withFetchWord 32 w.toNat) = exec i { s with blk := s.blk.issue w } := by
  have hword : BitVec.ofNat 32 (w.toNat % 2 ^ 32) = w := by
    rw [Nat.mod_eq_of_lt w.isLt, BitVec.ofNat_toNat, BitVec.setWidth_eq]
  rw [State.withFetchWord, hword, step, State.nextEvent_fixed (ev := .engine) (rest := s.sched.events) rfl]
  exact engineStep_command (s := { s with blk := s.blk.issue w }) (s.blk.issue_latch w) hd

/-- Settles O6: `step` is `runEvent` of the chosen event, and the engine's cases are those of its latch. -/
theorem stepRunsTheDecodedCommand : Obligations.StepRunsTheDecodedCommand := by
  intro s
  obtain ⟨sc, hsc⟩ := s.nextEvent_frame
  have hstep : step s = runEvent s.nextEvent.1 { s with sched := sc } := by rw [step, hsc]
  refine ⟨sc, hsc, fun he => ?engine, fun he => ?host, fun he => ?powerOn, fun w i => step_withFetchWord s⟩
  case engine =>
    have hrun : step s = engineStep { s with sched := sc } := by rw [hstep, he, runEvent]
    rw [hrun]
    exact ⟨fun _ _ hl => engineStep_command (s := { s with sched := sc }) hl,
      fun _ hl => engineStep_illegal (s := { s with sched := sc }) hl, fun hl => engineStep_idle hl⟩
  case host => rw [hstep, he, runEvent]
  case powerOn =>
    rw [hstep, he, runEvent]
    rfl

end Sys2Proof.Machine
end

section
/-! SUPPORT. The frame of a command (10_state.md R22, R24, 60_exceptions.md R253), and the statements about what no
command does. -/

namespace Sys2Proof.Machine

/-- What the next state of a command is: its loop goes on, or it has ended, with draws taken. -/
theorem exec_cases {i : Instr} {s t : State} (h : exec i s = .next t) :
    (i.loops = true ∧ t = s.goOn) ∨ ∃ en c, t = s.finishDrawn en c ∧ EndsWell i s.blk c := by
  rcases exec_ends i s with ⟨hloop, hgo⟩ | ⟨en, c, hend, hwell⟩
  · exact .inl ⟨hloop, Host.Outcome.next.inj (h.symm.trans hgo)⟩
  · exact .inr ⟨en, c, Host.Outcome.next.inj (h.symm.trans hend), hwell⟩

/-! ## Completion (30_encoding.md R105) -/

theorem ErrCode.code_ne_zero (e : ErrCode) : e.code ≠ 0 := by
  cases e <;> decide

/-- A command that has ended is no longer latched, DONE is set, and ERR is set exactly with a code. -/
theorem State.finish_completed (s : State) (c : CmdResult) :
    (s.finish c).blk.busy = false ∧ (s.finish c).blk.done = true ∧
      ((s.finish c).blk.err = false ↔ (s.finish c).blk.errCode = 0) := by
  cases c with
  | ok b => exact ⟨rfl, rfl, iff_of_true rfl rfl⟩
  | error e => exact ⟨rfl, rfl, iff_of_false (nofun : true ≠ false) e.code_ne_zero⟩

/-- Settles O36: the two cases are those of `exec_cases`. -/
theorem everyCommandCompletesOrGoesOn : Obligations.EveryCommandCompletesOrGoesOn := by
  intro i s
  obtain ⟨t, ht⟩ := exec_next i s
  refine ⟨t, ht, ?_⟩
  rcases exec_cases ht with ⟨hloop, rfl⟩ | ⟨en, c, rfl, -⟩
  · exact .inr ⟨hloop, rfl⟩
  · exact .inl (s.finish_completed c)

/-- Settles O37: with BUSY and ERR as given the command has ended in an error (`exec_cases`), and the state after one is
`State.failed` with the draws taken. -/
theorem errorWritesOnlyStatus : Obligations.ErrorWritesOnlyStatus := by
  intro i s t hwf hbusy h herr hidle
  rcases exec_cases h with ⟨-, rfl⟩ | ⟨en, c, rfl, hwell⟩
  · rw [State.goOn_blk, hbusy] at hidle
    cases hidle
  · cases c with
    | ok b => cases herr
    | error e =>
      rcases hwell with hcode | ⟨hill, -⟩
      · exact ⟨hcode, rfl⟩
      · rw [hwf] at hill
        cases hill

/-! ## The frames -/

/-- An ended command leaves every register that is no destination of it. -/
theorem State.finish_getX {i : Instr} {s : State} {c : CmdResult} (hwell : EndsWell i s.blk c) {r : RegNum}
    (hr : r ∉ i.dests) : (s.finish c).blk.getX r = s.blk.getX r := by
  cases c with
  | ok b => exact hwell.regs r hr
  | error e => rfl

/-- Settles O38: a loop that goes on writes nothing, and a command that ends writes its destinations alone. -/
theorem onlyDestinationRegistersChange : Obligations.OnlyDestinationRegistersChange := by
  intro i s t r h hr
  rcases exec_cases h with ⟨-, rfl⟩ | ⟨en, c, rfl, hwell⟩
  · rfl
  · exact State.finish_getX hwell hr

/-- Settles O39: the bank of what a command commits is the `bank` of `Commits`, and an error writes none. -/
theorem onlyKeyCommandsChangeTheBank : Obligations.OnlyKeyCommandsChangeTheBank := by
  intro i s t h hbank
  rcases exec_cases h with ⟨-, rfl⟩ | ⟨en, c, rfl, hwell⟩
  · exact ⟨rfl, rfl, rfl⟩
  · cases c with
    | ok b => exact hwell.bank hbank
    | error e => exact ⟨rfl, rfl, rfl⟩

/-- Settles O40: what a command commits differs from the block in registers, bank and valid bits only (`Commits.only`);
completion and draws touch none of the host's either. -/
theorem commandsLeaveHostRegistersAlone : Obligations.CommandsLeaveHostRegistersAlone := by
  intro i s t h
  rcases exec_cases h with ⟨-, rfl⟩ | ⟨en, c, rfl, hwell⟩
  · simp
  · cases c with
    | ok b =>
      rw [State.finishDrawn_blk, State.finish_ok, State.commit_blk, hwell.only]
      simp
    | error e => simp

end Sys2Proof.Machine
end

section
/-! SUPPORT. The plain registers of the window (10_state.md R31 to R38), reset (70_reset_and_hazards.md R290 to R292),
the words of a wide register (20_memory.md R66) and the host program (R60), and the statements about them. -/

namespace Sys2Proof.Machine

/-! ## Plain registers -/

/-- A 32-bit read of a register that the access leaves alone. -/
theorem State.busRead_plain (s : State) {off : Nat} {v : Word32} (hoff : off < 64)
    (hread : s.blk.readReg s.cfg .bits32 off = (v, s.blk)) :
    s.busRead .bits32 (s.cfg.mmioBase + off) = some (v, s) := by
  rw [State.busRead_add s .bits32 hoff, hread]

/-- A 32-bit read at 0x10 is the STATUS word. -/
theorem State.busRead_status (s : State) :
    s.busRead .bits32 (s.cfg.mmioBase + 0x10) = some (s.blk.statusWord, s) :=
  s.busRead_plain (by decide) rfl

/-- Settles O43: the bits of the word read are those of Laws/Flags.lean, and the write is `Block.writeStatus`. -/
theorem statusReadsAndClears : Obligations.StatusReadsAndClears := by
  intro s
  refine ⟨⟨s.blk.statusWord, s.busRead_status, s.blk.statusWord_busy, s.blk.statusWord_done, s.blk.statusWord_err,
    s.blk.statusWord_cmdOverrun, s.blk.statusWord_accessErr, s.blk.statusWord_reserved_low, s.blk.statusWord_errCode,
    s.blk.statusWord_pkValid, s.blk.statusWord_skValid, s.blk.statusWord_reserved_high⟩, fun v => ?_⟩
  rw [State.busWrite_status]
  rfl

/-- A CTRL write with bit 31 set is the soft reset, whatever its other bits are (70_reset_and_hazards.md R291). -/
theorem State.busWrite_ctrl_reset (s : State) {v : Word32} (hv : v.getLsbD 31 = true) :
    s.busWrite .bits32 (s.cfg.mmioBase + 0x08) v = some s.powerOnReset := by
  rw [State.busWrite_ctrl, Block.writeCtrl, if_pos hv, State.powerOnReset]

/-- Any other CTRL write sets IRQ_EN, and MR_ROUNDS unless that field is written 0. -/
theorem State.busWrite_ctrl_fields (s : State) {v : Word32} (hv : v.getLsbD 31 = false) :
    s.busWrite .bits32 (s.cfg.mmioBase + 0x08) v = some { s with blk := { s.blk with
      irqEn := v.getLsbD 8
      mrRounds := if v.extractLsb' 0 8 = 0 then s.blk.mrRounds else v.extractLsb' 0 8 } } := by
  rw [State.busWrite_ctrl, Block.writeCtrl, if_neg (Bool.eq_false_iff.1 hv)]

/-- Settles O44: the soft reset is `State.busWrite_ctrl_reset`, the other writes `State.busWrite_ctrl_fields` on either
side of its test for 0. -/
theorem ctrlReadsWritesAndSoftResets : Obligations.CtrlReadsWritesAndSoftResets := by
  intro s
  refine ⟨⟨s.blk.ctrlWord, s.busRead_plain (by decide) rfl, s.blk.ctrlWord_mrRounds, s.blk.ctrlWord_irqEn,
    s.blk.ctrlWord_reserved⟩, fun v => ⟨fun hreset => ?_, fun hfields hrounds => ?_, fun hfields hzero => ?_⟩⟩
  · rw [s.busWrite_ctrl_reset hreset, State.powerOnReset]
  · rw [s.busWrite_ctrl_fields hfields, if_neg hrounds]
  · rw [s.busWrite_ctrl_fields hfields, if_pos hzero]

/-- NW fits PARAM's field in every legal configuration (00_scope.md R6). -/
theorem paramWord_nw_toNat {c : Config} (hc : c.Valid) :
    ((paramWord c).extractLsb' 0 16).toNat = 2 * c.keyBitsMax / 32 := by
  obtain ⟨-, -, hmax, -⟩ := hc
  rw [paramWord_nw, BitVec.toNat_ofNat, Config.nw, Config.wreg, Nat.mod_eq_of_lt (by omega)]

/-- Settles O45: each read is a plain one, its fields those of Laws/Flags.lean, and each write replaces its fields. -/
theorem plainRegistersReadAndWrite : Obligations.PlainRegistersReadAndWrite := by
  intro s v
  refine ⟨s.busRead_plain (by decide) rfl, fun hc => ?param, s.busRead_plain (by decide) rfl,
    s.busRead_plain (by decide) rfl, ?winSel, s.busWrite_add .bits32 v (by decide),
    s.busWrite_add .bits32 v (by decide)⟩
  case param =>
    exact ⟨paramWord s.cfg, s.busRead_plain (by decide) rfl, paramWord_nw_toNat hc, paramWord_nx s.cfg,
      paramWord_nk s.cfg⟩
  case winSel =>
    exact ⟨s.blk.winSelWord, s.busRead_plain (by decide) rfl, s.blk.winSelWord_word, s.blk.winSelWord_reg,
      s.blk.winSelWord_reserved, s.blk.winSelWord_autoinc⟩

/-! ## Reset (70_reset_and_hazards.md R290, R292) -/

/-- Settles O51: `Block.reset` names every value, its latch is empty, and the soft reset gives the same state. -/
theorem resetStateAndAbort : Obligations.ResetStateAndAbort :=
  fun s => ⟨rfl, Block.irq_reset, Block.getX_reset, engineStep_idle rfl, fun _ => s.busWrite_ctrl_reset⟩

/-! ## Words of a wide register (20_memory.md R66) -/

/-- The quotient above word i, the new word, and the remainder below it. -/
theorem replaceWord_eq (v i : Nat) (u : Word32) :
    replaceWord v i u = 2 ^ (32 * i) * (2 ^ 32 * (v / 2 ^ (32 * i) / 2 ^ 32) + u.toNat) + v % 2 ^ (32 * i) := by
  have hlow : v = 2 ^ (32 * i) * (v / 2 ^ (32 * i)) + v % 2 ^ (32 * i) := (Nat.div_add_mod v _).symm
  have hhigh : v / 2 ^ (32 * i) = 2 ^ 32 * (v / 2 ^ (32 * i) / 2 ^ 32) + v / 2 ^ (32 * i) % 2 ^ 32 :=
    (Nat.div_add_mod _ _).symm
  rw [replaceWord, wordOf_toNat]
  generalize v / 2 ^ (32 * i) % 2 ^ 32 = w at *
  generalize 2 ^ 32 * (v / 2 ^ (32 * i) / 2 ^ 32) = h at *
  generalize v % 2 ^ (32 * i) = l at *
  rw [hlow, hhigh, Nat.mul_add, Nat.mul_add, Nat.mul_comm w, Nat.mul_comm u.toNat]
  omega

/-- The bits of a number with one word replaced: the new word's there, its own elsewhere. -/
theorem testBit_replaceWord (v i : Nat) (u : Word32) (k : Nat) :
    (replaceWord v i u).testBit k = if 32 * i ≤ k ∧ k < 32 * i + 32 then u.getLsbD (k - 32 * i) else v.testBit k := by
  rw [replaceWord_eq, Nat.testBit_two_pow_mul_add _ (Nat.mod_lt _ (by positivity)),
    Nat.testBit_two_pow_mul_add _ u.isLt, Nat.testBit_mod_two_pow, Nat.testBit_div_two_pow, Nat.testBit_div_two_pow]
  split_ifs with h1 h2 h3 h4 h5
  · omega
  · simp [h1]
  · rfl
  · omega
  · omega
  · rw [show k - 32 * i - 32 + 32 + 32 * i = k by omega]

theorem getLsbD_wordOf (v i : Nat) {k : Nat} (hk : k < 32) : (wordOf v i).getLsbD k = v.testBit (32 * i + k) := by
  rw [wordOf, BitVec.getLsbD_ofNat, Nat.testBit_div_two_pow, decide_eq_true hk, Bool.true_and, Nat.add_comm]

/-- Settles O49: bit for bit, by `testBit_replaceWord`; a number below 2^(32·nw) is one without bits from there on. -/
theorem replacedWordReadsBackOthersKept : Obligations.ReplacedWordReadsBackOthersKept := by
  intro v i nw u
  refine ⟨?same, fun j hj => ?other, fun hi hv => ?width⟩
  case same =>
    refine BitVec.eq_of_getLsbD_eq fun k hk => ?_
    rw [getLsbD_wordOf _ _ hk, testBit_replaceWord, if_pos (by omega), Nat.add_sub_cancel_left]
  case other =>
    refine BitVec.eq_of_getLsbD_eq fun k hk => ?_
    rw [getLsbD_wordOf _ _ hk, getLsbD_wordOf _ _ hk, testBit_replaceWord, if_neg (by omega)]
  case width =>
    refine Nat.lt_pow_two_of_testBit _ fun k hk => ?_
    rw [testBit_replaceWord, if_neg (by omega)]
    exact Nat.testBit_lt_two_pow (hv.trans_le (Nat.pow_le_pow_right (by omega) hk))

end Sys2Proof.Machine
end

section
/-! SUPPORT. What a host operation does (20_memory.md R60, R70, R75), which steps never stop (60_exceptions.md R253),
and the statements about them. -/

namespace Sys2Proof.Machine

/-! ## The host's operations (R60) -/

section
variable {s : State}

theorem hostStep_rd {w : AccessWidth} {off dst : Nat} (h : s.host.prog[s.host.pc]? = some (.rd w off dst)) :
    hostStep s = hostRead s w off dst := by
  simp [hostStep, h]

theorem hostStep_wr {w : AccessWidth} {off : Nat} {e : HostExpr} (h : s.host.prog[s.host.pc]? = some (.wr w off e)) :
    hostStep s = hostWrite s w off e := by
  simp [hostStep, h]

theorem hostStep_poll (h : s.host.prog[s.host.pc]? = some .poll) : hostStep s = hostPoll s := by
  simp [hostStep, h]

theorem hostStep_compute {dst : Nat} {e : HostExpr} (h : s.host.prog[s.host.pc]? = some (.compute dst e)) :
    hostStep s = .next { s with host := (s.host.bind dst (e.eval s.host.vars)).advance } := by
  simp [hostStep, h]

theorem hostStep_branch {c : HostExpr} {target : Nat} (h : s.host.prog[s.host.pc]? = some (.branch c target)) :
    hostStep s = .next { s with
      host := if c.eval s.host.vars = 0 then s.host.advance else { s.host with pc := target } } := by
  simp [hostStep, h]

theorem hostStep_end (h : s.host.prog[s.host.pc]? = none) : hostStep s = .next s := by
  simp [hostStep, h]

/-- An access on the bus leaves the host's own state alone. -/
theorem State.busRead_host {w : AccessWidth} {addr : Nat} {v : Word32} {t : State}
    (h : s.busRead w addr = some (v, t)) :
    t.host = s.host := by
  obtain ⟨off, -, heq⟩ := Option.map_eq_some_iff.1 h
  cases heq
  rfl

theorem State.busWrite_host {w : AccessWidth} {addr : Nat} {v : Word32} {t : State} (h : s.busWrite w addr v = some t) :
    t.host = s.host := by
  obtain ⟨off, -, heq⟩ := Option.map_eq_some_iff.1 h
  cases heq
  rfl

theorem hostRead_of_busRead {w : AccessWidth} {off dst : Nat} {v : Word32} {t : State}
    (h : s.busRead w (s.cfg.mmioBase + off) = some (v, t)) :
    hostRead s w off dst = .next { t with host := (s.host.bind dst v.toNat).advance } := by
  simp only [hostRead, h, State.busRead_host h]

theorem hostWrite_of_busWrite {w : AccessWidth} {off : Nat} {e : HostExpr} {t : State}
    (h : s.busWrite w (s.cfg.mmioBase + off) (BitVec.ofNat 32 (e.eval s.host.vars)) = some t) :
    hostWrite s w off e = .next { t with host := s.host.advance } := by
  simp only [hostWrite, h, State.busWrite_host h]

/-- Outside the window an access stops the run (log 9). -/
theorem hostRead_outside (w : AccessWidth) {off : Nat} (dst : Nat) (h : 64 ≤ off) :
    hostRead s w off dst = .fault .outsideWindow := by
  simp only [hostRead, State.busRead, windowOffset_outside _ h, Option.map_none]

theorem hostWrite_outside (w : AccessWidth) {off : Nat} (e : HostExpr) (h : 64 ≤ off) :
    hostWrite s w off e = .fault .outsideWindow := by
  simp only [hostWrite, State.busWrite, windowOffset_outside _ h, Option.map_none]

/-- POLL reads STATUS, and goes on when the BUSY it reads is 0 (log 7). -/
theorem hostPoll_eq : hostPoll s = .next (if s.blk.busy then s else { s with host := s.host.advance }) := by
  simp only [hostPoll, s.busRead_status, Block.statusWord_busy]

end

/-- Settles O53: one equation of `hostStep` per form of operation, and for the accesses one of the bus. -/
theorem hostOperationsMoveThePc : Obligations.HostOperationsMoveThePc := by
  intro s
  refine ⟨fun w off dst hop => ⟨fun v t h => ?read, fun hout => ?readOut⟩,
    fun w off e hop => ⟨fun t h => ?write, fun hout => ?writeOut⟩,
    fun hop => ⟨fun hl => ?pollBusy, fun hl => ?pollIdle⟩, fun c target hop => ?branch, fun dst e hop => ?compute,
    hostStep_end⟩
  case read =>
    rw [hostStep_rd hop, hostRead_of_busRead h]
    rfl
  case readOut => rw [hostStep_rd hop, hostRead_outside w dst hout]
  case write =>
    rw [hostStep_wr hop, hostWrite_of_busWrite h]
    rfl
  case writeOut => rw [hostStep_wr hop, hostWrite_outside w e hout]
  case pollBusy =>
    rw [hostStep_poll hop, hostPoll_eq, if_pos (by simpa [Block.busy, Option.isSome_iff_ne_none] using hl)]
  case pollIdle =>
    rw [hostStep_poll hop, hostPoll_eq, if_neg (by simp [Block.busy, hl])]
    rfl
  case branch =>
    rw [hostStep_branch hop]
    split_ifs <;> rfl
  case compute =>
    rw [hostStep_compute hop]
    rfl

/-! ## What the host cannot reach (10_state.md R24, 20_memory.md R70, R75) -/

/-- The key bank is as before, and while a command runs so are its operands and the latch. -/
structure Block.Undisturbed (b b' : Block) : Prop where
  bank    : b'.key = b.key ∧ b'.pkValid = b.pkValid ∧ b'.skValid = b.skValid
  running : b.busy = true → b'.x = b.x ∧ b'.latch = b.latch

/-- A read disturbs nothing. -/
theorem Block.readReg_undisturbed (c : Config) (b : Block) (w : AccessWidth) (off : Nat) :
    b.Undisturbed (b.readReg c w off).2 := by
  rcases b.readReg_frame c w off with h | h | ⟨word, h⟩
  all_goals
    rw [h]
    exact ⟨⟨rfl, rfl, rfl⟩, fun _ => ⟨rfl, rfl⟩⟩

/-- A write disturbs nothing either, unless it is the soft reset: CMD is issued and WIN_DATA written while idle only. -/
theorem Block.writeReg_undisturbed (c : Config) (b : Block) (w : AccessWidth) (off : Nat) (v : Word32) :
    b.writeReg c w off v = Block.reset ∨ b.Undisturbed (b.writeReg c w off v) := by
  rcases b.writeReg_cases c w off v with h | h | h | h | h | h | ⟨hidle, -, r, -, h⟩ <;> rw [h]
  · exact .inr ⟨⟨rfl, rfl, rfl⟩, fun _ => ⟨rfl, rfl⟩⟩
  · rcases b.writeCtrl_cases v with h | ⟨e, k, -, h⟩ <;> rw [h]
    · exact .inl rfl
    · exact .inr ⟨⟨rfl, rfl, rfl⟩, fun _ => ⟨rfl, rfl⟩⟩
  · exact .inr ⟨⟨rfl, rfl, rfl⟩, fun _ => ⟨rfl, rfl⟩⟩
  · exact .inr ⟨⟨rfl, rfl, rfl⟩, fun _ => ⟨rfl, rfl⟩⟩
  · rcases b.writeCmd_cases v with h | ⟨hidle, h⟩ <;> rw [h]
    · exact .inr ⟨⟨rfl, rfl, rfl⟩, fun _ => ⟨rfl, rfl⟩⟩
    · exact .inr ⟨⟨rfl, rfl, rfl⟩, fun hbusy => by simp [hidle] at hbusy⟩
  · exact .inr ⟨⟨rfl, rfl, rfl⟩, fun _ => ⟨rfl, rfl⟩⟩
  · obtain ⟨word, h⟩ := Block.advanceWord_frame c (b.setX r (replaceWord (b.getX r) b.winWord.toNat v))
    rw [h]
    exact .inr ⟨⟨rfl, rfl, rfl⟩, fun hbusy => by simp [hidle] at hbusy⟩

theorem hostStep_undisturbed {s t : State} (h : hostStep s = .next t) :
    t.blk = Block.reset ∨ s.blk.Undisturbed t.blk := by
  obtain ⟨b, host, rfl, -, hb, -⟩ := hostStep_cases h
  rcases hb with rfl | ⟨w, off, rfl⟩ | ⟨w, off, v, rfl⟩
  · exact .inr ⟨⟨rfl, rfl, rfl⟩, fun _ => ⟨rfl, rfl⟩⟩
  · exact .inr (s.blk.readReg_undisturbed s.cfg w off)
  · exact s.blk.writeReg_undisturbed s.cfg w off v

/-- Settles O50: a host operation is one access at most (`hostStep_undisturbed`). -/
theorem hostCannotDisturbKeyOrRunningCommand : Obligations.HostCannotDisturbKeyOrRunningCommand := by
  intro s t h
  rcases hostStep_undisturbed h with hreset | ⟨⟨hkey, hpk, hsk⟩, hrun⟩
  · exact .inl hreset
  · exact .inr ⟨hkey, hpk, hsk, hrun⟩

/-! ## Steps that never stop (60_exceptions.md R253) -/

/-- An operation that stays in the window has a next state. -/
theorem hostStep_next {s : State} (hsafe : s.HostSafe) : ∃ t, hostStep s = .next t := by
  cases hop : s.host.prog[s.host.pc]? with
  | none => exact ⟨_, hostStep_end hop⟩
  | some op =>
    have hin : op.inWindow = true := hsafe op (List.mem_of_getElem? hop)
    cases op with
    | rd w off dst =>
      exact ⟨_, (hostStep_rd hop).trans (hostRead_of_busRead (s.busRead_add w (of_decide_eq_true hin)))⟩
    | wr w off e =>
      exact ⟨_, (hostStep_wr hop).trans (hostWrite_of_busWrite (s.busWrite_add w _ (of_decide_eq_true hin)))⟩
    | poll => exact ⟨_, (hostStep_poll hop).trans hostPoll_eq⟩
    | compute dst e => exact ⟨_, hostStep_compute hop⟩
    | branch c target => exact ⟨_, hostStep_branch hop⟩

/-- The engine touches neither the host nor the parameters. -/
theorem engineStep_host {s t : State} (h : engineStep s = .next t) : t.host = s.host ∧ t.cfg = s.cfg := by
  rcases engineStep_cases s with ⟨-, he⟩ | ⟨-, -, ⟨-, he⟩ | ⟨i, -, he⟩⟩
  · cases h.symm.trans he
    exact ⟨rfl, rfl⟩
  · cases h.symm.trans he
    exact ⟨rfl, rfl⟩
  · obtain ⟨-, -, -, -, -, -, -, -, -, hhost, hcfg, -⟩ := commandsLeaveHostRegistersAlone i s t (he ▸ h)
    exact ⟨hhost, hcfg⟩

/-- No step changes the host's program. -/
theorem step_prog {s t : State} (h : step s = .next t) : t.host.prog = s.host.prog := by
  obtain ⟨sc, rfl | hhost | hengine⟩ := step_cases h
  · rfl
  · obtain ⟨b, host, rfl, hprog, -⟩ := hostStep_cases hhost
    exact hprog
  · rw [(engineStep_host hengine).1]

/-- Settles O54: of the three events a host operation alone could stop, and none in the window does. -/
theorem windowProgramsNeverStop : Obligations.WindowProgramsNeverStop := by
  intro s hsafe
  obtain ⟨sc, hsc⟩ := s.nextEvent_frame
  have hnext : ∃ t, step s = .next t := by
    rw [step, hsc]
    cases s.nextEvent.1 with
    | host => exact hostStep_next (s := { s with sched := sc }) hsafe
    | engine => exact engineStep_next _
    | powerOn => exact ⟨_, rfl⟩
  obtain ⟨t, ht⟩ := hnext
  refine ⟨t, ht, ?_⟩
  rw [State.HostSafe, step_prog ht]
  exact hsafe

end Sys2Proof.Machine
end

section
/-! SUPPORT. The invariants of 10_state.md R25, R26, R33, R34 and 00_scope.md R7: what a command commits meets them, a
step keeps them, and the statements about them. -/

namespace Sys2Proof.Machine

/-! ## What a command may commit -/

/-- Whatever block the pseudocode ends with meets P. -/
def CmdResult.CommitsOnly (P : Block → Prop) (r : CmdResult) : Prop :=
  ∀ b, r = .ok b → P b

/-- A meaning's answer is a loop that goes on, or an end that commits only blocks with P. -/
def Result.CommitsOnly (P : Block → Prop) (s : State) (r : Result) : Prop :=
  r = .next s.goOn ∨ ∃ en c, r = .next (s.finishDrawn en c) ∧ CmdResult.CommitsOnly P c

section
variable {P : Block → Prop} {s : State}

theorem CmdResult.commits_ok {b : Block} (h : P b) : CmdResult.CommitsOnly P (.ok b) := by
  intro b' hb
  cases hb
  exact h

theorem CmdResult.commits_error (e : ErrCode) : CmdResult.CommitsOnly P (.error e) := by
  intro b hb
  cases hb

/-- Behind a check that raises an error what is committed has passed it. -/
theorem CmdResult.commits_guard {q : Prop} [Decidable q] {e : ErrCode} {r : CmdResult}
    (h : ¬ q → CmdResult.CommitsOnly P r) : CmdResult.CommitsOnly P (if q then .error e else r) := by
  split_ifs with hq
  · exact CmdResult.commits_error e
  · exact h hq

theorem Result.commits_finish {c : CmdResult} (h : CmdResult.CommitsOnly P c) :
    Result.CommitsOnly P s (.next (s.finish c)) :=
  .inr ⟨s.entropy, c, by rw [State.finishDrawn_self], h⟩

theorem Result.commits_drawn {c : CmdResult} (en : Entropy) (h : CmdResult.CommitsOnly P c) :
    Result.CommitsOnly P s (.next (s.finishDrawn en c)) :=
  .inr ⟨en, c, rfl, h⟩

theorem Result.commits_goOn : Result.CommitsOnly P s (.next s.goOn) :=
  .inl rfl

/-- Behind a check that raises an error before any draw. -/
theorem Result.commits_guard {q : Prop} [Decidable q] {e : ErrCode} {r : Result}
    (h : ¬ q → Result.CommitsOnly P s r) : Result.CommitsOnly P s (if q then .next (s.raiseError e) else r) := by
  split_ifs with hq
  · exact Result.commits_finish (CmdResult.commits_error e)
  · exact h hq

/-- A property that the completion's own writes keep carries over to the next state. -/
theorem Result.CommitsOnly.next {r : Result} {t : State} (hr : Result.CommitsOnly P s r) (h : r = .next t)
    (hs : P s.blk) (hcomplete : ∀ (b : Block) e c, P b → P (b.complete e c)) : P t.blk := by
  rcases hr with hgo | ⟨en, c, hend, hc⟩
  · cases h.symm.trans hgo
    exact hs
  · cases h.symm.trans hend
    cases c with
    | ok b => exact hcomplete _ _ _ (hc b rfl)
    | error e => exact hcomplete _ _ _ hs

end

/-! ## The key bank (10_state.md R25, R26) -/

/-- The invariant speaks of the bank and its valid bits alone. -/
theorem Block.KeyInv.of_bank {b b' : Block} (h : b.KeyInv)
    (hbank : b'.key = b.key ∧ b'.pkValid = b.pkValid ∧ b'.skValid = b.skValid) : b'.KeyInv := by
  obtain ⟨hkey, hpk, hsk⟩ := hbank
  obtain ⟨hpub, hpriv, hempty, hhalf⟩ := h
  constructor <;> rw [hkey] <;> simp only [hpk, hsk]
  · exact hpub
  · exact hpriv
  · exact hempty
  · exact hhalf

theorem Block.KeyInv.complete {b : Block} (h : b.KeyInv) (err : Bool) (code : BitVec 8) :
    (b.complete err code).KeyInv :=
  h.of_bank ⟨rfl, rfl, rfl⟩

/-- A bank with no key. -/
theorem Block.KeyInv.of_empty {b : Block} (hkey : b.key = KeyBank.empty) (hpk : b.pkValid = false)
    (hsk : b.skValid = false) : b.KeyInv where
  pub h := by simp [hpk] at h
  priv h := by simp [hsk] at h
  empty _ := hkey
  half _ := by rw [hkey]; exact ⟨rfl, rfl, rfl, rfl⟩

theorem Block.KeyInv.reset : Block.reset.KeyInv :=
  .of_empty rfl rfl rfl

/-- A whole key, installed. -/
theorem Block.KeyInv.of_installKey {b : Block} {k : KeyBank} (hpub : k.PublicOk) (hpriv : k.PrivateOk) :
    (b.installKey k).KeyInv where
  pub _ := hpub
  priv _ := ⟨rfl, hpriv⟩
  empty := nofun
  half := nofun

/-! ## Keys that key generation makes (45_key_management.md R193) -/

/-- Powers of 1 + a·n modulo n² are linear in the exponent. -/
theorem one_add_mul_pow_modEq (a n : Nat) : ∀ m, (1 + a * n) ^ m ≡ 1 + m * a * n [MOD n * n]
  | 0 => by simp [Nat.ModEq]
  | m + 1 => by
    have hsquare : (1 + m * a * n) * (1 + a * n) = 1 + (m + 1) * a * n + m * a * a * (n * n) := by ring
    calc (1 + a * n) ^ (m + 1) = (1 + a * n) ^ m * (1 + a * n) := pow_succ _ _
      _ ≡ (1 + m * a * n) * (1 + a * n) [MOD n * n] := (one_add_mul_pow_modEq a n m).mul_right _
      _ ≡ 1 + (m + 1) * a * n [MOD n * n] := by
        rw [hsquare]
        exact Nat.ModEq.symm (Nat.modEq_iff_dvd' (Nat.le_add_right ..) |>.2 (by simp))

/-- The residue of 1 + t·n modulo n², whose L is t modulo n. -/
theorem one_add_mul_mod_square (t : Nat) {n : Nat} (hn : 2 ≤ n) : (1 + t * n) % (n * n) = 1 + t % n * n := by
  have hlt : 1 + t % n * n < n * n := by
    have hle : t % n + 1 ≤ n := Nat.mod_lt t (by omega)
    nlinarith
  have hsplit : 1 + t * n = 1 + t % n * n + t / n * (n * n) := by
    conv_lhs => rw [← Nat.mod_add_div t n]
    ring
  rw [hsplit, Nat.add_mul_mod_self_right, Nat.mod_eq_of_lt hlt]

/-- A residue with an exact L that is the inverse of μ has what the private part asks of x (10_state.md R25). -/
theorem lExact_mu {x n l mu : Nat} (hn : 0 < n) (hx : x = 1 + l * n) (hmu : mu * l % n = 1) :
    1 ≤ x ∧ (x - 1) % n = 0 ∧ mu * ((x - 1) / n) % n = 1 := by
  have hexact : lExact x n = true := hx ▸ lExact_one_add_mul l n
  have hvalue : (x - 1) / n = l := hx ▸ lFun_one_add_mul l hn
  obtain ⟨hpos, hdiv⟩ := (lExact_iff x n).1 hexact
  exact ⟨hpos, hdiv, by rw [hvalue, hmu]⟩

/-- An exact L makes the base of the power a unit modulo n. -/
theorem coprime_of_lExact {g e n : Nat} (he : 0 < e) (h : lExact (g ^ e % (n * n)) n = true) : Nat.gcd g n = 1 := by
  obtain ⟨hpos, hdiv⟩ := (lExact_iff _ n).1 h
  have hone : g ^ e ≡ 1 [MOD n] := by
    have hx : g ^ e % (n * n) ≡ 1 [MOD n] := ((Nat.modEq_iff_dvd' hpos).2 (Nat.dvd_of_mod_eq_zero hdiv)).symm
    exact ((Nat.mod_modEq _ _).of_mul_left n).symm.trans hx
  have hgcd : Nat.gcd (g ^ e) n = 1 := hone.gcd_eq.trans (Nat.gcd_one_left n)
  exact (Nat.coprime_pow_left_iff he g n).1 hgcd

section
variable {p q : Nat} (hp : p % 2 = 1 ∧ 3 ≤ p) (hq : q % 2 = 1 ∧ 3 ≤ q)
include hp hq

theorem product_odd : p * q % 2 = 1 := by
  rw [Nat.mul_mod, hp.1, hq.1]

theorem nine_le_product : 9 ≤ p * q :=
  Nat.mul_le_mul hp.2 hq.2

/-- The simple variant's key meets R25: g = n + 1, whose powers modulo n² are linear. -/
theorem simpleKey_ok {k : KeyBank} (h : simpleKey p q = .ok k) :
    k.PublicOk ∧ k.PrivateOk ∧ k.n2 = p * q * (p * q) := by
  have hodd := product_odd hp hq
  have hnine := nine_le_product hp hq
  unfold simpleKey at h
  dsimp only at h
  split_ifs at h with hgcd
  cases h
  have hunit : Nat.gcd (phi p q % (p * q)) (p * q) = 1 := by
    rw [← Nat.gcd_rec, Nat.gcd_comm]
    exact not_not.1 hgcd
  obtain ⟨hlt, hinv⟩ := invmod_spec (by omega) hunit
  have hx : (p * q + 1) ^ phi p q % (p * q * (p * q)) = 1 + phi p q % (p * q) * (p * q) := by
    have hpow := one_add_mul_pow_modEq 1 (p * q) (phi p q)
    rw [Nat.one_mul, Nat.mul_one] at hpow
    rw [Nat.add_comm, ← one_add_mul_mod_square _ (by omega)]
    exact hpow
  have hmu : invmod (phi p q) (p * q) * (phi p q % (p * q)) % (p * q) = 1 := by
    rw [Nat.mul_mod_mod, Nat.mul_comm, hinv, Nat.mod_eq_of_lt (by omega)]
  obtain ⟨hpos, hdiv, hmul⟩ := lExact_mu (by omega) hx hmu
  exact ⟨⟨rfl, hodd, by dsimp only; omega, by dsimp only; nlinarith, by simp⟩,
    ⟨rfl, .inl rfl, hlt, hpos, hdiv, hmul⟩, rfl⟩

/-- The full variant's key meets R25: its checks are those of the private part, and an exact L makes g a unit. -/
theorem fullKey_ok {g : Nat} {k : KeyBank} (hg : g < p * q * (p * q)) (h : fullKey p q g = .ok k) :
    k.PublicOk ∧ k.PrivateOk ∧ k.n2 = p * q * (p * q) := by
  have hodd := product_odd hp hq
  have hnine := nine_le_product hp hq
  unfold fullKey at h
  simp only [powmod_eq] at h
  split_ifs at h with hexact hgcd
  cases h
  have hexact : lExact (g ^ Nat.lcm (p - 1) (q - 1) % (p * q * (p * q))) (p * q) = true := by simpa using hexact
  obtain ⟨hpos, hdiv⟩ := (lExact_iff _ _).1 hexact
  obtain ⟨hlt, hinv⟩ := invmod_spec (a := lFun (g ^ Nat.lcm (p - 1) (q - 1) % (p * q * (p * q))) (p * q))
    (m := p * q) (by omega) (by rw [← Nat.gcd_rec, Nat.gcd_comm]; exact not_not.1 hgcd)
  have hlam : 0 < Nat.lcm (p - 1) (q - 1) := Nat.lcm_pos (by omega) (by omega)
  refine ⟨⟨rfl, hodd, by dsimp only; omega, hg, coprime_of_lExact hlam hexact⟩,
    ⟨rfl, .inr rfl, hlt, hpos, hdiv, ?_⟩, rfl⟩
  rw [Nat.mul_comm, ← lFun, hinv, Nat.mod_eq_of_lt (by omega)]

end

/-- The lengths that key generation accepts (R192). -/
theorem accepted_bitLength {s : State} {bl : Nat} (hok : ¬ badBitLength s bl = true) :
    4 ≤ bl ∧ bl ≤ s.cfg.keyBitsMax := by
  simp only [badBitLength, Bool.or_eq_true, decide_eq_true_eq, not_or, not_lt] at hok
  exact ⟨hok.1.1.2, hok.2⟩

/-- What key generation finds in its accepted lengths: odd numbers from 3 on, whose n² fits WREG bits (R192, R194). -/
theorem primePair_accepted {s : State} {bl budget tries k p q : Nat} {en en' : Entropy}
    (hok : ¬ badBitLength s bl = true) (h : primePair budget tries bl k en = some ((p, q), en')) :
    (p % 2 = 1 ∧ 3 ≤ p) ∧ (q % 2 = 1 ∧ 3 ≤ q) ∧ p * q * (p * q) < 2 ^ s.cfg.wreg := by
  obtain ⟨h4, hmax⟩ := accepted_bitLength hok
  obtain ⟨⟨hp, -, hpodd⟩, ⟨hq, -, hqodd⟩, -, hn⟩ := primePair_bounds h4 h
  have htwo : 2 ^ 1 ≤ 2 ^ (bl / 2 - 1) := Nat.pow_le_pow_right (by omega) (by omega)
  refine ⟨⟨hpodd, by omega⟩, ⟨hqodd, by omega⟩, ?_⟩
  calc p * q * (p * q) < 2 ^ bl * 2 ^ bl := Nat.mul_lt_mul'' hn hn
    _ = 2 ^ (bl + bl) := (pow_add ..).symm
    _ ≤ 2 ^ s.cfg.wreg := Nat.pow_le_pow_right (by omega) (by rw [Config.wreg]; omega)

section
variable {P : Block → Prop} {s : State}

theorem installResult_commits {r : Except ErrCode KeyBank} (h : ∀ k, r = .ok k → P (s.blk.installKey k)) :
    CmdResult.CommitsOnly P (installResult s r) := by
  cases r with
  | ok k => exact CmdResult.commits_ok (h k rfl)
  | error e => exact CmdResult.commits_error e

variable (hP : ∀ k : KeyBank, k.PublicOk → k.PrivateOk → k.n2 < 2 ^ s.cfg.wreg → P (s.blk.installKey k))
include hP

/-- KEYGEN.S installs only keys that meet R25 and fit. -/
theorem execKeygenS_commits (ra : RegNum) : Result.CommitsOnly P s (execKeygenS ra s) := by
  refine Result.commits_guard fun hok => ?_
  cases hfound : primePair s.loopBudget s.loopBudget (s.blk.getX ra) s.blk.latRounds s.entropy with
  | none => exact Result.commits_goOn
  | some found =>
    obtain ⟨hp, hq, hfit⟩ := primePair_accepted hok hfound
    refine Result.commits_drawn _ (installResult_commits fun k hk => ?_)
    obtain ⟨hpub, hpriv, hn2⟩ := simpleKey_ok hp hq hk
    exact hP k hpub hpriv (hn2 ▸ hfit)

/-- KEYGEN installs only keys that meet R25 and fit. -/
theorem execKeygen_commits (ra : RegNum) : Result.CommitsOnly P s (execKeygen ra s) := by
  refine Result.commits_guard fun hok => ?_
  cases hfound : primePair s.loopBudget s.loopBudget (s.blk.getX ra) s.blk.latRounds s.entropy with
  | none => exact Result.commits_goOn
  | some found =>
    obtain ⟨hp, hq, hfit⟩ := primePair_accepted hok hfound
    have hpos := nine_le_product hp hq
    refine Result.commits_drawn _ (installResult_commits fun k hk => ?_)
    obtain ⟨hpub, hpriv, hn2⟩ := fullKey_ok hp hq (Nat.mod_lt _ (Nat.mul_pos (by omega) (by omega))) hk
    exact hP k hpub hpriv (hn2 ▸ hfit)

end

/-! ## The key-bank invariant -/

section
variable {s : State}

/-- KEYLOAD.PK's checks are the public part of R25, and it leaves no private part. -/
theorem execKeyloadPk_keyInv (ra rb rc : RegNum) :
    Result.CommitsOnly Block.KeyInv s (exec (.keyloadPk ra rb rc) s) := by
  rw [exec_keyloadPk]
  refine Result.commits_finish (CmdResult.commits_guard fun hok => CmdResult.commits_ok ?_)
  obtain ⟨hthree, hodd, hsquare, hlt, hunit⟩ := not_not.1 (mt publicKey_refused_iff.2 hok)
  exact {
    pub := fun _ => ⟨hsquare, hodd, hthree, hlt, hunit⟩
    priv := nofun
    empty := nofun
    half := fun _ => ⟨rfl, rfl, rfl, rfl⟩ }

/-- KEYLOAD.SK's checks are the private part of R25, for the public part that is there. -/
theorem execKeyloadSk_keyInv (hs : s.blk.KeyInv) (rd ra rb rc : RegNum) :
    Result.CommitsOnly Block.KeyInv s (exec (.keyloadSk rd ra rb rc) s) := by
  rw [exec_keyloadSk]
  refine Result.commits_finish (CmdResult.commits_guard fun hpk => CmdResult.commits_guard fun hok =>
    CmdResult.commits_ok ?_)
  have hpk : s.blk.pkValid = true := by simpa using hpk
  obtain ⟨hsquare, hodd, hthree, hlt, hunit⟩ := hs.pub hpk
  obtain ⟨hfactors, hlambda, hmu_lt, hpos, hexact, hmu⟩ := not_not.1 (mt privateKey_refused_iff.2 hok)
  exact {
    pub := fun _ => ⟨hsquare, hodd, hthree, hlt, hunit⟩
    priv := fun _ => ⟨hpk, ⟨hfactors, hlambda, hmu_lt, hpos, hexact, hmu⟩⟩
    empty := fun hno => absurd (hpk.symm.trans hno) nofun
    half := nofun }

/-- A key command commits only banks that meet R25 and R26. -/
theorem exec_bank_keyInv (hs : s.blk.KeyInv) {i : Instr} (hi : i.writesBank = true) :
    Result.CommitsOnly Block.KeyInv s (exec i s) := by
  cases i with
  | keygen ra => exact execKeygen_commits (fun k hpub hpriv _ => .of_installKey hpub hpriv) ra
  | keygenS ra => exact execKeygenS_commits (fun k hpub hpriv _ => .of_installKey hpub hpriv) ra
  | keyloadPk ra rb rc => exact execKeyloadPk_keyInv ra rb rc
  | keyloadSk rd ra rb rc => exact execKeyloadSk_keyInv hs rd ra rb rc
  | keyclr => exact Result.commits_finish (CmdResult.commits_ok (.of_empty rfl rfl rfl))
  | _ => cases hi

theorem exec_keyInv (hs : s.blk.KeyInv) {i : Instr} {t : State} (h : exec i s = .next t) : t.blk.KeyInv := by
  cases hi : i.writesBank with
  | true => exact (exec_bank_keyInv hs hi).next h hs fun b e c hb => hb.complete e c
  | false => exact hs.of_bank (onlyKeyCommandsChangeTheBank i s t h hi)

theorem engineStep_keyInv (hs : s.blk.KeyInv) {t : State} (h : engineStep s = .next t) : t.blk.KeyInv := by
  rcases engineStep_cases s with ⟨-, he⟩ | ⟨-, -, ⟨-, he⟩ | ⟨i, -, he⟩⟩
  · cases h.symm.trans he
    exact hs
  · cases h.symm.trans he
    exact hs.complete _ _
  · exact exec_keyInv hs (he ▸ h)

theorem hostStep_keyInv (hs : s.blk.KeyInv) {t : State} (h : hostStep s = .next t) : t.blk.KeyInv := by
  rcases hostStep_undisturbed h with hreset | hsame
  · rw [hreset]
    exact .reset
  · exact hs.of_bank hsame.bank

end

/-- Settles O56: each event keeps the invariant; the key commands make it (`exec_bank_keyInv`), no other command and
no host operation but a reset touches the bank. -/
theorem stepKeepsTheKeyBankInvariant : Obligations.StepKeepsTheKeyBankInvariant := by
  intro s t hs h
  obtain ⟨sc, rfl | hhost | hengine⟩ := step_cases h
  · exact .reset
  · exact hostStep_keyInv (s := { s with sched := sc }) hs hhost
  · exact engineStep_keyInv (s := { s with sched := sc }) hs hengine

end Sys2Proof.Machine
end

section
/-! SUPPORT. The whole invariant: every wide register below 2^WREG (00_scope.md R7), STATUS (10_state.md R33) and
MR_ROUNDS (R34) beside the key bank; and the statements about it. -/

namespace Sys2Proof.Machine

/-! ## Widths (00_scope.md R7) -/

/-- Every field of the bank is below B. -/
def KeyBank.Below (B : Nat) (k : KeyBank) : Prop :=
  ∀ i v, k.field i = some v → v < B

/-- Every wide register is below B. -/
structure Block.Below (B : Nat) (b : Block) : Prop where
  x   : ∀ r, b.getX r < B
  key : b.key.Below B

theorem KeyBank.below_iff {B : Nat} {k : KeyBank} :
    k.Below B ↔ k.n < B ∧ k.n2 < B ∧ k.g < B ∧ k.lambda < B ∧ k.mu < B ∧ k.p < B ∧ k.q < B := by
  constructor
  · intro h
    exact ⟨h 0 _ rfl, h 1 _ rfl, h 2 _ rfl, h 3 _ rfl, h 4 _ rfl, h 5 _ rfl, h 6 _ rfl⟩
  · rintro ⟨h0, h1, h2, h3, h4, h5, h6⟩ i v hv
    unfold KeyBank.field at hv
    split at hv <;> cases hv <;> assumption

theorem State.widthInv_iff {s : State} : s.WidthInv ↔ s.blk.Below (2 ^ s.cfg.wreg) := by
  constructor
  · rintro ⟨hx, hn, hn2, hg, hlam, hmu, hp, hq⟩
    exact ⟨hx, KeyBank.below_iff.2 ⟨hn, hn2, hg, hlam, hmu, hp, hq⟩⟩
  · rintro ⟨hx, hkey⟩
    obtain ⟨hn, hn2, hg, hlam, hmu, hp, hq⟩ := KeyBank.below_iff.1 hkey
    exact ⟨hx, hn, hn2, hg, hlam, hmu, hp, hq⟩

theorem KeyBank.Below.empty {B : Nat} (hB : 0 < B) : KeyBank.empty.Below B :=
  KeyBank.below_iff.2 ⟨hB, hB, hB, hB, hB, hB, hB⟩

/-- In a whole key n2 is the largest field. -/
theorem KeyBank.Below.of_ok {B : Nat} {k : KeyBank} (hpub : k.PublicOk) (hpriv : k.PrivateOk) (hn2 : k.n2 < B) :
    k.Below B := by
  obtain ⟨hsquare, -, hthree, hg, -⟩ := hpub
  obtain ⟨hfactors, hlambda, hmu, -, -, -⟩ := hpriv
  have hn : k.n ≤ k.n2 := hsquare ▸ Nat.le_mul_self k.n
  have hpos : 0 < k.p ∧ 0 < k.q := by
    refine ⟨Nat.pos_of_ne_zero fun h => ?_, Nat.pos_of_ne_zero fun h => ?_⟩ <;> rw [h] at hfactors <;> omega
  have hp : k.p ≤ k.n := hfactors ▸ Nat.le_mul_of_pos_right k.p hpos.2
  have hq : k.q ≤ k.n := hfactors ▸ Nat.le_mul_of_pos_left k.q hpos.1
  have hphi : (k.p - 1) * (k.q - 1) ≤ k.n := hfactors ▸ Nat.mul_le_mul (Nat.sub_le ..) (Nat.sub_le ..)
  have hlam : k.lambda ≤ k.n := by
    rcases hlambda with h | h <;> rw [h]
    · exact hphi
    · exact (Nat.div_le_self ..).trans hphi
  exact KeyBank.below_iff.2 ⟨by omega, hn2, by omega, by omega, by omega, by omega, by omega⟩

section
variable {B : Nat} {b : Block}

theorem Block.Below.setX (h : b.Below B) (r : RegNum) {v : Nat} (hv : v < B) : (b.setX r v).Below B where
  x r' := by
    rcases eq_or_ne r' r with rfl | hne
    · rw [Block.getX_setX_same]
      exact hv
    · rw [Block.getX_setX_ne b hne]
      exact h.x r'
  key := h.key

/-- Widths speak of the operand registers and the bank alone. -/
theorem Block.Below.of_wide {b' : Block} (h : b.Below B) (hx : b'.x = b.x) (hkey : b'.key = b.key) : b'.Below B where
  x r := by
    rw [Block.getX, hx]
    exact h.x r
  key := by
    rw [hkey]
    exact h.key

theorem Block.Below.complete (h : b.Below B) (err : Bool) (code : BitVec 8) : (b.complete err code).Below B :=
  h.of_wide rfl rfl

theorem Block.Below.installKey (h : b.Below B) {k : KeyBank} (hk : k.Below B) : (b.installKey k).Below B :=
  ⟨h.x, hk⟩

theorem Block.Below.reset (hB : 0 < B) : Block.reset.Below B where
  x r := by
    rw [Block.getX_reset]
    exact hB
  key := .empty hB

end

/-! ## The widths of results -/

theorem mod_lt_of_lt {m B : Nat} (a : Nat) (hpos : 0 < m) (hm : m < B) : a % m < B :=
  (Nat.mod_lt a hpos).trans hm

theorem gcd_lt_of_lt {a b B : Nat} (ha : a < B) (hb : b < B) : Nat.gcd a b < B := by
  rcases Nat.eq_zero_or_pos a with rfl | hpos
  · rw [Nat.gcd_zero_left]
    exact hb
  · exact (Nat.gcd_le_left b hpos).trans_lt ha

theorem pos_of_not_badOddModulus {m : Nat} (h : ¬ badOddModulus m = true) : 0 < m := by
  rw [badOddModulus_iff] at h
  omega

/-- A number below 2^w has at most w bits. -/
theorem bitWidth_le {x w : Nat} (h : x < 2 ^ w) : bitWidth x ≤ w := by
  rcases Nat.eq_zero_or_pos x with rfl | hx
  · exact Nat.zero_le w
  · have hle := ((bitWidth_eq_iff (one_le_bitWidth hx)).1 rfl).1
    have hlt := (Nat.pow_lt_pow_iff_right (by omega)).1 (hle.trans_lt h)
    omega

theorem KeyBank.enc_lt {k : KeyBank} (m r : Nat) (h : k.PublicOk) : k.enc m r < k.n2 :=
  Nat.mod_lt _ (Nat.zero_lt_of_lt h.g_lt)

section
variable {s : State} (hw : s.blk.Below (2 ^ s.cfg.wreg))
include hw

/-- A result below 2^WREG may be committed. -/
theorem commits_setX (rd : RegNum) {v : Nat} (hv : v < 2 ^ s.cfg.wreg) :
    CmdResult.CommitsOnly (Block.Below (2 ^ s.cfg.wreg)) (.ok (s.blk.setX rd v)) :=
  CmdResult.commits_ok (hw.setX rd hv)

theorem writeFitting_commits (rd : RegNum) (t : Nat) :
    CmdResult.CommitsOnly (Block.Below (2 ^ s.cfg.wreg)) (writeFitting s rd t) :=
  CmdResult.commits_guard fun hfits => commits_setX hw rd (not_le.1 hfits)

theorem exponentOf_commits (lam : Nat → Nat → Nat) (rd ra rb : RegNum) :
    CmdResult.CommitsOnly (Block.Below (2 ^ s.cfg.wreg)) (exponentOf lam rd ra rb s) :=
  CmdResult.commits_guard fun _ => writeFitting_commits hw rd _

theorem execGenprime_width (rd ra : RegNum) :
    Result.CommitsOnly (Block.Below (2 ^ s.cfg.wreg)) s (execGenprime rd ra s) := by
  refine Result.commits_guard fun hok => ?_
  rw [not_or, not_lt, not_lt] at hok
  cases hfound : genPrime s.loopBudget (s.blk.getX ra) s.blk.latRounds s.entropy with
  | none => exact Result.commits_goOn
  | some found =>
    obtain ⟨e₀, e₁, hc, -⟩ := genPrime_spec hfound
    have hlt : found.1 < 2 ^ s.blk.getX ra := by
      have := (candidate_spec hok.1 e₀).2.1
      rwa [← hc] at this
    exact Result.commits_drawn _ (commits_setX hw rd (hlt.trans_le (Nat.pow_le_pow_right (by omega) hok.2)))

theorem execRandbelow_width (rd ra : RegNum) :
    Result.CommitsOnly (Block.Below (2 ^ s.cfg.wreg)) s (execRandbelow rd ra s) := by
  refine Result.commits_guard fun hpos => Result.commits_drawn _ (commits_setX hw rd ?_)
  have hdraw := (draw_mem (Nat.zero_le (s.blk.getX ra - 1)) s.entropy).2
  have hbound := hw.x ra
  omega

theorem execRandbits_width (rd ra : RegNum) :
    Result.CommitsOnly (Block.Below (2 ^ s.cfg.wreg)) s (execRandbits rd ra s) := by
  refine Result.commits_guard fun hfits => Result.commits_drawn _ (commits_setX hw rd ?_)
  have hdraw := (draw_mem (Nat.zero_le (2 ^ s.blk.getX ra - 1)) s.entropy).2
  have hpos : 0 < 2 ^ s.blk.getX ra := by positivity
  exact (show _ < 2 ^ s.blk.getX ra by omega).trans_le (Nat.pow_le_pow_right (by omega) (not_lt.1 hfits))

theorem execKeyloadPk_width (ra rb rc : RegNum) :
    Result.CommitsOnly (Block.Below (2 ^ s.cfg.wreg)) s (exec (.keyloadPk ra rb rc) s) := by
  rw [exec_keyloadPk]
  have hpos : 0 < 2 ^ s.cfg.wreg := by positivity
  exact Result.commits_finish (CmdResult.commits_guard fun _ => CmdResult.commits_ok
    ⟨hw.x, KeyBank.below_iff.2 ⟨hw.x ra, hw.x rb, hw.x rc, hpos, hpos, hpos, hpos⟩⟩)

theorem execKeyloadSk_width (rd ra rb rc : RegNum) :
    Result.CommitsOnly (Block.Below (2 ^ s.cfg.wreg)) s (exec (.keyloadSk rd ra rb rc) s) := by
  rw [exec_keyloadSk]
  obtain ⟨hn, hn2, hg, -⟩ := KeyBank.below_iff.1 hw.key
  exact Result.commits_finish (CmdResult.commits_guard fun _ => CmdResult.commits_guard fun _ => CmdResult.commits_ok
    ⟨hw.x, KeyBank.below_iff.2 ⟨hn, hn2, hg, hw.x rd, hw.x ra, hw.x rb, hw.x rc⟩⟩)

theorem execKeyget_width (rd : RegNum) (i : Fin 16) :
    Result.CommitsOnly (Block.Below (2 ^ s.cfg.wreg)) s (execKeyget rd i s) := by
  refine Result.commits_finish ?_
  cases hfield : s.blk.key.field i with
  | none => exact CmdResult.commits_error _
  | some v => exact commits_setX hw rd (hw.key _ _ hfield)

variable (hk : s.blk.KeyInv)
include hk

/-- With a public key a ciphertext fits, for n2 does. -/
theorem enc_fits (hpk : ¬ (!s.blk.pkValid) = true) (m r : Nat) : s.blk.key.enc m r < 2 ^ s.cfg.wreg :=
  (KeyBank.enc_lt m r (hk.pub (by simpa using hpk))).trans (hw.key 1 _ rfl)

theorem execEncryptZkp_width (rd ra rb : RegNum) :
    Result.CommitsOnly (Block.Below (2 ^ s.cfg.wreg)) s (execEncryptZkp rd ra rb s) := by
  refine Result.commits_guard fun _ => Result.commits_guard fun hpk => Result.commits_drawn _ ?_
  have hthree := (hk.pub (by simpa using hpk)).three
  have hdraw := (draw_mem (show 2 ≤ s.blk.key.n - 1 by omega) s.entropy).2
  have hn : s.blk.key.n < 2 ^ s.cfg.wreg := hw.key 0 _ rfl
  exact CmdResult.commits_ok ((hw.setX rd (enc_fits hw hk hpk _ _)).setX rb (by omega))

theorem execDecrypt_width (rd ra : RegNum) :
    Result.CommitsOnly (Block.Below (2 ^ s.cfg.wreg)) s (execDecrypt rd ra s) := by
  refine Result.commits_finish (CmdResult.commits_guard fun hsk => CmdResult.commits_guard fun _ =>
    CmdResult.commits_guard fun _ => commits_setX hw rd ?_)
  have hthree := (hk.pub (hk.priv (by simpa using hsk)).1).three
  exact mod_lt_of_lt _ (by omega) (hw.key 0 _ rfl)

/-- No command commits a register that does not fit, for the reason its rule gives: a residue, a divisor, a quotient, a
checked product, a draw, or a register's own value. -/
theorem exec_commits_width (hpos : 0 < s.cfg.wreg) (i : Instr) :
    Result.CommitsOnly (Block.Below (2 ^ s.cfg.wreg)) s (exec i s) := by
  cases i with
  | nop => exact Result.commits_finish (CmdResult.commits_ok hw)
  | modexp rd ra rb rc =>
    rw [exec_modexp]
    exact Result.commits_finish (CmdResult.commits_guard fun hm =>
      commits_setX hw rd (mod_lt_of_lt _ (pos_of_not_badOddModulus hm) (hw.x rc)))
  | modmul rd ra rb rc =>
    exact Result.commits_finish (CmdResult.commits_guard fun hm =>
      commits_setX hw rd (mod_lt_of_lt _ (pos_of_not_badOddModulus hm) (hw.x rc)))
  | mul rd ra rb => exact Result.commits_finish (writeFitting_commits hw rd _)
  | modinv rd ra rc =>
    exact Result.commits_finish (CmdResult.commits_guard fun hm => CmdResult.commits_guard fun hgcd =>
      commits_setX hw rd ((invmod_spec (Nat.pos_of_ne_zero hm) (not_not.1 hgcd)).1.trans (hw.x rc)))
  | gcd rd ra rb => exact Result.commits_finish (commits_setX hw rd (gcd_lt_of_lt (hw.x ra) (hw.x rb)))
  | lcm rd ra rb => exact Result.commits_finish (writeFitting_commits hw rd _)
  | carm rd ra rb => exact Result.commits_finish (exponentOf_commits hw _ rd ra rb)
  | carmS rd ra rb => exact Result.commits_finish (exponentOf_commits hw _ rd ra rb)
  | lfunc rd ra rc =>
    rw [exec_lfunc]
    refine Result.commits_finish (CmdResult.commits_guard fun _ => ?_)
    split_ifs
    · exact commits_setX hw rd (((Nat.div_le_self ..).trans (Nat.sub_le ..)).trans_lt (hw.x ra))
    · exact CmdResult.commits_error _
  | bitlen rd ra =>
    exact Result.commits_finish (commits_setX hw rd ((bitWidth_le (hw.x ra)).trans_lt Nat.lt_two_pow_self))
  | primetest rd ra =>
    exact Result.commits_drawn _ (commits_setX hw rd ((Bool.toNat_le _).trans_lt (Nat.one_lt_two_pow hpos.ne')))
  | genprime rd ra => exact execGenprime_width hw rd ra
  | randbelow rd ra => exact execRandbelow_width hw rd ra
  | randbits rd ra => exact execRandbits_width hw rd ra
  | keygen ra => exact execKeygen_commits (fun k hpub hpriv hn2 => hw.installKey (.of_ok hpub hpriv hn2)) ra
  | keygenS ra => exact execKeygenS_commits (fun k hpub hpriv hn2 => hw.installKey (.of_ok hpub hpriv hn2)) ra
  | keyloadPk ra rb rc => exact execKeyloadPk_width hw ra rb rc
  | keyloadSk rd ra rb rc => exact execKeyloadSk_width hw rd ra rb rc
  | keyget rd k => exact execKeyget_width hw rd k
  | keyclr => exact Result.commits_finish (CmdResult.commits_ok ⟨hw.x, .empty (by positivity)⟩)
  | encrypt rd ra =>
    exact Result.commits_guard fun hpk => Result.commits_drawn _ (commits_setX hw rd (enc_fits hw hk hpk _ _))
  | encryptZkp rd ra rb => exact execEncryptZkp_width hw hk rd ra rb
  | encryptR rd ra rb =>
    exact Result.commits_finish (CmdResult.commits_guard fun hpk => CmdResult.commits_guard fun _ =>
      commits_setX hw rd (enc_fits hw hk hpk _ _))
  | decrypt rd ra => exact execDecrypt_width hw hk rd ra

end

/-! ## The block's invariant -/

/-- What the whole invariant asks of the block, whose registers are to be below B. -/
structure Block.Inv (B : Nat) (b : Block) : Prop where
  width  : b.Below B
  key    : b.KeyInv
  status : b.StatusInv
  rounds : b.RoundsInv

theorem State.inv_iff {s : State} :
    s.Inv ↔ s.cfg.Valid ∧ s.blk.Inv (2 ^ s.cfg.wreg) ∧ varsCanonical s.host.vars = true := by
  constructor
  · rintro ⟨hcfg, hwidth, hkey, hstatus, hrounds, hvars⟩
    exact ⟨hcfg, ⟨State.widthInv_iff.1 hwidth, hkey, hstatus, hrounds⟩, hvars⟩
  · rintro ⟨hcfg, ⟨hwidth, hkey, hstatus, hrounds⟩, hvars⟩
    exact ⟨hcfg, State.widthInv_iff.2 hwidth, hkey, hstatus, hrounds, hvars⟩

theorem Block.StatusInv.reset : Block.reset.StatusInv :=
  ⟨fun _ => rfl, nofun, nofun⟩

theorem Block.RoundsInv.reset : Block.reset.RoundsInv :=
  ⟨by decide, nofun⟩

theorem Block.Inv.reset {B : Nat} (hB : 0 < B) : Block.reset.Inv B :=
  ⟨.reset hB, .reset, .reset, .reset⟩

/-- Settles O55: reset is in the invariant of the block (`Block.Inv.reset`), and the host has no variable yet. -/
theorem invariantHoldsAtReset : Obligations.InvariantHoldsAtReset :=
  fun _ hc => State.inv_iff.2 ⟨hc, .reset (by positivity), rfl⟩

/-! ## The host's accesses -/

/-- An access that leaves the wide registers, the valid bits, ERR, ERRCODE and the latch as they are, at most clears
DONE, and does not put 0 into MR_ROUNDS. -/
structure Block.Harmless (b b' : Block) : Prop where
  wide   : b'.x = b.x ∧ b'.key = b.key
  valid  : b'.pkValid = b.pkValid ∧ b'.skValid = b.skValid
  status : b'.err = b.err ∧ b'.errCode = b.errCode ∧ b'.latch = b.latch
  done   : b.done = false → b'.done = false
  rounds : b.mrRounds ≠ 0 → b'.mrRounds ≠ 0

section
variable {b b' : Block} {B : Nat}

theorem Block.StatusInv.of_harmless (hb : b.StatusInv) (h : b.Harmless b') : b'.StatusInv := by
  obtain ⟨herr, hcode, hlatch⟩ := h.status
  refine ⟨?_, ?_, fun hbusy => ?_⟩
  · rw [herr, hcode]
    exact hb.clear
  · rw [herr, hcode]
    exact hb.coded
  · rw [Block.busy, hlatch] at hbusy
    obtain ⟨hdone, hno⟩ := hb.busy hbusy
    exact ⟨h.done hdone, herr.trans hno⟩

theorem Block.Inv.of_harmless (hb : b.Inv B) (h : b.Harmless b') : b'.Inv B where
  width := hb.width.of_wide h.wide.1 h.wide.2
  key := hb.key.of_bank ⟨h.wide.2, h.valid.1, h.valid.2⟩
  status := hb.status.of_harmless h
  rounds := ⟨h.rounds hb.rounds.1, h.status.2.2 ▸ hb.rounds.2⟩

theorem Block.Inv.setX (hb : b.Inv B) (r : RegNum) {v : Nat} (hv : v < B) : (b.setX r v).Inv B :=
  ⟨hb.width.setX r hv, hb.key.of_bank ⟨rfl, rfl, rfl⟩, ⟨hb.status.clear, hb.status.coded, hb.status.busy⟩, hb.rounds⟩

/-- An issue clears DONE, ERR and ERRCODE, and latches the rounds that are in force (30_encoding.md R101). -/
theorem Block.Inv.issue (hb : b.Inv B) (v : Word32) : (b.issue v).Inv B where
  width := hb.width.of_wide rfl rfl
  key := hb.key.of_bank ⟨rfl, rfl, rfl⟩
  status := ⟨fun _ => rfl, nofun, fun _ => ⟨rfl, rfl⟩⟩
  rounds := ⟨hb.rounds.1, fun l hl => by
    cases hl
    exact hb.rounds.1⟩

theorem Block.Inv.readReg (hb : b.Inv B) (c : Config) (w : AccessWidth) (off : Nat) :
    (b.readReg c w off).2.Inv B := by
  rcases b.readReg_frame c w off with h | h | ⟨word, h⟩ <;> rw [h]
  · exact hb
  · exact hb.of_harmless ⟨⟨rfl, rfl⟩, ⟨rfl, rfl⟩, ⟨rfl, rfl, rfl⟩, id, id⟩
  · exact hb.of_harmless ⟨⟨rfl, rfl⟩, ⟨rfl, rfl⟩, ⟨rfl, rfl, rfl⟩, id, id⟩

theorem Block.Inv.writeCtrl (hb : b.Inv B) (hB : 0 < B) (v : Word32) : (b.writeCtrl v).Inv B := by
  rcases b.writeCtrl_cases v with h | ⟨e, k, hk, h⟩ <;> rw [h]
  · exact .reset hB
  · refine hb.of_harmless ⟨⟨rfl, rfl⟩, ⟨rfl, rfl⟩, ⟨rfl, rfl, rfl⟩, id, fun hr => ?_⟩
    rcases hk with rfl | hk
    · exact hr
    · exact hk

theorem Block.Inv.writeCmd (hb : b.Inv B) (v : Word32) : (b.writeCmd v).Inv B := by
  rcases b.writeCmd_cases v with h | ⟨-, h⟩ <;> rw [h]
  · exact hb.of_harmless ⟨⟨rfl, rfl⟩, ⟨rfl, rfl⟩, ⟨rfl, rfl, rfl⟩, id, id⟩
  · exact hb.issue v

/-- A write of the window replaces one of NW words, which keeps the register's width (20_memory.md R66). -/
theorem Block.Inv.writeReg {c : Config} (hc : c.Valid) (hb : b.Inv (2 ^ c.wreg)) (w : AccessWidth) (off : Nat)
    (v : Word32) : (b.writeReg c w off v).Inv (2 ^ c.wreg) := by
  rcases b.writeReg_cases c w off v with h | h | h | h | h | h | ⟨-, hword, r, -, h⟩ <;> rw [h]
  · exact hb.of_harmless ⟨⟨rfl, rfl⟩, ⟨rfl, rfl⟩, ⟨rfl, rfl, rfl⟩, id, id⟩
  · exact hb.writeCtrl (by positivity) v
  · exact hb.of_harmless ⟨⟨rfl, rfl⟩, ⟨rfl, rfl⟩, ⟨rfl, rfl, rfl⟩, id, id⟩
  · exact hb.of_harmless ⟨⟨rfl, rfl⟩, ⟨rfl, rfl⟩, ⟨rfl, rfl, rfl⟩, fun hd => by simp [hd], id⟩
  · exact hb.writeCmd v
  · exact hb.of_harmless ⟨⟨rfl, rfl⟩, ⟨rfl, rfl⟩, ⟨rfl, rfl, rfl⟩, id, id⟩
  · have hwords : c.wreg = 32 * c.nw := by
      obtain ⟨hdvd, -, -, -⟩ := hc
      rw [Config.nw, Config.wreg]
      omega
    have hfit : replaceWord (b.getX r) b.winWord.toNat v < 2 ^ c.wreg := by
      rw [hwords]
      exact (replacedWordReadsBackOthersKept _ _ c.nw v).2.2 hword (hwords ▸ hb.width.x r)
    obtain ⟨word, hadvance⟩ := Block.advanceWord_frame c (b.setX r (replaceWord (b.getX r) b.winWord.toNat v))
    rw [hadvance]
    exact (hb.setX r hfit).of_harmless ⟨⟨rfl, rfl⟩, ⟨rfl, rfl⟩, ⟨rfl, rfl, rfl⟩, id, id⟩

end

theorem hostStep_inv {s t : State} (hs : s.Inv) (h : hostStep s = .next t) : t.Inv := by
  obtain ⟨hcfg, hblk, hvars⟩ := State.inv_iff.1 hs
  obtain ⟨b, host, rfl, -, hb, hv⟩ := hostStep_cases h
  refine State.inv_iff.2 ⟨hcfg, ?_, ?_⟩
  · rcases hb with rfl | ⟨w, off, rfl⟩ | ⟨w, off, v, rfl⟩
    · exact hblk
    · exact hblk.readReg s.cfg w off
    · exact hblk.writeReg hcfg w off v
  · rcases hv with hsame | ⟨x, v, hset⟩
    · exact hsame.symm ▸ hvars
    · exact hset.symm ▸ varSet_canonical hvars

/-! ## The engine's step -/

theorem ErrCode.code_range (e : ErrCode) : 1 ≤ e.code.toNat ∧ e.code.toNat ≤ 0x0B := by
  cases e <;> decide

/-- At a completion the latch is empty, and ERRCODE is 0 without an error and the error's code with one. -/
theorem State.finish_statusInv (s : State) (c : CmdResult) : (s.finish c).blk.StatusInv := by
  cases c with
  | ok b => exact ⟨fun _ => rfl, nofun, nofun⟩
  | error e => exact ⟨nofun, fun _ => e.code_range, nofun⟩

theorem State.finish_latch (s : State) (c : CmdResult) : (s.finish c).blk.latch = none := by
  cases c <;> rfl

theorem exec_statusInv {i : Instr} {s t : State} (hs : s.blk.StatusInv) (h : exec i s = .next t) :
    t.blk.StatusInv := by
  rcases exec_cases h with ⟨-, rfl⟩ | ⟨en, c, rfl, -⟩
  · exact hs
  · exact s.finish_statusInv c

/-- A command leaves MR_ROUNDS, and the latch it leaves is its own or empty. -/
theorem exec_roundsInv {i : Instr} {s t : State} (hs : s.blk.RoundsInv) (h : exec i s = .next t) :
    t.blk.RoundsInv := by
  obtain ⟨hrounds, -⟩ := commandsLeaveHostRegistersAlone i s t h
  rcases exec_cases h with ⟨-, rfl⟩ | ⟨en, c, rfl, -⟩
  · exact hs
  · refine ⟨hrounds ▸ hs.1, fun l hl => ?_⟩
    rw [State.finishDrawn_blk, State.finish_latch] at hl
    cases hl

theorem exec_inv {i : Instr} {s t : State} (hs : s.Inv) (h : exec i s = .next t) : t.Inv := by
  obtain ⟨hcfg, hblk, hvars⟩ := State.inv_iff.1 hs
  obtain ⟨-, -, -, -, -, -, -, -, -, hhost, hsame, -⟩ := commandsLeaveHostRegistersAlone i s t h
  have hpos : 0 < s.cfg.wreg := by
    obtain ⟨-, hmin, -, -⟩ := hcfg
    rw [Config.wreg]
    omega
  have hwidth : t.blk.Below (2 ^ s.cfg.wreg) :=
    (exec_commits_width hblk.width hblk.key hpos i).next h hblk.width fun b e c hb => hb.complete e c
  refine State.inv_iff.2 ⟨hsame ▸ hcfg, ?_, hhost ▸ hvars⟩
  rw [hsame]
  exact ⟨hwidth, exec_keyInv hblk.key h, exec_statusInv hblk.status h, exec_roundsInv hblk.rounds h⟩

theorem raiseError_inv {s : State} (hs : s.Inv) (e : ErrCode) : (s.raiseError e).Inv := by
  obtain ⟨hcfg, hblk, hvars⟩ := State.inv_iff.1 hs
  exact State.inv_iff.2 ⟨hcfg, ⟨hblk.width.complete _ _, hblk.key.complete _ _, s.finish_statusInv (.error e),
    ⟨hblk.rounds.1, nofun⟩⟩, hvars⟩

theorem engineStep_inv {s t : State} (hs : s.Inv) (h : engineStep s = .next t) : t.Inv := by
  rcases engineStep_cases s with ⟨-, he⟩ | ⟨-, -, ⟨-, he⟩ | ⟨i, -, he⟩⟩
  · cases h.symm.trans he
    exact hs
  · cases h.symm.trans he
    exact raiseError_inv hs _
  · exact exec_inv hs (he ▸ h)

/-- Settles O57: `hostStep_inv` and `engineStep_inv`, and a power-on reset takes the block to its reset state. -/
theorem stepKeepsTheWholeInvariant : Obligations.StepKeepsTheWholeInvariant := by
  intro s t hs h
  obtain ⟨sc, hstep⟩ := step_cases h
  have hsched : { s with sched := sc }.Inv := State.inv_iff.2 (State.inv_iff (s := s).1 hs)
  rcases hstep with rfl | hhost | hengine
  · exact State.inv_iff.2 ⟨hs.cfg, .reset (by positivity), hs.vars⟩
  · exact hostStep_inv hsched hhost
  · exact engineStep_inv hsched hengine

end Sys2Proof.Machine
end

section
/-! SUPPORT. The prime unit's draws and searches (42_prime_bitcount.md R152 to R160, 45_key_management.md R194), and the
statements about PRIMETEST, GENPRIME, RANDBELOW, RANDBITS, the test and the searches. -/

namespace Sys2Proof.Machine

/-! ## Primes pass the test (R153) -/

/-- Modulo a prime only 1 and −1 have the square 1. -/
theorem mod_of_sq_mod_prime {c x : Nat} (hc : c.Prime) (h : x ^ 2 % c = 1) : x % c = 1 ∨ x % c = c - 1 := by
  have htwo := hc.two_le
  have hx : 1 ≤ x := Nat.one_le_iff_ne_zero.2 fun hzero => by simp [hzero] at h
  have hdvd : c ∣ (x + 1) * (x - 1) := by
    rw [← Nat.sq_sub_sq, one_pow]
    exact (Nat.modEq_iff_dvd' (Nat.one_le_pow _ _ hx)).1 (by rw [Nat.ModEq, h, Nat.mod_eq_of_lt (by omega)])
  rcases hc.dvd_mul.1 hdvd with hplus | hminus
  · right
    have hlt := Nat.mod_lt x hc.pos
    have hzero : (x % c + 1) % c = 0 := by
      rw [Nat.mod_add_mod]
      exact Nat.mod_eq_zero_of_dvd hplus
    rcases Nat.lt_or_ge (x % c + 1) c with hsmall | hlarge
    · rw [Nat.mod_eq_of_lt hsmall] at hzero
      omega
    · omega
  · left
    have hone : 1 ≡ x [MOD c] := (Nat.modEq_iff_dvd' hx).2 hminus
    rw [← hone, Nat.mod_eq_of_lt (by omega)]

/-- Going down from a^(2^s·d) = 1 by square roots, the first value that is not 1 is −1. -/
theorem pow_chain_mod_prime {c a d : Nat} (hc : c.Prime) :
    ∀ s, a ^ (2 ^ s * d) % c = 1 → a ^ d % c = 1 ∨ ∃ j, j < s ∧ a ^ (2 ^ j * d) % c = c - 1
  | 0, h => .inl (by simpa using h)
  | s + 1, h => by
    have hsquare : (a ^ (2 ^ s * d)) ^ 2 % c = 1 := by
      rw [← h, ← pow_mul, pow_succ, Nat.mul_right_comm]
    rcases mod_of_sq_mod_prime hc hsquare with hone | hminus
    · exact (pow_chain_mod_prime hc s hone).imp_right fun ⟨j, hj, hjs⟩ => ⟨j, by omega, hjs⟩
    · exact .inr ⟨s, by omega, hminus⟩

/-- Fermat: a base below a prime has the power c − 1 equal to 1. -/
theorem pow_prime_sub_one_mod {c a : Nat} (hc : c.Prime) (hpos : 0 < a) (hlt : a < c) : a ^ (c - 1) % c = 1 := by
  have hcop : Nat.Coprime a c := (Nat.coprime_of_lt_prime hpos.ne' hlt hc).symm
  have hpow := Nat.ModEq.pow_totient hcop
  rw [Nat.totient_prime hc, Nat.ModEq, Nat.mod_eq_of_lt hc.one_lt] at hpow
  exact hpow

/-- A test whose every round passes answers 1, whatever is drawn. -/
theorem testRounds_of_pass {c s d : Nat} (h4 : 4 ≤ c) (h : ∀ a, 2 ≤ a → a ≤ c - 2 → roundPasses c s d a = true) :
    ∀ (k : Nat) (en : Entropy), (testRounds k c s d en).1 = true
  | 0, _ => rfl
  | k + 1, en => by
    obtain ⟨hlo, hhi⟩ := draw_mem (show 2 ≤ c - 2 by omega) en
    rw [testRounds]
    simp only [h _ hlo hhi, if_true]
    exact testRounds_of_pass h4 h k _

/-- Settles O19: 2 and 3 are told apart by the test; for a prime c from 5 on every base passes, by Fermat's theorem and
`pow_chain_mod_prime`. -/
theorem primesPassUnderEveryDraw : Obligations.PrimesPassUnderEveryDraw := by
  intro c k en hc
  have htwo := hc.two_le
  by_cases hsmall : c = 2 ∨ c = 3
  · rw [millerRabin_two_or_three k en hsmall]
  · have hodd : c % 2 = 1 := hc.eq_two_or_odd.resolve_left fun h => hsmall (.inl h)
    have hfuel : c - 1 < 2 ^ c := (Nat.sub_le c 1).trans_lt Nat.lt_two_pow_self
    obtain ⟨hsd, hd⟩ := splitTwos_spec c (c - 1) (by omega) hfuel
    have hs : 1 ≤ (splitTwos c (c - 1)).1 := splitTwos_pos (by omega) (by omega)
    rw [millerRabin_odd k en (by omega) hodd hsd hd]
    refine testRounds_of_pass (by omega) (fun a hlo hhi => ?_) k en
    rw [roundPasses_iff _ _ _ _ hs]
    refine pow_chain_mod_prime hc _ ?_
    rw [← hsd]
    exact pow_prime_sub_one_mod hc (by omega) (by omega)

/-! ## The searches (R155, R156, R194) -/

theorem genPrime_of_pass {w k budget : Nat} {en : Entropy}
    (h : (millerRabin (candidate w en).1 k (candidate w en).2).1 = true) :
    genPrime (budget + 1) w k en =
      some ((candidate w en).1, (millerRabin (candidate w en).1 k (candidate w en).2).2) :=
  if_pos h

theorem genPrime_of_fail {w k budget : Nat} {en : Entropy}
    (h : (millerRabin (candidate w en).1 k (candidate w en).2).1 = false) :
    genPrime (budget + 1) w k en = genPrime budget w k (millerRabin (candidate w en).1 k (candidate w en).2).2 :=
  if_neg (Bool.eq_false_iff.1 h)

/-- A prime search that has ended returns an odd number of width w that passed the test on the last draws. -/
theorem genPrime_found {w k budget c : Nat} {en en' : Entropy} (hw : 2 ≤ w)
    (h : genPrime budget w k en = some (c, en')) :
    2 ^ (w - 1) ≤ c ∧ c < 2 ^ w ∧ c % 2 = 1 ∧ ∃ e, millerRabin c k e = (true, en') := by
  obtain ⟨e₀, e₁, hc, hpass⟩ := genPrime_spec h
  obtain ⟨hlo, hhi, hodd⟩ := candidate_spec hw e₀
  rw [← hc] at hlo hhi hodd
  exact ⟨hlo, hhi, hodd, e₁, hpass⟩

section
variable {budget tries bl k p q : Nat} {en e₁ e₂ : Entropy}

theorem primePair_no_p (hp : genPrime budget (bl / 2) k en = none) : primePair budget (tries + 1) bl k en = none := by
  rw [primePair, hp]

theorem primePair_no_q (hp : genPrime budget (bl / 2) k en = some (p, e₁))
    (hq : genPrime budget (bl / 2) k e₁ = none) : primePair budget (tries + 1) bl k en = none := by
  rw [primePair, hp]
  simp only [hq]

/-- Both found: the pair is returned when the product has the width asked for, else both are drawn again. -/
theorem primePair_both (hp : genPrime budget (bl / 2) k en = some (p, e₁))
    (hq : genPrime budget (bl / 2) k e₁ = some (q, e₂)) :
    primePair budget (tries + 1) bl k en =
      if bitWidth (p * q) = bl then some ((p, q), e₂) else primePair budget tries bl k e₂ := by
  rw [primePair, hp]
  simp only [hq]

end

/-- Settles O21: the loops' equations are those above, what a search returns is `genPrime_found`, and a pair's widths
are `primePair_bounds`. -/
theorem searchesFollowTheRetryLoops : Obligations.SearchesFollowTheRetryLoops := by
  refine ⟨fun _ _ _ => rfl, fun budget w k en => ⟨genPrime_of_pass, genPrime_of_fail⟩,
    fun budget w k en en' c hw => genPrime_found hw, fun _ _ _ _ => rfl,
    fun budget tries bl k en hbl => ⟨primePair_no_p, fun p e₁ hp => ⟨primePair_no_q hp, fun q e₂ hq => ?loop⟩⟩,
    fun budget tries bl k en en' p q hbl h => ?found⟩
  case loop =>
    have hwidth := bitWidth_eq_iff (x := p * q) (show 1 ≤ bl by omega)
    rw [primePair_both hp hq]
    refine ⟨fun hin => if_pos (hwidth.2 hin), fun hout => if_neg fun h => ?_⟩
    have hin := hwidth.1 h
    omega
  case found =>
    obtain ⟨⟨hplo, hphi, hpodd⟩, ⟨hqlo, hqhi, hqodd⟩, hlo, hhi⟩ := primePair_bounds hbl h
    obtain ⟨-, e₀, e₁, hp, hq⟩ := primePair_spec h
    obtain ⟨-, -, -, ep, hpass⟩ := genPrime_found (by omega) hp
    obtain ⟨-, -, -, hqpass⟩ := genPrime_found (by omega) hq
    exact ⟨hplo, hphi, hpodd, hqlo, hqhi, hqodd, hlo, hhi, ⟨ep, e₁, hpass⟩, hqpass⟩

/-! ## The loop budget (log 5) -/

theorem genPrime_mono {b b' w k : Nat} {en : Entropy} {r : Nat × Entropy} (hb : b ≤ b')
    (h : genPrime b w k en = some r) : genPrime b' w k en = some r := by
  induction b', hb using Nat.le_induction with
  | base => exact h
  | succ b' _ ih => exact genPrime_succ ih

theorem primePair_mono {b b' bl k : Nat} {r : (Nat × Nat) × Entropy} (hb : b ≤ b') :
    ∀ {t t' : Nat} {en : Entropy}, t ≤ t' → primePair b t bl k en = some r → primePair b' t' bl k en = some r
  | 0, _, _, _, h => by cases h
  | t + 1, 0, _, ht, _ => by omega
  | t + 1, t' + 1, en, ht, h => by
    cases hp : genPrime b (bl / 2) k en with
    | none =>
      rw [primePair_no_p hp] at h
      cases h
    | some p =>
      cases hq : genPrime b (bl / 2) k p.2 with
      | none =>
        rw [primePair_no_q hp hq] at h
        cases h
      | some q =>
        rw [primePair_both hp hq] at h
        rw [primePair_both (genPrime_mono hb hp) (genPrime_mono hb hq)]
        split_ifs at h ⊢
        · exact h
        · exact primePair_mono hb (by omega) h

/-- Settles O22: `genPrime_mono` and `primePair_mono`. -/
theorem largerBudgetSameResult : Obligations.LargerBudgetSameResult :=
  ⟨fun _ _ _ _ _ _ => genPrime_mono, fun _ _ _ _ _ _ _ _ hb ht => primePair_mono hb ht⟩

/-! ## PRIMETEST and GENPRIME (R154, R156) -/

theorem exec_primetest (rd ra : RegNum) (s : State) :
    exec (.primetest rd ra) s = .next
      (s.wrote (millerRabin (s.blk.getX ra) s.blk.latRounds s.entropy).2 rd
        (millerRabin (s.blk.getX ra) s.blk.latRounds s.entropy).1.toNat) := rfl

/-- Settles O17: `exec_primetest` with the latched rounds; an answer is written as 1 or 0. -/
theorem primetestWritesTheTestResult : Obligations.PrimetestWritesTheTestResult := by
  intro rd ra s l hl
  refine ⟨encode_and_rowOf (.primetest rd ra), s.othersIllegal rfl, ?_⟩
  rw [exec_primetest, Block.latRounds_some hl]
  cases (millerRabin (s.blk.getX ra) l.rounds.toNat s.entropy).1 <;> rfl

section
variable {rd ra : RegNum} {s : State}

theorem exec_genprime_refused (h : s.blk.getX ra < 2 ∨ s.cfg.wreg < s.blk.getX ra) :
    exec (.genprime rd ra) s = .next (s.raiseError .range) :=
  if_pos h

variable (hlo : 2 ≤ s.blk.getX ra) (hhi : s.blk.getX ra ≤ s.cfg.wreg)
include hlo hhi

theorem exec_genprime_found {c : Nat} {en : Entropy}
    (h : genPrime s.loopBudget (s.blk.getX ra) s.blk.latRounds s.entropy = some (c, en)) :
    exec (.genprime rd ra) s = .next (s.wrote en rd c) := by
  simp only [exec, execGenprime]
  rw [if_neg (by omega), h]
  rfl

theorem exec_genprime_goOn (h : genPrime s.loopBudget (s.blk.getX ra) s.blk.latRounds s.entropy = none) :
    exec (.genprime rd ra) s = .next s.goOn := by
  simp only [exec, execGenprime]
  rw [if_neg (by omega), h]

end

/-- Settles O20: the three ends of a GENPRIME step, with the latched rounds. -/
theorem genprimeWritesThePrimeFound : Obligations.GenprimeWritesThePrimeFound := by
  intro rd ra s l hl w found
  have hfound : found = genPrime s.loopBudget w s.blk.latRounds s.entropy := by rw [Block.latRounds_some hl]
  rw [hfound]
  exact ⟨encode_and_rowOf (.genprime rd ra), s.othersIllegal rfl, exec_genprime_refused,
    fun hlo hhi c en => exec_genprime_found hlo hhi, exec_genprime_goOn⟩

/-! ## Single draws (R158, R160) -/

/-- An answer in range that the environment has fixed next is the value drawn, and is taken. -/
theorem draw_answer {lo hi v : Nat} {rest : List Nat} {e : Entropy} (hlo : lo ≤ v) (hhi : v ≤ hi)
    (h : e.answers = v :: rest) : draw lo hi e = (v, { e with answers := rest }) := by
  obtain ⟨answers, ix⟩ := e
  cases h
  exact draw_fixed hlo hhi rest ix

section
variable {rd ra : RegNum} {s : State}

theorem exec_randbelow (hpos : 0 < s.blk.getX ra) :
    exec (.randbelow rd ra) s = .next (s.wrote (draw 0 (s.blk.getX ra - 1) s.entropy).2 rd
      (draw 0 (s.blk.getX ra - 1) s.entropy).1) :=
  if_neg hpos.ne'

theorem exec_randbits (hfits : s.blk.getX ra ≤ s.cfg.wreg) :
    exec (.randbits rd ra) s = .next (s.wrote (draw 0 (2 ^ s.blk.getX ra - 1) s.entropy).2 rd
      (draw 0 (2 ^ s.blk.getX ra - 1) s.entropy).1) :=
  if_neg (not_lt.2 hfits)

end

/-- Settles O24: `exec_randbelow`, the draw in its range (`draw_mem`) or the answer that is next (`draw_answer`). -/
theorem randbelowDrawsBelowTheBound : Obligations.RandbelowDrawsBelowTheBound := by
  intro rd ra s b d
  refine ⟨encode_and_rowOf (.randbelow rd ra), s.othersIllegal rfl, fun hzero => if_pos hzero,
    fun hpos => ⟨?_, exec_randbelow hpos⟩, fun v rest hv hnext => ?_⟩
  · have hhi : d.1 ≤ b - 1 := (draw_mem (Nat.zero_le _) s.entropy).2
    omega
  · rw [exec_randbelow (Nat.zero_lt_of_lt hv), draw_answer (Nat.zero_le v) (by omega) hnext]

/-- Settles O25: as O24, with `exec_randbits`. -/
theorem randbitsDrawsWBits : Obligations.RandbitsDrawsWBits := by
  intro rd ra s w d
  refine ⟨encode_and_rowOf (.randbits rd ra), s.othersIllegal rfl, fun hwide => if_pos hwide,
    fun hfits => ⟨?_, exec_randbits hfits⟩, fun v rest hfits hv hnext => ?_⟩
  · have hhi : d.1 ≤ 2 ^ w - 1 := (draw_mem (Nat.zero_le _) s.entropy).2
    have hpos : 0 < 2 ^ w := by positivity
    omega
  · rw [exec_randbits hfits, draw_answer (Nat.zero_le v) (Nat.le_sub_one_of_lt hv) hnext]

end Sys2Proof.Machine
end

section
/-! SUPPORT. Key generation (45_key_management.md R192 to R196) and encryption with drawn randomness (46_encryptor.md
R220 to R223), and the statements about KEYGEN, KEYGEN.S, ENCRYPT and ENCRYPT.ZKP. -/

namespace Sys2Proof.Machine

/-! ## How a command with draws ends (30_encoding.md R104, 60_exceptions.md R253) -/

theorem State.finishDrawn_error (s : State) (en : Entropy) (e : ErrCode) :
    s.finishDrawn en (.error e) = { s.failed e.code with entropy := en } := rfl

theorem State.finishDrawn_install (s : State) (en : Entropy) (k : KeyBank) :
    s.finishDrawn en (installResult s (.ok k)) = s.done s.blk.x k true true en := rfl

/-! ## The steps of KEYGEN and KEYGEN.S (R192, R193) -/

section
variable {ra : RegNum} {s : State}

theorem exec_keygen_refused (h : badBitLength s (s.blk.getX ra) = true) :
    exec (.keygen ra) s = .next (s.raiseError .bitLength) :=
  if_pos h

theorem exec_keygenS_refused (h : badBitLength s (s.blk.getX ra) = true) :
    exec (.keygenS ra) s = .next (s.raiseError .bitLength) :=
  if_pos h

variable (hok : ¬ badBitLength s (s.blk.getX ra) = true)
include hok

theorem exec_keygen_goOn
    (h : primePair s.loopBudget s.loopBudget (s.blk.getX ra) s.blk.latRounds s.entropy = none) :
    exec (.keygen ra) s = .next s.goOn := by
  simp only [exec, execKeygen]
  rw [if_neg hok, h]

theorem exec_keygenS_goOn
    (h : primePair s.loopBudget s.loopBudget (s.blk.getX ra) s.blk.latRounds s.entropy = none) :
    exec (.keygenS ra) s = .next s.goOn := by
  simp only [exec, execKeygenS]
  rw [if_neg hok, h]

variable {p q : Nat} {en : Entropy}
  (h : primePair s.loopBudget s.loopBudget (s.blk.getX ra) s.blk.latRounds s.entropy = some ((p, q), en))
include h

theorem exec_keygen_found :
    exec (.keygen ra) s = .next (s.finishDrawn (draw 0 (p * q - 1) (draw 0 (p * q - 1) en).2).2
      (installResult s (fullKey p q (generatorOf (draw 0 (p * q - 1) en).1
        (draw 0 (p * q - 1) (draw 0 (p * q - 1) en).2).1 (p * q) (p * q * (p * q)))))) := by
  simp only [exec, execKeygen]
  rw [if_neg hok, h]

theorem exec_keygenS_found :
    exec (.keygenS ra) s = .next (s.finishDrawn en (installResult s (simpleKey p q))) := by
  simp only [exec, execKeygenS]
  rw [if_neg hok, h]

end

/-! ## The keys (R193, R195) -/

theorem simpleKey_refused {p q : Nat} (h : Nat.gcd ((p - 1) * (q - 1)) (p * q) ≠ 1) :
    simpleKey p q = .error .construction :=
  if_pos h

theorem simpleKey_built {p q : Nat} (h : Nat.gcd ((p - 1) * (q - 1)) (p * q) = 1) :
    simpleKey p q = .ok {
      n := p * q, n2 := p * q * (p * q), g := p * q + 1, lambda := (p - 1) * (q - 1)
      mu := invmod ((p - 1) * (q - 1)) (p * q), p := p, q := q } :=
  if_neg (not_not.2 h)

/-- KEYGEN's checks of x = g^λ mod n2, and the key they let through. -/
theorem fullKey_eq {p q g x : Nat} (hx : g ^ Nat.lcm (p - 1) (q - 1) % (p * q * (p * q)) = x) :
    fullKey p q g =
      if !lExact x (p * q) then .error .construction
      else if Nat.gcd ((x - 1) / (p * q)) (p * q) ≠ 1 then .error .construction
      else .ok {
        n := p * q, n2 := p * q * (p * q), g := g, lambda := Nat.lcm (p - 1) (q - 1)
        mu := invmod ((x - 1) / (p * q)) (p * q), p := p, q := q } := by
  rw [← hx, ← powmod_eq]
  rfl

theorem fullKey_refused {p q g x : Nat} (hx : g ^ Nat.lcm (p - 1) (q - 1) % (p * q * (p * q)) = x)
    (h : x = 0 ∨ (x - 1) % (p * q) ≠ 0 ∨ Nat.gcd ((x - 1) / (p * q)) (p * q) ≠ 1) :
    fullKey p q g = .error .construction := by
  rw [fullKey_eq hx]
  rw [← or_assoc] at h
  rcases h with hinexact | hgcd
  · rw [if_pos (by simpa using not_lExact_of_inexact hinexact)]
  · rw [if_pos hgcd, ite_self]

theorem fullKey_built {p q g x : Nat} (hx : g ^ Nat.lcm (p - 1) (q - 1) % (p * q * (p * q)) = x)
    (hpos : 1 ≤ x) (hexact : (x - 1) % (p * q) = 0) (hgcd : Nat.gcd ((x - 1) / (p * q)) (p * q) = 1) :
    fullKey p q g = .ok {
      n := p * q, n2 := p * q * (p * q), g := g, lambda := Nat.lcm (p - 1) (q - 1)
      mu := invmod ((x - 1) / (p * q)) (p * q), p := p, q := q } := by
  rw [fullKey_eq hx, if_neg (by simpa using (lExact_iff x _).2 ⟨hpos, hexact⟩), if_neg (not_not.2 hgcd)]

/-- The inverse modulo a number above 1 (R10). -/
theorem invmod_of_coprime {a m : Nat} (hm : 2 ≤ m) (h : Nat.gcd a m = 1) :
    invmod a m < m ∧ a * invmod a m % m = 1 := by
  obtain ⟨hlt, hinv⟩ := invmod_spec (a := a) (m := m) (by omega) (by rw [← Nat.gcd_rec, Nat.gcd_comm, h])
  exact ⟨hlt, hinv.trans (Nat.mod_eq_of_lt hm)⟩

/-- The model's α-term is the integer α·n − 1 modulo n2, which for α = 0 is −1 (R195). -/
theorem alphaTerm_cast {n n2 : Nat} (alpha : Nat) (hn : 0 < n) (hn2 : 0 < n2) :
    (alphaTerm alpha n n2 : Int) = ((alpha : Int) * n - 1) % n2 := by
  unfold alphaTerm
  split_ifs with hzero
  · have hminus : ((alpha : Int) * n - 1) % n2 = ((n2 : Int) - 1) % n2 := by
      rw [hzero, Nat.cast_zero, zero_mul, zero_sub, sub_eq_add_neg (n2 : Int), Int.add_emod_left]
    rw [hminus, Int.emod_eq_of_lt (by omega) (by omega), Nat.cast_sub hn2, Nat.cast_one]
  · have hpos : 1 ≤ alpha * n := Nat.mul_pos (Nat.pos_of_ne_zero hzero) hn
    rw [Int.natCast_mod, Nat.cast_sub hpos, Nat.cast_mul, Nat.cast_one]

/-- The generator is R195's product of integers. -/
theorem generatorOf_eq {alpha beta n n2 g : Nat} (hn : 0 < n) (hn2 : 0 < n2)
    (hg : (g : Int) = ((alpha : Int) * n - 1) % n2 * ((beta ^ n % n2 : Nat) : Int) % n2) :
    generatorOf alpha beta n n2 = g := by
  have hcast : (generatorOf alpha beta n n2 : Int) = g := by
    rw [hg, generatorOf, powmod_eq, Int.natCast_mod, Nat.cast_mul, alphaTerm_cast alpha hn hn2]
  exact Int.ofNat.inj hcast

/-- Settles O26: KEYGEN.S's steps with the latched values, and the two outcomes of `simpleKey`. -/
theorem keygenSInstallsTheSimpleKey : Obligations.KeygenSInstallsTheSimpleKey := by
  intro ra s l hl bl bad found
  have hbad : badBitLength s bl = true ↔ bad := badBitLength_iff hl bl
  have hfound : found = primePair s.loopBudget s.loopBudget bl s.blk.latRounds s.entropy := by
    rw [Block.latRounds_some hl]
  rw [hfound]
  refine ⟨encode_and_rowOf (.keygenS ra), s.othersIllegal rfl, fun h => exec_keygenS_refused (hbad.2 h),
    fun h => exec_keygenS_goOn (mt hbad.1 h), ?keys⟩
  intro p q en hno hpair n lam
  have hok := mt hbad.1 hno
  obtain ⟨hp, hq, -⟩ := primePair_accepted hok hpair
  have hnine : 9 ≤ n := nine_le_product hp hq
  rw [exec_keygenS_found hok hpair]
  refine ⟨fun hgcd => ?_, fun hgcd => ?_⟩
  · rw [simpleKey_refused hgcd, installResult, State.finishDrawn_error, ErrCode.code]
  · obtain ⟨hlt, hinv⟩ := invmod_of_coprime (by omega) hgcd
    refine ⟨invmod lam n, hlt, hinv, ?_⟩
    rw [simpleKey_built hgcd, State.finishDrawn_install]

/-- Settles O27: as O26 with KEYGEN's steps and `fullKey`; the generator is `generatorOf_eq`. -/
theorem keygenInstallsTheFullKey : Obligations.KeygenInstallsTheFullKey := by
  intro ra s l hl bl bad found
  have hbad : badBitLength s bl = true ↔ bad := badBitLength_iff hl bl
  have hfound : found = primePair s.loopBudget s.loopBudget bl s.blk.latRounds s.entropy := by
    rw [Block.latRounds_some hl]
  rw [hfound]
  refine ⟨encode_and_rowOf (.keygen ra), s.othersIllegal rfl, fun h => exec_keygen_refused (hbad.2 h),
    fun h => exec_keygen_goOn (mt hbad.1 h), ?keys⟩
  intro p q en g hno hpair n n2 alpha beta lam x lval hg
  have hok := mt hbad.1 hno
  obtain ⟨hp, hq, -⟩ := primePair_accepted hok hpair
  have hnine : 9 ≤ n := nine_le_product hp hq
  rw [exec_keygen_found hok hpair, generatorOf_eq (by omega) (Nat.mul_pos (by omega) (by omega)) hg]
  refine ⟨fun hrefused => ?_, fun hpos hexact hgcd => ?_⟩
  · rw [fullKey_refused rfl hrefused, installResult, State.finishDrawn_error, ErrCode.code]
  · obtain ⟨hlt, hinv⟩ := invmod_of_coprime (by omega) hgcd
    refine ⟨invmod lval n, hlt, hinv, ?_⟩
    rw [fullKey_built rfl hpos hexact hgcd, State.finishDrawn_install]

/-! ## The simple variant on primes (R196) -/

/-- A prime does not divide the predecessor of an odd number of its own width: that would have to be even and at least
twice the prime. -/
theorem coprime_pred_of_same_width {p q w : Nat} (hp : p.Prime) (hpodd : p % 2 = 1) (hqodd : q % 2 = 1) (hq : 2 ≤ q)
    (hlo : 2 ^ (w - 1) ≤ p) (hhi : q < 2 ^ w) (hw : 1 ≤ w) : Nat.Coprime (q - 1) p := by
  refine Nat.Coprime.symm ((Nat.Prime.coprime_iff_not_dvd hp).2 fun ⟨k, hk⟩ => ?_)
  have hdouble : 2 ^ w = 2 * 2 ^ (w - 1) := by rw [← pow_succ', Nat.sub_add_cancel hw]
  have hsmall : k < 2 := by
    by_contra hlarge
    have htwice : p * 2 ≤ p * k := Nat.mul_le_mul_left p (by omega)
    omega
  interval_cases k <;> omega

/-- The two widths of a pair make its (p − 1)(q − 1) a unit modulo p·q. -/
theorem gcd_phi_of_pair {budget tries bl k p q : Nat} {en en' : Entropy} (hbl : 4 ≤ bl)
    (h : primePair budget tries bl k en = some ((p, q), en')) (hp : p.Prime) (hq : q.Prime) :
    Nat.gcd ((p - 1) * (q - 1)) (p * q) = 1 := by
  obtain ⟨⟨hplo, hphi, hpodd⟩, ⟨hqlo, hqhi, hqodd⟩, -⟩ := primePair_bounds hbl h
  have hw : 1 ≤ bl / 2 := by omega
  have hpp := coprime_pred_of_same_width hp hpodd hpodd hp.two_le hplo hphi hw
  have hpq := coprime_pred_of_same_width hp hpodd hqodd hq.two_le hplo hqhi hw
  have hqp := coprime_pred_of_same_width hq hqodd hpodd hp.two_le hqlo hphi hw
  have hqq := coprime_pred_of_same_width hq hqodd hqodd hq.two_le hqlo hqhi hw
  exact Nat.Coprime.mul_left (Nat.Coprime.mul_right hpp hqp) (Nat.Coprime.mul_right hpq hqq)

/-- Settles O28: by `gcd_phi_of_pair` the simple variant's one check passes. -/
theorem simpleVariantNeverFailsOnPrimes : Obligations.SimpleVariantNeverFailsOnPrimes := by
  intro ra s p q en hok hpair hp hq
  have hok : ¬ badBitLength s (s.blk.getX ra) = true := Bool.eq_false_iff.1 hok
  have hgcd := gcd_phi_of_pair (accepted_bitLength hok).1 hpair hp hq
  refine ⟨_, exec_keygenS_found hok hpair, ?_⟩
  rw [simpleKey_built hgcd, State.finishDrawn_install]
  exact ⟨rfl, rfl, rfl, rfl, rfl, rfl, rfl⟩

/-! ## ENCRYPT and ENCRYPT.ZKP (R221, R223) -/

section
variable {rd ra rb : RegNum} {s : State}

theorem exec_encrypt_no_key (h : s.blk.pkValid = false) : exec (.encrypt rd ra) s = .next (s.raiseError .noKey) :=
  if_pos (by rw [h]; rfl)

theorem exec_encrypt (h : s.blk.pkValid = true) :
    exec (.encrypt rd ra) s = .next (s.wrote (draw 2 (s.blk.key.n - 1) s.entropy).2 rd
      (s.blk.key.enc (s.blk.getX ra) (draw 2 (s.blk.key.n - 1) s.entropy).1)) :=
  if_neg (by simp [h])

theorem exec_encryptZkp_same (h : rd = rb) : exec (.encryptZkp rd ra rb) s = .next (s.raiseError .operand) :=
  if_pos h

theorem exec_encryptZkp_no_key (hne : rd ≠ rb) (h : s.blk.pkValid = false) :
    exec (.encryptZkp rd ra rb) s = .next (s.raiseError .noKey) :=
  (if_neg hne).trans (if_pos (by rw [h]; rfl))

theorem exec_encryptZkp (hne : rd ≠ rb) (h : s.blk.pkValid = true) :
    exec (.encryptZkp rd ra rb) s = .next (s.done
      ((s.blk.x.set rd (s.blk.key.enc (s.blk.getX ra) (draw 2 (s.blk.key.n - 1) s.entropy).1)).set rb
        (draw 2 (s.blk.key.n - 1) s.entropy).1)
      s.blk.key s.blk.pkValid s.blk.skValid (draw 2 (s.blk.key.n - 1) s.entropy).2) :=
  (if_neg hne).trans (if_neg (by simp [h]))

end

/-- Settles O32: `exec_encrypt`, the draw in its range (`draw_mem`) or the answer that is next (`draw_answer`). -/
theorem encryptWritesTheCiphertext : Obligations.EncryptWritesTheCiphertext := by
  intro rd ra s k m d
  refine ⟨encode_and_rowOf (.encrypt rd ra), s.othersIllegal rfl, exec_encrypt_no_key, fun hpk hn => ?_,
    fun r rest hpk hlo hhi hnext => ?_⟩
  · obtain ⟨hlo, hhi⟩ := draw_mem (show 2 ≤ k.n - 1 by omega) s.entropy
    exact ⟨hlo, hhi, by rw [exec_encrypt hpk, KeyBank.enc_eq]⟩
  · rw [exec_encrypt hpk, draw_answer hlo hhi hnext, KeyBank.enc_eq]

/-- Settles O33: as O32, with `exec_encryptZkp` behind its two checks. -/
theorem encryptZkpWritesCiphertextAndRandomness : Obligations.EncryptZkpWritesCiphertextAndRandomness := by
  intro rd ra rb s k m c after d
  have hafter (r : Nat) (en : Entropy) : after r en =
      s.done ((s.blk.x.set rd (k.enc m r)).set rb r) k s.blk.pkValid s.blk.skValid en := by
    rw [KeyBank.enc_eq]
  refine ⟨encode_and_rowOf (.encryptZkp rd ra rb), s.othersIllegal rfl, exec_encryptZkp_same, exec_encryptZkp_no_key,
    fun hne hpk hn => ?_, fun r rest hne hpk hlo hhi hnext => ?_⟩
  · obtain ⟨hlo, hhi⟩ := draw_mem (show 2 ≤ k.n - 1 by omega) s.entropy
    exact ⟨hlo, hhi, by rw [exec_encryptZkp hne hpk, hafter]⟩
  · rw [exec_encryptZkp hne hpk, draw_answer hlo hhi hnext, hafter]

end Sys2Proof.Machine
end

section
/-! SUPPORT. The retry loops over engine steps (30_encoding.md R107, log 5) and over weakly fair runs
(70_reset_and_hazards.md R303, log 13), and the statements about them. -/

namespace Sys2Proof.Machine

/-! ## Steps that go on -/

@[simp] theorem State.goOn_iterate_blk (s : State) (j : Nat) : (State.goOn^[j] s).blk = s.blk := by
  obtain ⟨b, -, h⟩ := s.goOn_iterate j
  rw [h]

@[simp] theorem State.goOn_iterate_cfg (s : State) (j : Nat) : (State.goOn^[j] s).cfg = s.cfg := by
  obtain ⟨b, -, h⟩ := s.goOn_iterate j
  rw [h]

@[simp] theorem State.goOn_iterate_entropy (s : State) (j : Nat) : (State.goOn^[j] s).entropy = s.entropy := by
  obtain ⟨b, -, h⟩ := s.goOn_iterate j
  rw [h]

theorem State.lt_goOn_loopBudget (s : State) : s.loopBudget < s.goOn.loopBudget := by
  rw [State.goOn_loopBudget]
  omega

theorem State.le_goOn_iterate_loopBudget (s : State) (j : Nat) : j ≤ (State.goOn^[j] s).loopBudget := by
  obtain ⟨b, hb, h⟩ := s.goOn_iterate j
  rw [h]
  exact hb

/-- A search that ends under some budget, with a result no larger budget changes, ends with it after finitely many
steps that go on. -/
theorem State.goOn_until {α : Type} (search : Nat → Option α)
    (hmono : ∀ b b' r, b ≤ b' → search b = some r → search b' = some r) {b : Nat} {r : α} (h : search b = some r)
    (s : State) :
    ∃ k, (∀ j, j < k → search (State.goOn^[j] s).loopBudget = none) ∧
      search (State.goOn^[k] s).loopBudget = some r := by
  have hends : ∃ k, search (State.goOn^[k] s).loopBudget ≠ none :=
    ⟨b, by rw [hmono _ _ _ (s.le_goOn_iterate_loopBudget b) h]; exact Option.some_ne_none r⟩
  refine ⟨Nat.find hends, fun j hj => not_not.1 (Nat.find_min hends hj), ?_⟩
  obtain ⟨r', hr'⟩ := Option.ne_none_iff_exists'.1 (Nat.find_spec hends)
  have hsame := (hmono _ _ _ (le_max_left ..) h).symm.trans (hmono _ _ _ (le_max_right ..) hr')
  rw [hr', hsame]

/-! ## KEYGEN and KEYGEN.S alike -/

theorem simpleKey_primes {p q : Nat} {k : KeyBank} (h : simpleKey p q = .ok k) : k.p = p ∧ k.q = q := by
  unfold simpleKey at h
  dsimp only at h
  split_ifs at h
  cases h
  exact ⟨rfl, rfl⟩

theorem fullKey_primes {p q g : Nat} {k : KeyBank} (h : fullKey p q g = .ok k) : k.p = p ∧ k.q = q := by
  rw [fullKey_eq rfl] at h
  split_ifs at h
  cases h
  exact ⟨rfl, rfl⟩

section
variable {i : Instr} {ra : RegNum} {s : State} (hi : i = .keygen ra ∨ i = .keygenS ra)
include hi

theorem exec_keyGeneration_refused (h : badBitLength s (s.blk.getX ra) = true) :
    exec i s = .next (s.raiseError .bitLength) := by
  rcases hi with rfl | rfl
  · exact exec_keygen_refused h
  · exact exec_keygenS_refused h

variable (hok : ¬ badBitLength s (s.blk.getX ra) = true)
include hok

theorem exec_keyGeneration_goOn
    (h : primePair s.loopBudget s.loopBudget (s.blk.getX ra) s.blk.latRounds s.entropy = none) :
    exec i s = .next s.goOn := by
  rcases hi with rfl | rfl
  · exact exec_keygen_goOn hok h
  · exact exec_keygenS_goOn hok h

/-- A found pair ends the command; a key that it installs has the pair. -/
theorem exec_keyGeneration_found {p q : Nat} {en : Entropy}
    (h : primePair s.loopBudget s.loopBudget (s.blk.getX ra) s.blk.latRounds s.entropy = some ((p, q), en)) :
    ∃ en' key, exec i s = .next (s.finishDrawn en' (installResult s key)) ∧
      ∀ k, key = .ok k → k.p = p ∧ k.q = q := by
  rcases hi with rfl | rfl
  · exact ⟨_, _, exec_keygen_found hok h, fun _ => fullKey_primes⟩
  · exact ⟨_, _, exec_keygenS_found hok h, fun _ => simpleKey_primes⟩

end

theorem State.finish_install_primes {s : State} {p q : Nat} {key : Except ErrCode KeyBank}
    (hkey : ∀ k, key = .ok k → k.p = p ∧ k.q = q) (herr : (s.finish (installResult s key)).blk.err = false) :
    (s.finish (installResult s key)).blk.key.p = p ∧ (s.finish (installResult s key)).blk.key.q = q := by
  cases key with
  | ok k => exact hkey k rfl
  | error e => cases herr

/-- Settles O23: the step that ends is the one of `State.goOn_until`, for the search that the command follows. -/
theorem endingLoopCompletes : Obligations.EndingLoopCompletes := by
  intro ra s l hl w bad
  have hrounds : s.blk.latRounds = l.rounds.toNat := Block.latRounds_some hl
  refine ⟨fun rd b c en hlo hhi h => ?genprime, fun i b t p q en hi hno h => ?keyGeneration⟩
  case genprime =>
    obtain ⟨k, hbefore, hend⟩ := s.goOn_until (fun b => genPrime b w l.rounds.toNat s.entropy)
      (fun _ _ _ => genPrime_mono) h
    refine ⟨k, fun j hj => ?_, ?_⟩
    · rw [Function.iterate_succ_apply']
      exact exec_genprime_goOn (by simpa using hlo) (by simpa using hhi) (by simpa [w, hrounds] using hbefore j hj)
    · exact exec_genprime_found (by simpa using hlo) (by simpa using hhi) (by simpa [w, hrounds] using hend)
  case keyGeneration =>
    have hok (j : Nat) : ¬ badBitLength (State.goOn^[j] s) ((State.goOn^[j] s).blk.getX ra) = true := by
      rw [badBitLength_iff (l := l) (by simpa using hl), s.goOn_iterate_blk, s.goOn_iterate_cfg]
      exact hno
    obtain ⟨k, hbefore, hend⟩ := s.goOn_until (fun b => primePair b b w l.rounds.toNat s.entropy)
      (fun _ _ _ hb => primePair_mono hb hb) (primePair_mono (le_max_left b t) (le_max_right b t) h)
    obtain ⟨en', key, hexec, hkey⟩ := exec_keyGeneration_found hi (hok k) (by simpa [w, hrounds] using hend)
    refine ⟨k, _, fun j hj => ?_, hend, hexec, State.finish_latch _ _, (State.finish_completed _ _).2.1,
      State.finish_install_primes hkey⟩
    rw [Function.iterate_succ_apply']
    exact exec_keyGeneration_goOn hi (hok j) (by simpa [w, hrounds] using hbefore j hj)

/-! ## When the engine's step ends the command (R107) -/

/-- The loop of the command, if it has one, is refused or ends within the budget of s on the coming draws. -/
def State.LoopEnds (s : State) : Instr → Prop
  | .genprime _ ra => (s.blk.getX ra < 2 ∨ s.cfg.wreg < s.blk.getX ra) ∨
      ∃ r, genPrime s.loopBudget (s.blk.getX ra) s.blk.latRounds s.entropy = some r
  | .keygen ra => badBitLength s (s.blk.getX ra) = true ∨
      ∃ r, primePair s.loopBudget s.loopBudget (s.blk.getX ra) s.blk.latRounds s.entropy = some r
  | .keygenS ra => badBitLength s (s.blk.getX ra) = true ∨
      ∃ r, primePair s.loopBudget s.loopBudget (s.blk.getX ra) s.blk.latRounds s.entropy = some r
  | _ => True

theorem State.loopEnds_of_no_loop (s : State) {i : Instr} (h : i.loops = false) : s.LoopEnds i := by
  cases i with
  | genprime => cases h
  | keygen => cases h
  | keygenS => cases h
  | _ => trivial

theorem State.loopEnds_keyGeneration {s : State} {i : Instr} {ra : RegNum} (hi : i = .keygen ra ∨ i = .keygenS ra) :
    s.LoopEnds i ↔ badBitLength s (s.blk.getX ra) = true ∨
      ∃ r, primePair s.loopBudget s.loopBudget (s.blk.getX ra) s.blk.latRounds s.entropy = some r := by
  rcases hi with rfl | rfl <;> exact Iff.rfl

theorem exec_keyGeneration_not_ended {s : State} {i : Instr} {ra : RegNum} (hi : i = .keygen ra ∨ i = .keygenS ra)
    (h : ¬ s.LoopEnds i) : exec i s = .next s.goOn := by
  rw [State.loopEnds_keyGeneration hi, not_or] at h
  exact exec_keyGeneration_goOn hi h.1 (Option.eq_none_iff_forall_ne_some.2 fun r hr => h.2 ⟨r, hr⟩)

/-- A loop that neither is refused nor ends goes on. -/
theorem exec_of_not_loopEnds {s : State} {i : Instr} (h : ¬ s.LoopEnds i) : exec i s = .next s.goOn := by
  cases i with
  | genprime rd ra =>
    rw [State.LoopEnds, not_or] at h
    exact exec_genprime_goOn (by omega) (by omega) (Option.eq_none_iff_forall_ne_some.2 fun r hr => h.2 ⟨r, hr⟩)
  | keygen ra => exact exec_keyGeneration_not_ended (.inl rfl) h
  | keygenS ra => exact exec_keyGeneration_not_ended (.inr rfl) h
  | _ => exact absurd trivial h

theorem exec_keyGeneration_ended {s : State} {i : Instr} {ra : RegNum} (hi : i = .keygen ra ∨ i = .keygenS ra)
    (h : s.LoopEnds i) : ∃ en c, exec i s = .next (s.finishDrawn en c) := by
  by_cases hbad : badBitLength s (s.blk.getX ra) = true
  · exact ⟨s.entropy, .error .bitLength, exec_keyGeneration_refused hi hbad⟩
  · obtain ⟨⟨⟨p, q⟩, en⟩, hr⟩ := ((State.loopEnds_keyGeneration hi).1 h).resolve_left hbad
    obtain ⟨en', key, hexec, -⟩ := exec_keyGeneration_found hi hbad hr
    exact ⟨en', _, hexec⟩

/-- A loop that is refused or ends, like a command without one, ends the command. -/
theorem exec_of_loopEnds {s : State} {i : Instr} (h : s.LoopEnds i) :
    ∃ en c, exec i s = .next (s.finishDrawn en c) := by
  cases hloop : i.loops with
  | false =>
    rcases exec_ends i s with ⟨hl, -⟩ | ⟨en, c, hend, -⟩
    · rw [hloop] at hl
      cases hl
    · exact ⟨en, c, hend⟩
  | true =>
    cases i with
    | genprime rd ra =>
      by_cases hbad : s.blk.getX ra < 2 ∨ s.cfg.wreg < s.blk.getX ra
      · exact ⟨s.entropy, .error .range, exec_genprime_refused hbad⟩
      · obtain ⟨⟨c, en⟩, hr⟩ := h.resolve_left hbad
        exact ⟨en, .ok (s.blk.setX rd c), exec_genprime_found (by omega) (by omega) hr⟩
    | keygen ra => exact exec_keyGeneration_ended (.inl rfl) h
    | keygenS ra => exact exec_keyGeneration_ended (.inr rfl) h
    | _ => cases hloop

/-- The engine's next step ends the latched command. -/
def State.Ready (s : State) : Prop :=
  ∃ l, s.blk.latch = some l ∧ ∀ i, decode l.word = some i → s.LoopEnds i

theorem engineStep_ready {s : State} (h : s.Ready) : ∃ en c, engineStep s = .next (s.finishDrawn en c) := by
  obtain ⟨l, hl, hends⟩ := h
  cases hd : decode l.word with
  | none => exact ⟨s.entropy, .error .illegal, engineStep_illegal hl hd⟩
  | some i =>
    rw [engineStep_command hl hd]
    exact exec_of_loopEnds (hends i hd)

/-- A completion step is enabled exactly when the command is ready under some budget. -/
theorem State.completionEnabled_iff {s : State} :
    s.CompletionEnabled ↔ ∃ b, { s with loopBudget := b }.Ready := by
  constructor
  · rintro ⟨hbusy, b, t, ht, hidle⟩
    obtain ⟨l, hl⟩ := s.blk.busy_iff.1 hbusy
    refine ⟨b, l, hl, fun i hd => ?_⟩
    by_contra hgo
    rw [engineStep_command (s := { s with loopBudget := b }) hl hd, exec_of_not_loopEnds hgo] at ht
    cases ht
    rw [State.goOn_blk, hbusy] at hidle
    cases hidle
  · rintro ⟨b, hready⟩
    obtain ⟨en, c, hend⟩ := engineStep_ready hready
    obtain ⟨l, hl, -⟩ := hready
    exact ⟨s.blk.busy_iff.2 ⟨l, hl⟩, b, _, hend, (State.finish_completed _ c).1⟩

theorem State.completionEnabled_of_ready {s : State} (h : s.Ready) : s.CompletionEnabled :=
  State.completionEnabled_iff.2 ⟨s.loopBudget, h⟩

theorem State.completionEnabled_illegal {s : State} {l : Latch} (hl : s.blk.latch = some l)
    (hd : decode l.word = none) : s.CompletionEnabled :=
  State.completionEnabled_of_ready ⟨l, hl, fun i hi => by rw [hd] at hi; cases hi⟩

/-- For a latched command, `State.completionEnabled_iff` speaks of its own loop. -/
theorem State.completionEnabled_command {s : State} {l : Latch} {i : Instr} (hl : s.blk.latch = some l)
    (hd : decode l.word = some i) : s.CompletionEnabled ↔ ∃ b, { s with loopBudget := b }.LoopEnds i := by
  rw [State.completionEnabled_iff]
  refine exists_congr fun b => ⟨fun ⟨l', hl', hends⟩ => hends i ?_, fun hends => ⟨l, hl, fun j hj => ?_⟩⟩
  · cases hl.symm.trans hl'
    exact hd
  · cases hd.symm.trans hj
    exact hends

theorem State.completionEnabled_genprime {s : State} {l : Latch} {rd ra : RegNum} (hl : s.blk.latch = some l)
    (hd : decode l.word = some (.genprime rd ra)) :
    s.CompletionEnabled ↔ (s.blk.getX ra < 2 ∨ s.cfg.wreg < s.blk.getX ra) ∨
      ∃ b c en, genPrime b (s.blk.getX ra) l.rounds.toNat s.entropy = some (c, en) := by
  rw [State.completionEnabled_command hl hd, ← Block.latRounds_some hl]
  simp only [State.LoopEnds, exists_or, exists_const, Prod.exists]

theorem State.completionEnabled_keyGeneration {s : State} {l : Latch} {i : Instr} {ra : RegNum}
    (hl : s.blk.latch = some l) (hi : i = .keygen ra ∨ i = .keygenS ra) (hd : decode l.word = some i) :
    s.CompletionEnabled ↔ badBitLength s (s.blk.getX ra) = true ∨
      ∃ b t p q en, primePair b t (s.blk.getX ra) l.rounds.toNat s.entropy = some ((p, q), en) := by
  rw [State.completionEnabled_command hl hd, ← Block.latRounds_some hl]
  simp only [State.loopEnds_keyGeneration hi]
  constructor
  · rintro ⟨b, hbad | ⟨⟨⟨p, q⟩, en⟩, hr⟩⟩
    · exact .inl hbad
    · exact .inr ⟨b, b, p, q, en, hr⟩
  · rintro (hbad | ⟨b, t, p, q, en, hr⟩)
    · exact ⟨0, .inl hbad⟩
    · exact ⟨max b t, .inr ⟨_, primePair_mono (le_max_left ..) (le_max_right ..) hr⟩⟩

/-! ## A latched command along a run (R303) -/

/-- In t the command of s still runs: the same latch, operands and coming draws, with no smaller budget. -/
structure State.Continues (s t : State) : Prop where
  cfg     : t.cfg = s.cfg
  latch   : t.blk.latch = s.blk.latch
  x       : t.blk.x = s.blk.x
  entropy : t.entropy = s.entropy
  budget  : s.loopBudget ≤ t.loopBudget

theorem State.Continues.refl (s : State) : s.Continues s :=
  ⟨rfl, rfl, rfl, rfl, le_rfl⟩

theorem State.Continues.trans {s t u : State} (h₁ : s.Continues t) (h₂ : t.Continues u) : s.Continues u :=
  ⟨h₂.cfg.trans h₁.cfg, h₂.latch.trans h₁.latch, h₂.x.trans h₁.x, h₂.entropy.trans h₁.entropy,
    h₁.budget.trans h₂.budget⟩

section
variable {s t : State} {l : Latch} (h : s.Continues t) (hl : s.blk.latch = some l)
include h

theorem State.Continues.getX (r : RegNum) : t.blk.getX r = s.blk.getX r := by
  rw [Block.getX, h.x, Block.getX]

include hl

theorem State.Continues.latRounds : t.blk.latRounds = s.blk.latRounds := by
  rw [Block.latRounds_some hl, Block.latRounds_some (h.latch.trans hl)]

theorem State.Continues.badBitLength (bl : Nat) : badBitLength t bl = badBitLength s bl := by
  rw [Bool.eq_iff_iff, badBitLength_iff hl, badBitLength_iff (h.latch.trans hl), h.cfg]

theorem State.Continues.loopEnds_keyGeneration {i : Instr} {ra : RegNum} (hi : i = .keygen ra ∨ i = .keygenS ra)
    (hends : s.LoopEnds i) : t.LoopEnds i := by
  rw [State.loopEnds_keyGeneration hi] at hends ⊢
  rw [h.getX, h.latRounds hl, h.badBitLength hl, h.entropy]
  exact hends.imp_right fun ⟨r, hr⟩ => ⟨r, primePair_mono h.budget h.budget hr⟩

/-- What ends a loop still ends it: it is read from the latch, the operands and the draws. -/
theorem State.Continues.loopEnds {i : Instr} (hends : s.LoopEnds i) : t.LoopEnds i := by
  cases i with
  | genprime rd ra =>
    rw [State.LoopEnds] at hends ⊢
    rw [h.getX, h.latRounds hl, h.cfg, h.entropy]
    exact hends.imp_right fun ⟨r, hr⟩ => ⟨r, genPrime_mono h.budget hr⟩
  | keygen ra => exact h.loopEnds_keyGeneration hl (.inl rfl) hends
  | keygenS ra => exact h.loopEnds_keyGeneration hl (.inr rfl) hends
  | _ => trivial

end

theorem State.Continues.ready {s t : State} (h : s.Continues t) (hs : s.Ready) : t.Ready := by
  obtain ⟨l, hl, hends⟩ := hs
  exact ⟨l, h.latch.trans hl, fun i hd => h.loopEnds hl (hends i hd)⟩

theorem State.Continues.completionEnabled {s t : State} (h : s.Continues t) (hs : s.CompletionEnabled) :
    t.CompletionEnabled := by
  obtain ⟨b, hready⟩ := State.completionEnabled_iff.1 hs
  have hsame : { s with loopBudget := b }.Continues { t with loopBudget := b } :=
    ⟨h.cfg, h.latch, h.x, h.entropy, le_rfl⟩
  exact State.completionEnabled_iff.2 ⟨b, hsame.ready hready⟩

/-- The step from s to t ends the command: the engine completes it, or a reset drops it. -/
def State.EndedBy (s t : State) : Prop :=
  t.blk.latch = none ∧ ((s.nextEvent.1 = .engine ∧ t.blk.done = true) ∨ t.blk = Block.reset)

theorem hostStep_running {s t : State} {l : Latch} (hl : s.blk.latch = some l) (h : hostStep s = .next t) :
    s.Continues t ∨ t.blk = Block.reset := by
  rcases hostStep_undisturbed h with hreset | hsame
  · exact .inr hreset
  · obtain ⟨hx, hlatch⟩ := hsame.running (s.blk.busy_iff.2 ⟨l, hl⟩)
    obtain ⟨b, host, rfl, -⟩ := hostStep_cases h
    exact .inl ⟨rfl, hlatch, hx, rfl, le_rfl⟩

/-- While a command runs a step ends it or leaves it running, and an engine step that leaves it running raises the
budget. -/
theorem step_running {s t : State} {l : Latch} (hl : s.blk.latch = some l) (h : step s = .next t) :
    s.EndedBy t ∨ (s.Continues t ∧ (s.nextEvent.1 = .engine → s.loopBudget < t.loopBudget)) := by
  obtain ⟨sc, hsc⟩ := s.nextEvent_frame
  have hsched : s.Continues { s with sched := sc } := ⟨rfl, rfl, rfl, rfl, le_rfl⟩
  rw [step, hsc] at h
  cases hev : s.nextEvent.1 with
  | host =>
    rw [hev] at h
    rcases hostStep_running (s := { s with sched := sc }) hl h with hcont | hreset
    · exact .inr ⟨hsched.trans hcont, nofun⟩
    · exact .inl ⟨by rw [hreset]; rfl, .inr hreset⟩
  | engine =>
    rw [hev] at h
    rcases engineStep_latched (s := { s with sched := sc }) hl h with ⟨rfl, -⟩ | ⟨hnone, hdone⟩
    · have hlt := { s with sched := sc }.lt_goOn_loopBudget
      exact .inr ⟨⟨rfl, rfl, rfl, rfl, hlt.le⟩, fun _ => hlt⟩
    · exact .inl ⟨hnone, .inl ⟨hev, hdone⟩⟩
  | powerOn =>
    rw [hev] at h
    cases h
    exact .inl ⟨rfl, .inr rfl⟩

/-- The engine's event ends a command that is ready. -/
theorem step_ready {s t : State} (hs : s.Ready) (hev : s.nextEvent.1 = .engine) (h : step s = .next t) :
    t.blk.latch = none := by
  obtain ⟨sc, hsc⟩ := s.nextEvent_frame
  rw [step, hsc, hev] at h
  have hsched : s.Continues { s with sched := sc } := ⟨rfl, rfl, rfl, rfl, le_rfl⟩
  obtain ⟨en, c, hend⟩ := engineStep_ready (hsched.ready hs)
  cases h.symm.trans hend
  exact State.finish_latch _ c

section
variable {r : Nat → State} (hrun : IsRun r) (hfair : WeaklyFair r) {n : Nat} (henabled : (r n).CompletionEnabled)
include hrun

/-- Where the command of r n runs on for ever, every step leaves it running. -/
theorem continues_of_forever {l : Latch} (hl : (r n).blk.latch = some l)
    (hforever : ∀ j, n ≤ j → (r n).Continues (r j)) {m : Nat} (hm : n ≤ m) :
    ∀ j, m ≤ j → (r m).Continues (r j) := by
  intro j hj
  induction j, hj using Nat.le_induction with
  | base => exact .refl _
  | succ j hmj ih =>
    have hlj := (hforever j (hm.trans hmj)).latch.trans hl
    rcases step_running hlj (hrun j) with hended | ⟨hcont, -⟩
    · have hnext := (hforever (j + 1) (by omega)).latch.trans hl
      rw [hended.1] at hnext
      cases hnext
    · exact ih.trans hcont

include hfair henabled

/-- In a fair run an enabled command does not run for ever: the engine would move again and again, and its budget pass
the one the command needs. -/
theorem not_forever : ¬ ∀ j, n ≤ j → (r n).Continues (r j) := by
  intro hforever
  obtain ⟨b, hready⟩ := State.completionEnabled_iff.1 henabled
  obtain ⟨l, hl⟩ := (r n).blk.busy_iff.1 henabled.1
  have hengine (m : Nat) (hm : n ≤ m) : ∃ k, m ≤ k ∧ (r k).nextEvent.1 = .engine :=
    hfair m fun j hj => (hforever j (hm.trans hj)).completionEnabled henabled
  have hlatched (j : Nat) (hj : n ≤ j) : (r j).blk.latch = some l := (hforever j hj).latch.trans hl
  have hgrows (k : Nat) : ∃ m, n ≤ m ∧ k ≤ (r m).loopBudget := by
    induction k with
    | zero => exact ⟨n, le_rfl, Nat.zero_le _⟩
    | succ k ih =>
      obtain ⟨m, hm, hk⟩ := ih
      obtain ⟨e, he, hev⟩ := hengine m hm
      have hbudget := (continues_of_forever hrun hl hforever hm e he).budget
      rcases step_running (hlatched e (hm.trans he)) (hrun e) with hended | ⟨-, hraise⟩
      · have hnext := hlatched (e + 1) (by omega)
        rw [hended.1] at hnext
        cases hnext
      · have hlt := hraise hev
        exact ⟨e + 1, by omega, by omega⟩
  obtain ⟨m, hm, hb⟩ := hgrows b
  obtain ⟨e, he, hev⟩ := hengine m hm
  have hlarge := hb.trans (continues_of_forever hrun hl hforever hm e he).budget
  have hcont := hforever e (hm.trans he)
  have hfrom : { r n with loopBudget := b }.Continues (r e) :=
    ⟨hcont.cfg, hcont.latch, hcont.x, hcont.entropy, hlarge⟩
  have hdone := step_ready (hfrom.ready hready) hev (hrun e)
  rw [hlatched (e + 1) (by omega)] at hdone
  cases hdone

/-- So there is a first step that ends it. -/
theorem exists_endedBy : ∃ m, n ≤ m ∧ (∀ j, n ≤ j → j ≤ m → (r j).blk.latch = (r n).blk.latch) ∧
    (r m).EndedBy (r (m + 1)) := by
  classical
  obtain ⟨l, hl⟩ := (r n).blk.busy_iff.1 henabled.1
  have hleaves : ∃ k, ¬ (r n).Continues (r (n + k)) := by
    by_contra hno
    refine not_forever hrun hfair henabled fun j hj => ?_
    rw [← Nat.add_sub_of_le hj]
    exact not_not.1 fun h => hno ⟨_, h⟩
  obtain ⟨k, hk⟩ : ∃ k, Nat.find hleaves = k + 1 :=
    Nat.exists_eq_succ_of_ne_zero fun hzero => (hzero ▸ Nat.find_spec hleaves) (.refl _)
  have hbefore (j : Nat) (hj : j ≤ k) : (r n).Continues (r (n + j)) :=
    not_not.1 (Nat.find_min hleaves (by omega))
  refine ⟨n + k, by omega, fun j hnj hjk => ?_, ?_⟩
  · rw [← Nat.add_sub_of_le hnj]
    exact (hbefore (j - n) (by omega)).latch
  · have hcont := hbefore k le_rfl
    rcases step_running (hcont.latch.trans hl) (hrun (n + k)) with hended | ⟨hnext, -⟩
    · exact hended
    · have hfirst := Nat.find_spec hleaves
      rw [hk] at hfirst
      exact absurd (hcont.trans hnext) hfirst

end

/-- Settles O60: the enabledness of each kind of word is `State.completionEnabled_command` and its two instances; the
run is `exists_endedBy`. -/
theorem fairRunsCompleteEnabledCommands : Obligations.FairRunsCompleteEnabledCommands := by
  refine ⟨fun s l hl => ⟨State.completionEnabled_illegal hl, fun i hd hloop => ?noLoop, fun rd ra hd => ?genprime,
    fun ra i hi hd => ?keyGeneration⟩, fun r hrun hfair n henabled => ?run⟩
  case noLoop => exact (State.completionEnabled_command hl hd).2 ⟨0, State.loopEnds_of_no_loop _ hloop⟩
  case genprime =>
    intro w
    rw [State.completionEnabled_genprime hl hd]
    exact ⟨.inl, fun hlo hhi => or_iff_right (by omega)⟩
  case keyGeneration =>
    intro bl bad
    rw [State.completionEnabled_keyGeneration hl hi hd, badBitLength_iff hl]
    exact ⟨.inl, or_iff_right⟩
  case run =>
    obtain ⟨m, hm, hlatched, hnone, hhow⟩ := exists_endedBy hrun hfair henabled
    exact ⟨m, hm, hlatched, hnone, hhow⟩

end Sys2Proof.Machine
end

section
/-! SUPPORT. The Paillier cryptosystem (47_decryptor.md R242, 40_modexp_engine.md R124): what DECRYPT makes of
g^m · r^n modulo n2, and the statements about the round trip and the homomorphic laws. -/

namespace Sys2Proof.Machine

/-! ## Powers of units (10_state.md R25) -/

/-- Fermat for an exponent that p − 1 divides. -/
theorem pow_modEq_one_of_prime {p r e : Nat} (hp : p.Prime) (hr : Nat.Coprime r p) (he : p - 1 ∣ e) :
    r ^ e ≡ 1 [MOD p] := by
  obtain ⟨k, rfl⟩ := he
  have hfermat : r ^ (p - 1) ≡ 1 [MOD p] := by
    rw [← Nat.totient_prime hp]
    exact Nat.ModEq.pow_totient hr
  calc r ^ ((p - 1) * k) = (r ^ (p - 1)) ^ k := pow_mul ..
    _ ≡ 1 ^ k [MOD p] := hfermat.pow k
    _ = 1 := one_pow k

/-- Raising a number that is 1 modulo n to the n-th power makes it 1 modulo n². -/
theorem pow_modEq_one_square {y n : Nat} (hn : 2 ≤ n) (h : y ≡ 1 [MOD n]) : y ^ n ≡ 1 [MOD n * n] := by
  have hy : y = 1 + y / n * n := by
    have hone : y % n = 1 := by rw [h, Nat.mod_eq_of_lt hn]
    have hdiv := Nat.mod_add_div y n
    rw [hone, Nat.mul_comm] at hdiv
    exact hdiv.symm
  have hzero : n * (y / n) * n ≡ 0 [MOD n * n] :=
    Nat.modEq_zero_iff_dvd.2 ⟨y / n, by ring⟩
  rw [hy]
  exact (one_add_mul_pow_modEq (y / n) n n).trans (hzero.add_left 1)

section
variable {k : KeyBank} (hpub : k.PublicOk) (hpriv : k.PrivateOk) (hp : k.p.Prime) (hq : k.q.Prime) (hpq : k.p ≠ k.q)

/-- Both p − 1 and q − 1 divide λ, in either variant. -/
theorem KeyBank.PrivateOk.dvd_lambda {k : KeyBank} (hpriv : k.PrivateOk) : k.p - 1 ∣ k.lambda ∧ k.q - 1 ∣ k.lambda := by
  rcases hpriv.lambda with h | h <;> rw [h]
  · exact ⟨Nat.dvd_mul_right .., Nat.dvd_mul_left ..⟩
  · exact ⟨Nat.dvd_lcm_left .., Nat.dvd_lcm_right ..⟩

include hpriv hp hq hpq

/-- λ is an exponent of the units modulo n. -/
theorem pow_lambda_modEq_one {r : Nat} (hr : Nat.gcd r k.n = 1) : r ^ k.lambda ≡ 1 [MOD k.n] := by
  obtain ⟨hdp, hdq⟩ := hpriv.dvd_lambda
  rw [← hpriv.factors] at hr ⊢
  have hcop : Nat.Coprime k.p k.q := (Nat.coprime_primes hp hq).2 hpq
  exact (Nat.modEq_and_modEq_iff_modEq_mul hcop).1
    ⟨pow_modEq_one_of_prime hp (Nat.Coprime.coprime_mul_right_right hr) hdp,
      pow_modEq_one_of_prime hq (Nat.Coprime.coprime_mul_left_right hr) hdq⟩

include hpub

/-- The randomness of a ciphertext vanishes in its power λ, and its plaintext becomes a factor of L. -/
theorem ciphertext_pow_lambda {c m r : Nat} (hr : Nat.gcd r k.n = 1) (hc : c ≡ k.g ^ m * r ^ k.n [MOD k.n2]) :
    c ^ k.lambda % k.n2 = 1 + m * ((k.g ^ k.lambda % k.n2 - 1) / k.n) % k.n * k.n := by
  have hn : 2 ≤ k.n := Nat.le_of_succ_le hpub.three
  have hx : k.g ^ k.lambda % k.n2 = 1 + (k.g ^ k.lambda % k.n2 - 1) / k.n * k.n := by
    have hdiv := Nat.div_mul_cancel (Nat.dvd_of_mod_eq_zero hpriv.exact)
    have hpos := hpriv.x_pos
    omega
  generalize (k.g ^ k.lambda % k.n2 - 1) / k.n = l at hx ⊢
  rw [← one_add_mul_mod_square _ hn, ← hpub.square]
  have hrandom : (r ^ k.n) ^ k.lambda ≡ 1 [MOD k.n2] := by
    rw [hpub.square, pow_right_comm]
    exact pow_modEq_one_square hn (pow_lambda_modEq_one hpriv hp hq hpq hr)
  have hbase : k.g ^ k.lambda ≡ 1 + l * k.n [MOD k.n2] := by
    rw [← hx]
    exact (Nat.mod_modEq ..).symm
  calc c ^ k.lambda ≡ (k.g ^ m * r ^ k.n) ^ k.lambda [MOD k.n2] := hc.pow _
    _ = (k.g ^ k.lambda) ^ m * (r ^ k.n) ^ k.lambda := by rw [mul_pow, ← pow_mul, Nat.mul_comm m, pow_mul]
    _ ≡ (1 + l * k.n) ^ m * 1 [MOD k.n2] := (hbase.pow m).mul hrandom
    _ = (1 + l * k.n) ^ m := Nat.mul_one _
    _ ≡ 1 + m * l * k.n [MOD k.n2] := by
      rw [hpub.square]
      exact one_add_mul_pow_modEq l k.n m

end

/-! ## DECRYPT of a ciphertext (47_decryptor.md R241) -/

@[simp] theorem State.getX_wrote (s : State) (en : Entropy) (rd : RegNum) (v : Nat) :
    (s.wrote en rd v).blk.getX rd = v :=
  s.blk.getX_setX_same rd v

section
variable {s : State} {m r : Nat} (hsk : s.blk.skValid = true) (hpub : s.blk.key.PublicOk)
  (hpriv : s.blk.key.PrivateOk) (hp : s.blk.key.p.Prime) (hq : s.blk.key.q.Prime)
  (hpq : s.blk.key.p ≠ s.blk.key.q) (hr : Nat.gcd r s.blk.key.n = 1)
include hsk hpub hpriv hp hq hpq hr

/-- DECRYPT of a number that is g^m · r^n modulo n2, r a unit, writes m modulo n. -/
theorem exec_decrypt_ciphertext {ra : RegNum} (hlt : s.blk.getX ra < s.blk.key.n2)
    (hc : s.blk.getX ra ≡ s.blk.key.g ^ m * r ^ s.blk.key.n [MOD s.blk.key.n2]) (rd : RegNum) :
    exec (.decrypt rd ra) s = .next (s.wrote s.entropy rd (m % s.blk.key.n)) := by
  have hn : 0 < s.blk.key.n := Nat.zero_lt_of_lt hpub.three
  have hx := ciphertext_pow_lambda hpub hpriv hp hq hpq hr hc
  have hmu := hpriv.mu
  obtain ⟨-, -, -, -, -, hwrites⟩ := decryptWritesThePlaintext rd ra s
  rw [hwrites hsk hlt (by rw [hx]; omega) (by rw [hx, Nat.add_sub_cancel_left, Nat.mul_mod_left]), hx,
    Nat.add_sub_cancel_left, Nat.mul_div_cancel _ hn, Nat.mod_mul_mod, Nat.mul_assoc, Nat.mul_comm _ s.blk.key.mu,
    Nat.mul_mod, hmu, Nat.mul_one, Nat.mod_mod]

/-- DECRYPT of the register just written, in terms of the state before the write. -/
theorem exec_decrypt_wrote {rc : RegNum} {en : Entropy} {c : Nat}
    (hc : c ≡ s.blk.key.g ^ m * r ^ s.blk.key.n [MOD s.blk.key.n2]) (rd : RegNum) :
    exec (.decrypt rd rc) (s.wrote en rc (c % s.blk.key.n2)) =
      .next ((s.wrote en rc (c % s.blk.key.n2)).wrote en rd (m % s.blk.key.n)) := by
  refine exec_decrypt_ciphertext (s := s.wrote en rc (c % s.blk.key.n2)) (r := r) hsk hpub hpriv hp hq hpq hr ?_ ?_ rd
  · rw [State.getX_wrote]
    exact Nat.mod_lt c (Nat.zero_lt_of_lt hpub.g_lt)
  · rw [State.getX_wrote]
    exact (Nat.mod_modEq ..).trans hc

end

/-- A ciphertext as the commands compute it is g^m · r^n modulo n2 (46_encryptor.md R220). -/
theorem enc_modEq (g m r n n2 : Nat) : g ^ m % n2 * (r ^ n % n2) ≡ g ^ m * r ^ n [MOD n2] :=
  (Nat.mod_modEq ..).mul (Nat.mod_modEq ..)

/-- Settles O58: what ENCRYPT.R writes is a ciphertext of X[ra], and DECRYPT gives X[ra] modulo n back. -/
theorem decryptInvertsEncrypt : Obligations.DecryptInvertsEncrypt := by
  intro s t rc ra rb rd hpk hsk hpub hpriv hp hq hpq hm hpos hlt hr h
  obtain ⟨-, -, -, -, hwrites⟩ := encryptRWritesTheCiphertext rc ra rb s
  cases h.symm.trans (hwrites hpk (by omega))
  have hplain := exec_decrypt_wrote (en := s.entropy) (rc := rc) hsk hpub hpriv hp hq hpq hr
    (enc_modEq s.blk.key.g (s.blk.getX ra) ..) rd
  rw [Nat.mod_eq_of_lt hm] at hplain
  exact hplain

/-- The product of two ciphertexts is a ciphertext of the sum. -/
theorem enc_mul_modEq {g m₁ m₂ r₁ r₂ n n2 c₁ c₂ : Nat} (h₁ : c₁ ≡ g ^ m₁ * r₁ ^ n [MOD n2])
    (h₂ : c₂ ≡ g ^ m₂ * r₂ ^ n [MOD n2]) : c₁ * c₂ ≡ g ^ (m₁ + m₂) * (r₁ * r₂) ^ n [MOD n2] := by
  have hprod : g ^ m₁ * r₁ ^ n * (g ^ m₂ * r₂ ^ n) = g ^ (m₁ + m₂) * (r₁ * r₂) ^ n := by ring
  rw [← hprod]
  exact h₁.mul h₂

/-- The power of a ciphertext is a ciphertext of the multiple. -/
theorem enc_pow_modEq {g m r n n2 c : Nat} (h : c ≡ g ^ m * r ^ n [MOD n2]) (e : Nat) :
    c ^ e ≡ g ^ (e * m) * (r ^ e) ^ n [MOD n2] := by
  have hpow : (g ^ m * r ^ n) ^ e = g ^ (e * m) * (r ^ e) ^ n := by ring
  rw [← hpow]
  exact h.pow e

/-- Settles O59: MODMUL and MODEXP modulo n2 compute the product and the power of ciphertexts, which are ciphertexts of
the sum and the multiple. -/
theorem ciphertextsAddAndScale : Obligations.CiphertextsAddAndScale := by
  intro s t rd ra rb rc ro m₁ m₂ r₁ r₂ k enc hsk hpub hpriv hp hq hpq hr₁ ha hmod
  have hodd : s.blk.getX rc % 2 = 1 := by
    rw [hmod, hpub.square, Nat.mul_mod, hpub.odd]
  have hcipher (m r : Nat) : enc m r ≡ k.g ^ m * r ^ k.n [MOD k.n2] := (Nat.mod_modEq ..).trans (enc_modEq ..)
  refine ⟨fun hr₂ hb h => ?product, fun h => ?power⟩
  case product =>
    obtain ⟨-, -, hwrites, -⟩ := modmulWritesTheProduct rd ra rb rc s
    cases h.symm.trans (hwrites hodd)
    rw [ha, hb, hmod]
    exact exec_decrypt_wrote hsk hpub hpriv hp hq hpq (Nat.Coprime.mul_left hr₁ hr₂)
      (enc_mul_modEq (hcipher m₁ r₁) (hcipher m₂ r₂)) ro
  case power =>
    obtain ⟨-, -, hwrites, -⟩ := modexpWritesThePower rd ra rb rc s
    cases h.symm.trans (hwrites hodd)
    rw [ha, hmod]
    exact exec_decrypt_wrote hsk hpub hpriv hp hq hpq (Nat.Coprime.pow_left _ hr₁) (enc_pow_modEq (hcipher m₁ r₁) _) ro

end Sys2Proof.Machine
end
